-- ==== Sys2Proof/Word.lean ====
section
/-! DEFINITION. The widths of the values of syndrome_engine (spec/00_scope.md R11, R13).
The build parameters N and R are run-time data of the state, so codewords and syndromes are held at
the widths the register layout is sized for, NMAX = 256 and RMAX = 32; that bits at or above N (or R)
are zero is an invariant, not a type. -/

namespace Sys2Proof

/-- One byte lane of the bus (20_memory.md R73). -/
abbrev Byte := BitVec 8

/-- One 32-bit bus word, and one limb of a codeword-shaped register (R13, R72). -/
abbrev Word := BitVec 32

/-- A codeword-shaped value: NMAX = 256 bits, of which the low N are significant (R11, R13). -/
abbrev Codeword := BitVec 256

/-- A syndrome: RMAX = 32 bits, of which the low R are significant (R6, R13). -/
abbrev Syndrome := BitVec 32

/-- A 4-bit pattern: bit b stands for bit 4k+b of symbol k (00_scope.md section 6). -/
abbrev Pattern := BitVec 4

end Sys2Proof
end

