-- ==== Sys2Proof/Config.lean ====
section
/-! DEFINITION. What an implementation fixes (spec/00_scope.md section 4) and the free values the spec
leaves open (spec/70_reset_and_hazards.md R302, spec/20_memory.md R90). -/

namespace Sys2Proof

/-- The build parameters (00_scope.md R5, R6, R8, R9, R10). One machine has one build; the model keeps it
as a constant part of the state, so that every statement is about every legal build. -/
structure Build where
  /-- N, the codeword width in bits (R5). -/
  n : Nat
  /-- R, the number of parity-check rows and the syndrome width (R6). -/
  r : Nat
  /-- CAND_CAP, the entries of the candidate buffer (R8). -/
  candCap : Nat
  /-- SI_CAP, the side-information slots (R9). -/
  siCap : Nat
  /-- ENGINE_BASE, the byte address of the register window (R10). -/
  base : Nat
deriving DecidableEq, Repr

/-- K = N - R, the message width (R6). -/
def Build.k (b : Build) : Nat := b.n - b.r

/-- NSYM = N / 4, the number of symbols (R7). -/
def Build.nsym (b : Build) : Nat := b.n / 4

/-- Lc = ceil(N / 32), the limbs in use (30_encoding.md R112). -/
def Build.limbsInUse (b : Build) : Nat := (b.n + 31) / 32

/-- The build State.reset takes: the SSC16 build of 95_test_vectors.md section 2.2 at base 0.
DESIGN CHOICE (log 1): the spec leaves all five parameters OPEN. Unsafe for a claim about State.reset alone. -/
def Config.defaultBuild : Build := ⟨16, 8, 64, 4, 0⟩

/-- The size of the register window in bytes (20_memory.md R71). -/
def Config.windowBytes : Nat := 4096

/-- L = 8, the limbs of a codeword-shaped register (00_scope.md R11). -/
def Config.limbs : Nat := 8

/-- The completion delay of a command that `State.delays` names none for: a free value, finite because it is
a number (20_memory.md R90; log 5). The argument is the draw counter. -/
opaque Config.completionDelay : Nat → Nat

/-- ROW[i] after a platform reset: a free value (70_reset_and_hazards.md R302; log 12).
Arguments of the five free arrays: the draw counter and the index. -/
opaque Config.resetRow : Nat → Nat → Codeword
/-- COL[j] after a platform reset: a free value (R302; log 12). -/
opaque Config.resetCol : Nat → Nat → Syndrome
/-- SI[m] after a platform reset: a free value (R302; log 12). -/
opaque Config.resetSi : Nat → Nat → Codeword
/-- CAND_CW[c] after a platform reset: a free value (R302; log 12). -/
opaque Config.resetCandCw : Nat → Nat → Codeword
/-- CAND_SCORE[c] after a platform reset: a free value (R302; log 12). -/
opaque Config.resetCandScore : Nat → Nat → Word

end Sys2Proof
end

