-- ==== Sys2Proof/Syntax.lean ====
section
/-! DEFINITION. The commands of the block: one constructor for each row of spec/opcode_table.json
(spec/30_encoding.md R101). The operands of a command other than MAXC are registers, not fields (R109). -/

namespace Sys2Proof

/-- A command. MAXC is an operand of ENUM and RUN only, an unsigned number (R102); the other commands ignore
the field, so they carry none. -/
inductive Instr where
  /-- SYN: the syndrome of CW (40_syndrome.md R135). -/
  | syn
  /-- DECODE: tiered decode of CW (41_decoder.md R160). -/
  | decode
  /-- ENUM maxc: candidate enumeration of a DUE word (42_enumerator.md R185). -/
  | enum (maxc : Nat)
  /-- CHOOSE: side-information choice among the candidates (43_scorer.md R220). -/
  | choose
  /-- RUN maxc: the full pipeline (44_pipeline_config.md R240). -/
  | run (maxc : Nat)
  /-- COMMIT: check and commit the configuration (44_pipeline_config.md R252). -/
  | commit
deriving DecidableEq, Repr

end Sys2Proof
end

