-- ==== Sys2Proof/WellFormed.lean ====
section
/-! DEFINITION. Which commands an assembler accepts (spec/30_encoding.md R110) and which build parameters are
legal (spec/00_scope.md R5, R6, R8, R9). -/

namespace Sys2Proof

/-- "An assembler refuses a maxc outside 0..65535" (R110). -/
def Instr.wellFormed : Instr → Bool
  | .syn => true
  | .decode => true
  | .enum maxc => decide (maxc < 65536)
  | .choose => true
  | .run maxc => decide (maxc < 65536)
  | .commit => true

/-- The legal build parameters: 4 <= N <= 256 and N mod 4 = 0 (R5), 1 <= R <= 32 and R < N (R6),
1 <= CAND_CAP <= 65535 (R8), 1 <= SI_CAP <= 255 (R9). ENGINE_BASE is any address (R10). -/
def Build.wellFormed (b : Build) : Bool :=
  decide (4 ≤ b.n) && decide (b.n ≤ 256) && decide (b.n % 4 = 0) &&
  decide (1 ≤ b.r) && decide (b.r ≤ 32) && decide (b.r < b.n) &&
  decide (1 ≤ b.candCap) && decide (b.candCap ≤ 65535) &&
  decide (1 ≤ b.siCap) && decide (b.siCap ≤ 255)

end Sys2Proof
end

