-- ==== Sys2Proof/Decode.lean ====
section
/-! DEFINITION. The command decoder, total on every word and every list of bytes (spec/30_encoding.md R100,
R105), then the encoder (R110) and the small assembler of R110. -/

namespace Sys2Proof

/-- Why a word or a list of bytes is no command. -/
inductive DecodeError where
  /-- RSV, bits 15:4, is not 0 (R104). -/
  | reservedBits
  /-- OP is 0x0 or one of 0x7 to 0xF (R104). -/
  | reservedOp
  /-- Fewer than four bytes: no command word (R103: every command is exactly 32 bits). -/
  | tooShort
deriving DecidableEq, Repr

/-- OP = w[3:0] (R100). -/
def cmdOp (w : Word) : BitVec 4 := w.extractLsb' 0 4

/-- RSV = w[15:4] (R100). -/
def cmdRsv (w : Word) : BitVec 12 := w.extractLsb' 4 12

/-- MAXC = w[31:16], an unsigned number (R100, R102). -/
def cmdMaxc (w : Word) : Nat := (w.extractLsb' 16 16).toNat

/-- `decodeCmd` of R105: RSV first, then OP. -/
def decodeCmd (w : Word) : Except DecodeError Instr :=
  if cmdRsv w ≠ 0 then .error .reservedBits
  else if cmdOp w = 0x1 then .ok .syn
  else if cmdOp w = 0x2 then .ok .decode
  else if cmdOp w = 0x3 then .ok (.enum (cmdMaxc w))
  else if cmdOp w = 0x4 then .ok .choose
  else if cmdOp w = 0x5 then .ok (.run (cmdMaxc w))
  else if cmdOp w = 0x6 then .ok .commit
  else .error .reservedOp

/-- The 32-bit word on four byte lanes, lane 0 (bits 7:0) first (20_memory.md R73). -/
def wordOfLanes (b0 b1 b2 b3 : Byte) : Word := b3 ++ b2 ++ b1 ++ b0

/-- The four byte lanes of a word, lane 0 first (20_memory.md R73). -/
def lanesOfWord (w : Word) : List Byte :=
  [w.extractLsb' 0 8, w.extractLsb' 8 8, w.extractLsb' 16 8, w.extractLsb' 24 8]

/-- The decoder over bytes as the bus carries them: one command and the bytes after it. -/
def decode : List Byte → Except DecodeError (Instr × List Byte)
  | b0 :: b1 :: b2 :: b3 :: rest =>
    match decodeCmd (wordOfLanes b0 b1 b2 b3) with
    | .ok i => .ok (i, rest)
    | .error e => .error e
  | _ => .error .tooShort

/-- The OP value of a command (R101). -/
def Instr.op : Instr → BitVec 4
  | .syn => 0x1
  | .decode => 0x2
  | .enum _ => 0x3
  | .choose => 0x4
  | .run _ => 0x5
  | .commit => 0x6

/-- The MAXC field an assembler emits: the operand of ENUM and RUN, else 0 (R110). -/
def Instr.maxcField : Instr → Nat
  | .enum maxc => maxc
  | .run maxc => maxc
  | .syn => 0
  | .decode => 0
  | .choose => 0
  | .commit => 0

/-- The command word: (maxc << 16) | OP, RSV = 0 (R110). -/
def encode (i : Instr) : Word :=
  (BitVec.ofNat 32 i.maxcField <<< 16) ||| i.op.setWidth 32

/-- The command word on the byte lanes. -/
def encodeBytes (i : Instr) : List Byte := lanesOfWord (encode i)

/-- The command a table row's bits decode to: bits numbered as spec/opcode_table.json numbers them, those at or
above `nbits` zero, laid on the byte lanes and given to `decode` (log 25). -/
def decodeTableWord (nbits w : Nat) : Option Instr :=
  match decode (lanesOfWord (BitVec.ofNat 32 (w % 2 ^ nbits))) with
  | .ok (i, _) => some i
  | .error _ => none

/-- The value of a decimal digit. -/
def digitValue (c : Char) : Option Nat :=
  if '0' ≤ c ∧ c ≤ '9' then some (c.toNat - '0'.toNat) else none

/-- The value of a hexadecimal digit, either case. -/
def hexDigitValue (c : Char) : Option Nat :=
  if '0' ≤ c ∧ c ≤ '9' then some (c.toNat - '0'.toNat)
  else if 'a' ≤ c ∧ c ≤ 'f' then some (c.toNat - 'a'.toNat + 10)
  else if 'A' ≤ c ∧ c ≤ 'F' then some (c.toNat - 'A'.toNat + 10)
  else none

/-- A run of digits in a base, from an accumulator; a character that is no digit refuses the whole. -/
def parseDigits (base : Nat) (digit : Char → Option Nat) : Nat → List Char → Option Nat
  | acc, [] => some acc
  | acc, c :: cs =>
    match digit c with
    | some d => parseDigits base digit (acc * base + d) cs
    | none => none

/-- "a decimal or 0x-hexadecimal MAXC operand" (R110). -/
def parseNumber : List Char → Option Nat
  | [] => none
  | ['0', 'x'] => none
  | '0' :: 'x' :: c :: cs => parseDigits 16 hexDigitValue 0 (c :: cs)
  | c :: cs => parseDigits 10 digitValue 0 (c :: cs)

/-- The command a mnemonic and its operand name (R110): an operand for ENUM and RUN and for no other. -/
def commandOf (mnemonic : String) (operand : Option (List Char)) : Option Instr :=
  match operand with
  | none =>
    if mnemonic = "SYN" then some .syn
    else if mnemonic = "DECODE" then some .decode
    else if mnemonic = "CHOOSE" then some .choose
    else if mnemonic = "COMMIT" then some .commit
    else none
  | some digits =>
    match parseNumber digits with
    | none => none
    | some maxc =>
      if mnemonic = "ENUM" then some (.enum maxc)
      else if mnemonic = "RUN" then some (.run maxc)
      else none

/-- The assembler of R110: the word of a well-formed command, and nothing for a maxc outside 0..65535. -/
def assemble (mnemonic : String) (operand : Option (List Char)) : Option Word :=
  match commandOf mnemonic operand with
  | some i => if i.wellFormed then some (encode i) else none
  | none => none

end Sys2Proof
end

