-- ==== Sys2Proof/Machine/State.lean ====
section
/-! DEFINITION. The state of the block as plain data (spec/10_state.md), the bus events that drive it, the reasons
a step can stop, and the state after reset (spec/70_reset_and_hazards.md R301). -/

namespace Sys2Proof.Machine

/-- The result codes 0 to 14 of 30_encoding.md R106; code 15 is never written, so it is no constructor. -/
inductive ResultCode where
  | none
  | ok
  | noError
  | corrected
  | due
  | candidates
  | chosen
  | dueResolved
  | eMalformed
  | eCapacity
  | eUnrecoverableDue
  | eAmbiguous
  | eNotDue
  | eConfig
  | eIllegalOp
deriving DecidableEq, Repr

/-- What a bus access does: a read, or a write of data on the four lanes. -/
inductive AccessKind where
  | read
  | write (v : Word)
deriving DecidableEq, Repr

/-- One host access as the bus delivers it (20_memory.md R74, R75): byte address, width in bits, enabled byte
lanes. -/
structure Access where
  addr : Nat
  width : Nat
  lanes : BitVec 4
  kind : AccessKind
deriving DecidableEq, Repr

/-- What the outside world does to the block. -/
inductive BusEvent where
  /-- One host read or write (20_memory.md R74). -/
  | access (a : Access)
  /-- The host primitive POLL: read STATUS until BUSY = 0 (30_encoding.md R111). -/
  | poll
  /-- The platform asserts reset (70_reset_and_hazards.md R300, R304). -/
  | resetAssert
  /-- Reset ends (R300). -/
  | resetRelease
deriving DecidableEq, Repr

/-- What the bus answers the last access. -/
inductive BusResponse where
  /-- No access has been answered since reset. -/
  | none
  /-- The data of a read. -/
  | data (v : Word)
  /-- A write was taken off the bus; a discarded write is answered no differently (20_memory.md R77, R79, R87). -/
  | accepted
  /-- `raise BusError(addr)`, addr being the window offset (20_memory.md R75). -/
  | busError (addr : Nat)
  /-- The access came while reset was asserted and was ignored (70_reset_and_hazards.md R300). -/
  | ignored
deriving DecidableEq, Repr

/-- The state of the block. Each field names its rule; the last group is the interface's and the model's own. -/
structure State where
  /-- The build parameters, constant; PARAM0 and PARAM1 are their views (10_state.md R44; log 1). -/
  build : Build
  /-- CMD (R42): the last command word accepted, the pending one while busy. -/
  cmd : Word
  /-- PENDING (R55): empty exactly when STATUS.BUSY = 0 (log 14). -/
  pending : Option Word
  /-- STATUS.CFG_OK (R36). -/
  cfgOk : Bool
  /-- STATUS.OVERRUN (R43). -/
  overrun : Bool
  /-- STATUS.LAST_OP (R43). -/
  lastOp : BitVec 4
  /-- STATUS.RESULT (R43). -/
  result : ResultCode
  /-- CFG.LAYOUT, bit 0 of CFG (R33). -/
  layout : Bool
  /-- CFG.DIST_MODE, bit 1 of CFG (R33). -/
  distMode : Bool
  /-- SI_COUNT (R39). -/
  siCount : BitVec 8
  /-- SI_SEL (R40). -/
  siSel : BitVec 8
  /-- CAND_SEL (R41). -/
  candSel : BitVec 16
  /-- ROW[0..R-1] (R31). -/
  row : List Codeword
  /-- COL[0..N-1] (R32). -/
  col : List Syndrome
  /-- CW (R38). -/
  cw : Codeword
  /-- SI[0..SI_CAP-1] (R39). -/
  si : List Codeword
  /-- SYNDROME (R47). -/
  syndrome : Syndrome
  /-- DEC_INFO (R48). -/
  decInfo : Word
  /-- CORRECTED (R49). -/
  corrected : Codeword
  /-- MSG, K bits used (R49). -/
  msg : Codeword
  /-- CAND_COUNT (R52). -/
  candCount : BitVec 16
  /-- CAND_CW[0..CAND_CAP-1] (R52). -/
  candCw : List Codeword
  /-- CAND_SCORE[0..CAND_CAP-1] (R53). -/
  candScore : List Word
  /-- BEST (R54). -/
  best : BitVec 16
  /-- BEST_SUM (R54). -/
  bestSum : Word
  /-- Whether the platform holds reset asserted (70_reset_and_hazards.md R300). -/
  inReset : Bool
  /-- The bus and reset events not yet delivered, oldest first (20_memory.md R85; log 8). -/
  inbox : List BusEvent
  /-- The bus's answer to the last access (20_memory.md R75; log 16). -/
  response : BusResponse
  /-- The model's own: bus events the pending command still waits before it completes (20_memory.md R90; log 5). -/
  delay : Nat
  /-- The model's own: the completion delays of the next commands, in order (log 5). -/
  delays : List Nat
  /-- The model's own: the counter the free values are applied to (log 26). -/
  draws : Nat
deriving DecidableEq, Repr

/-- Why the machine stops with a fault. -/
inductive Fault where
  /-- Raised by the delivery of a host access whose byte address lies outside the 4 KiB window: "The block never
  sees an access outside the window" (20_memory.md R71; log 10). Safe: the block has no behaviour there. -/
  | outsideWindow (addr : Nat)
deriving DecidableEq, Repr

/-- Why an instruction is refused. -/
inductive Refusal where
  /-- Raised by an arm of exec for a command without a meaning; no arm raises it now. Safe: nothing runs. -/
  | notModelled (mnemonic : String)
deriving DecidableEq, Repr

/-- STATUS.BUSY: a command is pending (10_state.md R43, R55; log 14). -/
def State.busy (s : State) : Bool := s.pending.isSome

/-- The block right after reset, for any build and any contents of the arrays whose reset value the spec leaves
unspecified: every other register at the value of 70_reset_and_hazards.md R301, no event waiting. -/
def State.fresh (b : Build) (row : List Codeword) (col : List Syndrome) (si candCw : List Codeword)
    (candScore : List Word) : State where
  build := b
  cmd := 0
  pending := none
  cfgOk := false
  overrun := false
  lastOp := 0
  result := .none
  layout := false
  distMode := false
  siCount := 0
  siSel := 0
  candSel := 0
  row := row
  col := col
  cw := 0
  si := si
  syndrome := 0
  decInfo := 0
  corrected := 0
  msg := 0
  candCount := 0
  candCw := candCw
  candScore := candScore
  best := 0
  bestSum := 0
  inReset := false
  inbox := []
  response := .none
  delay := 0
  delays := []
  draws := 0

/-- The machine after reset: R301, with the build of log 1 and the unspecified arrays zero.
DESIGN CHOICE (log 2, log 3, log 4): the spec gives ROW, COL, SI, CAND_CW and CAND_SCORE no reset value. Unsafe for a
claim that leans on those zeros; `State.fresh` and the reset event range over every value. -/
def State.reset : State :=
  State.fresh Config.defaultBuild
    (List.replicate Config.defaultBuild.r 0) (List.replicate Config.defaultBuild.n 0)
    (List.replicate Config.defaultBuild.siCap 0) (List.replicate Config.defaultBuild.candCap 0)
    (List.replicate Config.defaultBuild.candCap 0)

end Sys2Proof.Machine
end

