-- ==== Sys2Proof/Machine/Flags.lean ====
section
/-! DEFINITION. STATUS, its result codes and flags, DEC_INFO and the identification registers as words
(spec/10_state.md R43, R44, R48, R56; spec/30_encoding.md R106). -/

namespace Sys2Proof.Machine

/-- The number of a result code (30_encoding.md R106). -/
def ResultCode.code : ResultCode → BitVec 4
  | .none => 0
  | .ok => 1
  | .noError => 2
  | .corrected => 3
  | .due => 4
  | .candidates => 5
  | .chosen => 6
  | .dueResolved => 7
  | .eMalformed => 8
  | .eCapacity => 9
  | .eUnrecoverableDue => 10
  | .eAmbiguous => 11
  | .eNotDue => 12
  | .eConfig => 13
  | .eIllegalOp => 14

/-- The error codes, 8 to 14 (30_encoding.md R106, R107). -/
def ResultCode.isError (c : ResultCode) : Bool := decide (8 ≤ c.code.toNat)

/-- A flag at bit `i` of a word. -/
def flagBit (i : Nat) (b : Bool) : Word := if b then 1#32 <<< i else 0

/-- STATUS as a host reads it (10_state.md R43). -/
def State.statusWord (s : State) : Word :=
  flagBit 0 s.busy ||| flagBit 1 s.cfgOk ||| flagBit 2 s.overrun |||
  (s.lastOp.setWidth 32 <<< 8) ||| (s.result.code.setWidth 32 <<< 16)

/-- OVERRUN <- 0 (10_state.md R43). -/
def State.clearOverrun (s : State) : State := { s with overrun := false }

/-- A host write of `v` to STATUS, in either state: bit 2 set clears OVERRUN, nothing else (10_state.md R43). -/
def State.writeStatus (v : Word) (s : State) : State :=
  if v.getLsbD 2 then s.clearOverrun else s

/-- A write to a configuration register clears CFG_OK (10_state.md R37). -/
def State.clearCfgOk (s : State) : State := { s with cfgOk := false }

/-- A write that arrives while BUSY = 1 is discarded and sets OVERRUN (20_memory.md R87). -/
def State.setOverrun (s : State) : State := { s with overrun := true }

/-- CFG as a host reads it: LAYOUT is bit 0, DIST_MODE bit 1 (10_state.md R33). -/
def State.cfgWord (s : State) : Word := flagBit 0 s.layout ||| flagBit 1 s.distMode

/-- PARAM0 = N | R << 16 | 4 << 24 (10_state.md R44). -/
def param0 (b : Build) : Word :=
  BitVec.ofNat 32 b.n ||| (BitVec.ofNat 32 b.r <<< 16) ||| (4#32 <<< 24)

/-- PARAM1 = CAND_CAP | SI_CAP << 16 (10_state.md R44). -/
def param1 (b : Build) : Word := BitVec.ofNat 32 b.candCap ||| (BitVec.ofNat 32 b.siCap <<< 16)

/-- DEC_INFO: TIER | SYM << 8 | MASK << 16 (10_state.md R48). -/
def packDecInfo (tier sym : Nat) (mask : Pattern) : Word :=
  BitVec.ofNat 32 tier ||| (BitVec.ofNat 32 sym <<< 8) ||| (mask.setWidth 32 <<< 16)

end Sys2Proof.Machine
end

