-- ==== Sys2Proof/Machine/Bits.lean ====
section
/-! DEFINITION. The bit operations of the spec (spec/00_scope.md R12 to R16) and the limbs of a codeword-shaped
register (spec/20_memory.md R72, R76). -/

namespace Sys2Proof.Machine

/-- `v` with every bit at or above position `w` zero: the value of a `w`-bit register (R13; 20_memory.md R76). -/
def lowBits {m : Nat} (w : Nat) (v : BitVec m) : BitVec m := v &&& BitVec.ofNat m (2 ^ w - 1)

/-- `e_j`: the vector with only bit `j` set (R14). -/
def oneBit (j : Nat) : Codeword := 1#256 <<< j

/-- `parity(v)` of a `w`-bit value: the XOR of its bits (R15). -/
def parity {m : Nat} : Nat → BitVec m → Bool
  | 0, _ => false
  | w + 1, v => parity w v ^^ v.getLsbD w

/-- `popcount(v)` of a `w`-bit value: the number of its set bits (R16). -/
def popcount {m : Nat} : Nat → BitVec m → Nat
  | 0, _ => 0
  | w + 1, v => popcount w v + (v.getLsbD w).toNat

/-- The pattern `p` applied to symbol `k`: `zext_N(p) << 4k` (10_state.md R46). -/
def patternAt (p : Pattern) (k : Nat) : Codeword := p.setWidth 256 <<< (4 * k)

/-- Limb `l` of a codeword-shaped value: bits 32l+31..32l (20_memory.md R72). -/
def limb (l : Nat) (v : Codeword) : Word := (v >>> (32 * l)).setWidth 32

/-- The bit positions of limb `l` (20_memory.md R72). -/
def limbField (l : Nat) : Codeword := (BitVec.allOnes 32).setWidth 256 <<< (32 * l)

/-- A host write of `w` to limb `l` of a register of width `width`: the limb's bits below the width take the
data, the others of the limb are zero, the other limbs stay (20_memory.md R76). -/
def setLimb (width l : Nat) (w : Word) (v : Codeword) : Codeword :=
  (v &&& ~~~limbField l) ||| lowBits width (w.setWidth 256 <<< (32 * l))

/-- The value whose limbs are `ws`, limb 0 first (20_memory.md R72; `RDV` of 30_encoding.md R112). -/
def joinLimbs : List Word → Codeword
  | [] => 0
  | w :: ws => w.setWidth 256 ||| (joinLimbs ws <<< 32)

/-- Byte lane `b` of a bus word: bits 8b+7..8b (20_memory.md R73). -/
def lane (b : Nat) (w : Word) : Byte := (w >>> (8 * b)).setWidth 8

end Sys2Proof.Machine
end

