-- ==== Sys2Proof/Machine/Operands.lean ====
section
/-! DEFINITION. The operands of the commands (spec/30_encoding.md R109): the configuration as the pure functions of
the spec read it (spec/00_scope.md R18), messages, the side-information words and the candidates. -/

namespace Sys2Proof.Machine

/-- What a pure function of the spec may read beside its arguments: N, R, ROW, COL and CFG (00_scope.md R18;
10_state.md R35). -/
structure Code where
  n : Nat
  r : Nat
  row : List Codeword
  col : List Syndrome
  layout : Bool
  distMode : Bool
deriving DecidableEq, Repr

/-- The configuration registers of a state. -/
def State.code (s : State) : Code := ⟨s.build.n, s.build.r, s.row, s.col, s.layout, s.distMode⟩

/-- K = N - R (00_scope.md R6). -/
def Code.k (c : Code) : Nat := c.n - c.r

/-- NSYM = N / 4 (00_scope.md R7). -/
def Code.nsym (c : Code) : Nat := c.n / 4

/-- ROW[i]; 0 for an index with no register (10_state.md R31; 20_memory.md R77). -/
def Code.rowAt (c : Code) (i : Nat) : Codeword := c.row.getD i 0

/-- COL[j]; 0 for an index with no register (10_state.md R32; 20_memory.md R77). -/
def Code.colAt (c : Code) (j : Nat) : Syndrome := c.col.getD j 0

/-- `msg(v)` (10_state.md R34): bits N-1..R under LAYOUT = 0, bits K-1..0 under LAYOUT = 1. -/
def Code.msg (c : Code) (v : Codeword) : Codeword :=
  if c.layout then lowBits c.k v else lowBits c.k (v >>> c.r)

/-- The candidates in use, CAND_CW[0..CAND_COUNT-1] (10_state.md R52). -/
def State.candidates (s : State) : List Codeword :=
  (List.range s.candCount.toNat).map fun c => s.candCw.getD c 0

/-- The side-information words in use, SI[0..SI_COUNT-1] (10_state.md R39). -/
def State.siWords (s : State) : List Codeword :=
  (List.range s.siCount.toNat).map fun m => s.si.getD m 0

/-- MAXC > CAND_CAP: ENUM and RUN are then malformed (42_enumerator.md R181; 60_exceptions.md R273). -/
def State.maxcTooLarge (s : State) (maxc : Nat) : Bool := decide (s.build.candCap < maxc)

/-- SI_COUNT > SI_CAP: CHOOSE and RUN are then malformed (43_scorer.md R216; 60_exceptions.md R273). -/
def State.siCountTooLarge (s : State) : Bool := decide (s.build.siCap < s.siCount.toNat)

end Sys2Proof.Machine
end

