-- ==== Sys2Proof/Machine/Ops.lean ====
section
/-! DEFINITION. The shared operations of the commands: acceptance and completion (spec/20_memory.md R88, R89), the error
completion, which is all the "exception" the block has (spec/60_exceptions.md R270, R283, R284), and the write groups of
spec/30_encoding.md R108. -/

namespace Sys2Proof.Machine

/-- The number of bus events the next accepted command waits before it completes: from `delays`, else a free
value (20_memory.md R90; log 5). -/
def State.nextDelay (s : State) : Nat :=
  match s.delays with
  | d :: _ => d
  | [] => Config.completionDelay s.draws

/-- Acceptance of command word `v` (20_memory.md R88): CMD <- v; PENDING <- v; BUSY <- 1. -/
def State.accept (v : Word) (s : State) : State :=
  { s with
    cmd := v
    pending := some v
    delay := s.nextDelay
    delays := s.delays.tail
    draws := s.draws + 1 }

/-- Completion (20_memory.md R89): LAST_OP <- op; RESULT <- code; PENDING <- empty; BUSY <- 0. -/
def State.complete (op : BitVec 4) (code : ResultCode) (s : State) : State :=
  { s with lastOp := op, result := code, pending := none, delay := 0 }

/-- Group Z of 30_encoding.md R108: CAND_COUNT <- 0; BEST <- 0; BEST_SUM <- 0. -/
def State.clearCandidates (s : State) : State :=
  { s with candCount := 0, best := 0, bestSum := 0 }

/-- The ENUM CANDIDATES row of R108: the list into CAND_CW[0..n-1], its scores 0, CAND_COUNT <- n, BEST and BEST_SUM 0;
entries at n and above keep their values (42_enumerator.md R185, R190). -/
def State.storeCandidates (list : List Codeword) (s : State) : State :=
  { s with
    candCw := list ++ s.candCw.drop list.length
    candScore := List.replicate list.length 0 ++ s.candScore.drop list.length
    candCount := BitVec.ofNat 16 list.length
    best := 0
    bestSum := 0 }

/-- COMMIT's write of CFG_OK (44_pipeline_config.md R251). -/
def State.setCfgOk (ok : Bool) (s : State) : State := { s with cfgOk := ok }

/-- A command completes with an error code: the ONE way an error is recorded (60_exceptions.md R270, R277). It saves
no other state, changes no mode and goes nowhere, and there is nothing to return from (R283, R284). -/
def fail (op : BitVec 4) (code : ResultCode) (s : State) : Host.Outcome State Fault Refusal :=
  .next (s.complete op code)

/-- A command completes with a success code. -/
def succeed (op : BitVec 4) (code : ResultCode) (s : State) : Host.Outcome State Fault Refusal :=
  .next (s.complete op code)

/-- The CFG_OK pre-check of every command but COMMIT (60_exceptions.md R272): `body` runs only on a committed
configuration, else the command completes with E_CONFIG and writes nothing else. -/
def withConfig (op : BitVec 4) (s : State) (body : Host.Outcome State Fault Refusal) :
    Host.Outcome State Fault Refusal :=
  if s.cfgOk then body else fail op .eConfig s

/-- An operand check (60_exceptions.md R273): a malformed operand completes the command with E_MALFORMED and writes nothing
else. -/
def unlessMalformed (op : BitVec 4) (malformed : Bool) (s : State)
    (body : Host.Outcome State Fault Refusal) : Host.Outcome State Fault Refusal :=
  if malformed then fail op .eMalformed s else body

end Sys2Proof.Machine
end

