-- ==== Sys2Proof/Machine/Window.lean ====
section
/-! DEFINITION. The register window: the map of spec/10_state.md section 8 and what a host read returns and a host
write does at each offset (spec/20_memory.md sections 2, 3 and 5). -/

namespace Sys2Proof.Machine

/-- What stands at a word offset of the window (10_state.md section 8; 20_memory.md R78). -/
inductive Reg where
  | cmd
  | status
  | param0
  | param1
  | cfg
  | siCount
  | siSel
  | candSel
  | syndrome
  | decInfo
  | candCount
  | best
  | bestSum
  | candScore
  | cw (l : Nat)
  | corrected (l : Nat)
  | msg (l : Nat)
  | siData (l : Nat)
  | candCw (l : Nat)
  | candMsg (l : Nat)
  | col (j : Nat)
  | row (i l : Nat)
  | reserved
deriving DecidableEq, Repr

/-- The register at an aligned offset (10_state.md section 8). -/
def regAt (off : Nat) : Reg :=
  if off = 0x000 then .cmd
  else if off = 0x004 then .status
  else if off = 0x008 then .param0
  else if off = 0x00C then .param1
  else if off = 0x010 then .cfg
  else if off = 0x014 then .siCount
  else if off = 0x018 then .siSel
  else if off = 0x01C then .candSel
  else if off = 0x020 then .syndrome
  else if off = 0x024 then .decInfo
  else if off = 0x028 then .candCount
  else if off = 0x02C then .best
  else if off = 0x030 then .bestSum
  else if off = 0x034 then .candScore
  else if off < 0x040 then .reserved
  else if off < 0x060 then .cw ((off - 0x040) / 4)
  else if off < 0x080 then .corrected ((off - 0x060) / 4)
  else if off < 0x0A0 then .msg ((off - 0x080) / 4)
  else if off < 0x0C0 then .siData ((off - 0x0A0) / 4)
  else if off < 0x0E0 then .candCw ((off - 0x0C0) / 4)
  else if off < 0x100 then .candMsg ((off - 0x0E0) / 4)
  else if off < 0x500 then .col ((off - 0x100) / 4)
  else if off < 0x900 then .row ((off - 0x500) / 32) ((off - 0x500) % 32 / 4)
  else .reserved

/-- Limb `l` of a register of the given width: bits at or above the width read 0 (20_memory.md R76). -/
def readLimb (width l : Nat) (v : Codeword) : Word := limb l (lowBits width v)

/-- The SI word SI_DATA shows, 0 when SI_SEL >= SI_CAP (10_state.md R40). -/
def State.siShown (s : State) : Codeword :=
  if s.siSel.toNat < s.build.siCap then s.si.getD s.siSel.toNat 0 else 0

/-- The candidate the CAND windows show, none when CAND_SEL >= CAND_COUNT (10_state.md R41, R52). -/
def State.candShown (s : State) : Option Nat :=
  if s.candSel.toNat < s.candCount.toNat then some s.candSel.toNat else none

/-- What CAND_CW shows (R52). -/
def State.candCwShown (s : State) : Codeword :=
  match s.candShown with
  | some c => s.candCw.getD c 0
  | none => 0

/-- What CAND_MSG shows: the message of the shown candidate under the current LAYOUT (R52). -/
def State.candMsgShown (s : State) : Codeword :=
  match s.candShown with
  | some c => s.code.msg (s.candCw.getD c 0)
  | none => 0

/-- What CAND_SCORE shows (R52, R53). -/
def State.candScoreShown (s : State) : Word :=
  match s.candShown with
  | some c => s.candScore.getD c 0
  | none => 0

/-- The data of a host read, busy or idle (10_state.md section 8; 20_memory.md R76, R77, R80, R91). A read of CMD returns the last
command word accepted, the pending one while busy (10_state.md R42). DEDUCED (log 27): R42 is the rule for CMD, and R91 for every
register a completion writes. Unsafe for a claim about a read of CMD while busy. -/
def State.readReg (s : State) : Reg → Word
  | .cmd => s.cmd
  | .status => s.statusWord
  | .param0 => param0 s.build
  | .param1 => param1 s.build
  | .cfg => s.cfgWord
  | .siCount => s.siCount.setWidth 32
  | .siSel => s.siSel.setWidth 32
  | .candSel => s.candSel.setWidth 32
  | .syndrome => lowBits s.build.r s.syndrome
  | .decInfo => s.decInfo
  | .candCount => s.candCount.setWidth 32
  | .best => s.best.setWidth 32
  | .bestSum => s.bestSum
  | .candScore => s.candScoreShown
  | .cw l => readLimb s.build.n l s.cw
  | .corrected l => readLimb s.build.n l s.corrected
  | .msg l => readLimb s.build.k l s.msg
  | .siData l => readLimb s.build.n l s.siShown
  | .candCw l => readLimb s.build.n l s.candCwShown
  | .candMsg l => readLimb s.build.k l s.candMsgShown
  | .col j => if j < s.build.n then lowBits s.build.r (s.col.getD j 0) else 0
  | .row i l => if i < s.build.r then readLimb s.build.n l (s.row.getD i 0) else 0
  | .reserved => 0

/-- CFG takes LAYOUT from bit 0 and DIST_MODE from bit 1, and CFG_OK is cleared (10_state.md R33, R37). -/
def State.writeCfg (v : Word) (s : State) : State :=
  { s with layout := v.getLsbD 0, distMode := v.getLsbD 1, cfgOk := false }

/-- SI_COUNT keeps bits 7:0 (10_state.md R39). -/
def State.writeSiCount (v : Word) (s : State) : State := { s with siCount := v.setWidth 8 }

/-- SI_SEL keeps bits 7:0 (10_state.md R40). -/
def State.writeSiSel (v : Word) (s : State) : State := { s with siSel := v.setWidth 8 }

/-- CAND_SEL keeps bits 15:0 (10_state.md R41). -/
def State.writeCandSel (v : Word) (s : State) : State := { s with candSel := v.setWidth 16 }

/-- A limb of CW (10_state.md R38; 20_memory.md R76). -/
def State.writeCw (l : Nat) (v : Word) (s : State) : State := { s with cw := setLimb s.build.n l v s.cw }

/-- COL[j] keeps its low R bits, and CFG_OK is cleared (10_state.md R32, R37; 20_memory.md R76). -/
def State.storeCol (j : Nat) (v : Word) (s : State) : State :=
  { s with col := s.col.set j (lowBits s.build.r v), cfgOk := false }

/-- A limb of ROW[i], and CFG_OK is cleared (10_state.md R31, R37; 20_memory.md R76). -/
def State.storeRow (i l : Nat) (v : Word) (s : State) : State :=
  { s with row := s.row.set i (setLimb s.build.n l v (s.row.getD i 0)), cfgOk := false }

/-- A limb of SI[m] (10_state.md R39, R40; 20_memory.md R76). -/
def State.storeSi (m l : Nat) (v : Word) (s : State) : State :=
  { s with si := s.si.set m (setLimb s.build.n l v (s.si.getD m 0)) }

/-- A write to COL[j]: stored below N (R-bit), discarded at or above it, and CFG_OK cleared either way (10_state.md R32,
R37; 20_memory.md R77). -/
def State.writeCol (j : Nat) (v : Word) (s : State) : State :=
  if j < s.build.n then s.storeCol j v else s.clearCfgOk

/-- A write to limb l of ROW[i]: stored below R, discarded at or above it, and CFG_OK cleared either way (10_state.md R31,
R37; 20_memory.md R77). -/
def State.writeRow (i l : Nat) (v : Word) (s : State) : State :=
  if i < s.build.r then s.storeRow i l v else s.clearCfgOk

/-- A write to limb l of the SI word SI_SEL selects, discarded when SI_SEL >= SI_CAP (10_state.md R40). -/
def State.writeSiData (l : Nat) (v : Word) (s : State) : State :=
  if s.siSel.toNat < s.build.siCap then s.storeSi s.siSel.toNat l v else s

/-- A host write that is not discarded for BUSY (20_memory.md R81, R87): the store and its side effect. Writes to
read-only registers and reserved offsets are discarded (R77, R79). -/
def State.writeReg (v : Word) (s : State) : Reg → State
  | .cmd => s.accept v
  | .status => s.writeStatus v
  | .param0 => s
  | .param1 => s
  | .cfg => s.writeCfg v
  | .siCount => s.writeSiCount v
  | .siSel => s.writeSiSel v
  | .candSel => s.writeCandSel v
  | .syndrome => s
  | .decInfo => s
  | .candCount => s
  | .best => s
  | .bestSum => s
  | .candScore => s
  | .cw l => s.writeCw l v
  | .corrected _ => s
  | .msg _ => s
  | .siData l => s.writeSiData l v
  | .candCw _ => s
  | .candMsg _ => s
  | .col j => s.writeCol j v
  | .row i l => s.writeRow i l v
  | .reserved => s

/-- MemRead(off, 4) at an aligned offset (20_memory.md R80, R91). -/
def State.readWindow (s : State) (off : Nat) : Word := s.readReg (regAt off)

/-- MemWrite(off, 4, v) at an aligned offset: STATUS in either state, else discarded with OVERRUN while busy
(20_memory.md R87). -/
def State.writeWindow (off : Nat) (v : Word) (s : State) : State :=
  if off = 0x004 then s.writeStatus v
  else if s.busy then s.setOverrun
  else s.writeReg v (regAt off)

end Sys2Proof.Machine
end

