-- ==== Sys2Proof/Machine/Bus.lean ====
section
/-! DEFINITION. The delivery of one bus or reset event to the block (spec/20_memory.md sections 3 and 5,
spec/70_reset_and_hazards.md section 1). -/

namespace Sys2Proof.Machine

/-- The answer the bus gives an access. -/
def State.respond (r : BusResponse) (s : State) : State := { s with response := r }

/-- The byte address lies in the window, ENGINE_BASE to ENGINE_BASE + 0xFFF (20_memory.md R71). -/
def State.inWindow (s : State) (addr : Nat) : Bool :=
  decide (s.build.base ≤ addr) && decide (addr < s.build.base + Config.windowBytes)

/-- One aligned 32-bit access with all four lanes (20_memory.md R74); anything else is a BusError (R75). -/
def Access.wholeWord (off : Nat) (a : Access) : Bool :=
  decide (off % 4 = 0) && decide (a.width = 32) && decide (a.lanes = 0xF)

/-- An access of the accepted shape: a read returns the register, a write is performed or discarded (20_memory.md R80,
R87). -/
def State.perform (off : Nat) (kind : AccessKind) (s : State) : State :=
  match kind with
  | .read => s.respond (.data (s.readWindow off))
  | .write v => (s.writeWindow off v).respond .accepted

/-- A host access inside the window, at its offset: ignored while reset is asserted (70_reset_and_hazards.md R300), a BusError
with no state change when it is not a whole aligned word, which is checked before every other rule (20_memory.md R75). -/
def State.access (off : Nat) (a : Access) (s : State) : State :=
  if s.inReset then s.respond .ignored
  else if a.wholeWord off then s.perform off a.kind
  else s.respond (.busError off)

/-- POLL stays first in line (log 13). -/
def State.keepPolling (s : State) : State := { s with inbox := .poll :: s.inbox }

/-- One read of POLL (30_encoding.md R111): it stays first in the inbox until it reads BUSY = 0. While reset is asserted
its read is ignored and the poll ends (log 13). -/
def State.pollOnce (s : State) : State :=
  if s.inReset then s.respond .ignored
  else if s.busy then s.keepPolling.respond (.data s.statusWord)
  else s.respond (.data s.statusWord)

/-- Reset is asserted: the pending command is abandoned (70_reset_and_hazards.md R300, R304). -/
def State.assertReset (s : State) : State := { s with inReset := true, pending := none, delay := 0 }

/-- Reset ends: every register at its R301 value, the unspecified arrays at free values of their widths (R302; log 12).
The waiting events and delays are the outside world's and stay. -/
def State.afterReset (s : State) : State :=
  { State.fresh s.build
      ((List.range s.build.r).map fun i => lowBits s.build.n (Config.resetRow s.draws i))
      ((List.range s.build.n).map fun j => lowBits s.build.r (Config.resetCol s.draws j))
      ((List.range s.build.siCap).map fun m => lowBits s.build.n (Config.resetSi s.draws m))
      ((List.range s.build.candCap).map fun c => lowBits s.build.n (Config.resetCandCw s.draws c))
      ((List.range s.build.candCap).map fun c => Config.resetCandScore s.draws c) with
    inbox := s.inbox
    delays := s.delays
    draws := s.draws + 1 }

/-- The platform releases reset; a release with no reset asserted does nothing (70_reset_and_hazards.md R300). -/
def State.releaseReset (s : State) : State := if s.inReset then s.afterReset else s

/-- One event off the bus. An access outside the window never reaches the block (20_memory.md R71; log 10). -/
def deliver (e : BusEvent) (s : State) : Host.Outcome State Fault Refusal :=
  match e with
  | .access a =>
    if s.inWindow a.addr then .next (s.access (a.addr - s.build.base) a)
    else .fault (.outsideWindow a.addr)
  | .poll => .next s.pollOnce
  | .resetAssert => .next s.assertReset
  | .resetRelease => .next s.releaseReset

/-- The first waiting event leaves the inbox, and a pending command has waited one event more (20_memory.md R90). -/
def State.takeEvent (rest : List BusEvent) (s : State) : State := { s with inbox := rest, delay := s.delay - 1 }

/-- The first waiting event is delivered, and a pending command has waited one event more (20_memory.md R85, R90). With
no event waiting the block does nothing (60_exceptions.md R291; log 11). -/
def hostTurn (s : State) : Host.Outcome State Fault Refusal :=
  match s.inbox with
  | [] => .next s
  | e :: rest => deliver e (s.takeEvent rest)

end Sys2Proof.Machine
end

