-- ==== Sys2Proof/Machine/Syndrome.lean ====
section
/-! DEFINITION. The syndrome function and SYN (spec/40_syndrome.md). -/

namespace Sys2Proof.Machine

/-- `syn(v)` (40_syndrome.md R130): for each row i, bit R-1-i is the parity of ROW[i] & v. -/
def Code.syn (c : Code) (v : Codeword) : Syndrome :=
  (List.range c.r).foldl
    (fun s i => if parity c.n (c.rowAt i &&& v) then s ||| (1#32 <<< (c.r - 1 - i)) else s) 0

/-- SYNDROME <- syn(CW) (40_syndrome.md R135). -/
def State.writeSyndrome (s : State) : State := { s with syndrome := s.code.syn s.cw }

/-- SYN (40_syndrome.md R135). -/
def execSyn (s : State) : Host.Outcome State Fault Refusal :=
  withConfig 0x1 s (succeed 0x1 .ok s.writeSyndrome)

end Sys2Proof.Machine
end

