-- ==== Sys2Proof/Machine/Commit.lean ====
section
/-! DEFINITION. The configuration check and COMMIT (spec/44_pipeline_config.md section 2). -/

namespace Sys2Proof.Machine

/-- The checks of one column (44_pipeline_config.md R250): COL[j] = syn(e_j), and COL[j] != 0 (R254). -/
def Code.columnOk (c : Code) (j : Nat) : Bool :=
  decide (c.colAt j = c.syn (oneBit j)) && decide (c.colAt j ≠ 0)

/-- Column j differs from every later column (R250). -/
def Code.columnDistinct (c : Code) (j : Nat) : Bool :=
  (List.range c.n).all fun j' => decide (j < j' → c.colAt j ≠ c.colAt j')

/-- `commit_ok()` (R250). -/
def Code.commitOk (c : Code) : Bool :=
  ((List.range c.n).all fun j => c.columnOk j) && ((List.range c.n).all fun j => c.columnDistinct j)

/-- COMMIT (44_pipeline_config.md R252): it has no CFG_OK pre-check, and always clears the candidates (R253). -/
def execCommit (s : State) : Host.Outcome State Fault Refusal :=
  if s.code.commitOk then succeed 0x6 .ok (s.clearCandidates.setCfgOk true)
  else fail 0x6 .eConfig (s.clearCandidates.setCfgOk false)

end Sys2Proof.Machine
end

