-- ==== Sys2Proof/Machine/Decoder.lean ====
section
/-! DEFINITION. The tiered symbol decoder and DECODE (spec/41_decoder.md). -/

namespace Sys2Proof.Machine

/-- The outcomes of a decode (41_decoder.md R150). -/
inductive DecodeOutcome where
  | noError
  | corrected
  | due
deriving DecidableEq, Repr

/-- The record `decode` returns (R150). -/
structure DecodeResult where
  outcome : DecodeOutcome
  cw : Codeword
  tier : Nat
  sym : Nat
  mask : Pattern
deriving DecidableEq, Repr

/-- One error pattern the decoder tries: the bits `mask` of symbol `sym`, in tier `tier`. -/
structure Trial where
  tier : Nat
  sym : Nat
  mask : Pattern
deriving DecidableEq, Repr

/-- The mask of a set of intra-symbol positions: bit a set for each position a (R154, R155). -/
def maskOf (positions : List Nat) : Pattern :=
  positions.foldl (fun m a => m ||| (1#4 <<< a)) 0

/-- T3 of R150: a < b < c, in nested-loop order (R154). -/
def tier3Positions : List (List Nat) := [[0, 1, 2], [0, 1, 3], [0, 2, 3], [1, 2, 3]]

/-- T4 of R150: a < b, in nested-loop order (R155). -/
def tier4Positions : List (List Nat) := [[0, 1], [0, 2], [0, 3], [1, 2], [1, 3], [2, 3]]

/-- Tier 1: bit j for j = 0..N-1 (R152). -/
def tier1 (n : Nat) : List Trial :=
  (List.range n).map fun j => ⟨1, j / 4, 1#4 <<< (j % 4)⟩

/-- Tier 2: the whole of symbol k for k = 0..NSYM-1 (R153). -/
def tier2 (nsym : Nat) : List Trial :=
  (List.range nsym).map fun k => ⟨2, k, 0xF⟩

/-- Tiers 3 and 4: every combination of symbol k before any of symbol k+1 (R154, R155). -/
def tierCombinations (tier : Nat) (positions : List (List Nat)) (nsym : Nat) : List Trial :=
  (List.range nsym).flatMap fun k => positions.map fun ps => ⟨tier, k, maskOf ps⟩

/-- Every pattern the decoder tries, in the order of R150 and R158: tiers 1, 2, 3, 4 (R159). -/
def Code.trials (c : Code) : List Trial :=
  tier1 c.n ++ tier2 c.nsym ++ tierCombinations 3 tier3Positions c.nsym ++
  tierCombinations 4 tier4Positions c.nsym

/-- COL[4k+b], or 0 where bit b is not in the mask. -/
def Code.maskedCol (c : Code) (k : Nat) (mask : Pattern) (b : Nat) : Syndrome :=
  if mask.getLsbD b then c.colAt (4 * k + b) else 0

/-- The XOR of COL[4k+b] over the set bits b of the mask (R150). -/
def Code.colSum (c : Code) (k : Nat) (mask : Pattern) : Syndrome :=
  c.maskedCol k mask 0 ^^^ c.maskedCol k mask 1 ^^^ c.maskedCol k mask 2 ^^^ c.maskedCol k mask 3

/-- `decode(v, s)` (R150): NO_ERROR for a zero syndrome (R151), else the first pattern whose columns sum to the
syndrome (R152 to R155, R158), else DUE (R156). -/
def Code.decode (c : Code) (v : Codeword) (s : Syndrome) : DecodeResult :=
  if s = 0 then ⟨.noError, v, 0, 0, 0⟩
  else
    match c.trials.find? fun t => c.colSum t.sym t.mask == s with
    | some t => ⟨.corrected, v ^^^ patternAt t.mask t.sym, t.tier, t.sym, t.mask⟩
    | none => ⟨.due, v, 0, 0, 0⟩

/-- `decode(v, syn(v))`: the block always passes the computed syndrome (R160). -/
def Code.decodeWord (c : Code) (v : Codeword) : DecodeResult := c.decode v (c.syn v)

/-- Group D of 30_encoding.md R108: SYNDROME, DEC_INFO, CORRECTED, and MSG (0 on DUE) of a decode of CW. -/
def State.writeDecode (dec : DecodeResult) (s : State) : State :=
  { s with
    syndrome := s.code.syn s.cw
    decInfo := packDecInfo dec.tier dec.sym dec.mask
    corrected := dec.cw
    msg := if dec.outcome = .due then 0 else s.code.msg dec.cw }

/-- The result code of a decode outcome (R160). -/
def DecodeOutcome.code : DecodeOutcome → ResultCode
  | .noError => .noError
  | .corrected => .corrected
  | .due => .due

/-- DECODE (41_decoder.md R160). -/
def execDecode (s : State) : Host.Outcome State Fault Refusal :=
  withConfig 0x2 s (succeed 0x2 (s.code.decodeWord s.cw).outcome.code
    (s.writeDecode (s.code.decodeWord s.cw)))

end Sys2Proof.Machine
end

