-- ==== Sys2Proof/Machine/Enumerator.lean ====
section
/-! DEFINITION. The DUE candidate enumerator and ENUM (spec/42_enumerator.md). -/

namespace Sys2Proof.Machine

/-- What `enumerate` returns (42_enumerator.md R180). -/
inductive Enumeration where
  /-- E_CAPACITY: a new distinct candidate beyond the bound; the partial list is discarded (R188). -/
  | capacity
  /-- E_UNRECOVERABLE_DUE: no candidate at all (R189). -/
  | unrecoverable
  /-- CANDIDATES: the distinct corrected codewords in first-found order. -/
  | candidates (list : List Codeword)
deriving DecidableEq, Repr

/-- The trial strings in order: symbol k ascending, then pattern p = 0..15 ascending, each v XOR one pattern
(R183, R184). -/
def Code.trialStrings (c : Code) (v : Codeword) : List Codeword :=
  (List.range c.nsym).flatMap fun k =>
    (List.range 16).map fun p => v ^^^ patternAt (BitVec.ofNat 4 p) k

/-- The corrected codeword of a trial string whose inner decode is CORRECTED (R186). -/
def Code.candidateOf (c : Code) (t : Codeword) : Option Codeword :=
  if (c.decodeWord t).outcome = .corrected then some (c.decodeWord t).cw else none

/-- The sweep over trial strings with the list found so far: a new codeword is appended, a duplicate is skipped
(R187), and a new one beyond `maxc` ends the sweep with nothing (R188). -/
def Code.sweep (c : Code) (maxc : Nat) : List Codeword → List Codeword → Option (List Codeword)
  | [], list => some list
  | t :: ts, list =>
    match c.candidateOf t with
    | none => c.sweep maxc ts list
    | some x =>
      if x ∈ list then c.sweep maxc ts list
      else if list.length = maxc then none
      else c.sweep maxc ts (list ++ [x])

/-- `enumerate(v, maxc)` (R180). -/
def Code.enumerate (c : Code) (v : Codeword) (maxc : Nat) : Enumeration :=
  match c.sweep maxc (c.trialStrings v) [] with
  | none => .capacity
  | some [] => .unrecoverable
  | some (x :: xs) => .candidates (x :: xs)

/-- ENUM maxc (42_enumerator.md R185). -/
def execEnum (maxc : Nat) (s : State) : Host.Outcome State Fault Refusal :=
  withConfig 0x3 s <| unlessMalformed 0x3 (s.maxcTooLarge maxc) s <|
    if (s.code.decodeWord s.cw).outcome = .due then
      match s.code.enumerate s.cw maxc with
      | .capacity => fail 0x3 .eCapacity (s.writeDecode (s.code.decodeWord s.cw)).clearCandidates
      | .unrecoverable => fail 0x3 .eUnrecoverableDue (s.writeDecode (s.code.decodeWord s.cw)).clearCandidates
      | .candidates list =>
        succeed 0x3 .candidates ((s.writeDecode (s.code.decodeWord s.cw)).storeCandidates list)
    else fail 0x3 .eNotDue (s.writeDecode (s.code.decodeWord s.cw)).clearCandidates

end Sys2Proof.Machine
end

