-- ==== Sys2Proof/Machine/Scorer.lean ====
section
/-! DEFINITION. The Hamming distance scorer and CHOOSE (spec/43_scorer.md). -/

namespace Sys2Proof.Machine

/-- `dist(x, w)` (43_scorer.md R210): of the messages under DIST_MODE = 0, of the codewords under DIST_MODE = 1. -/
def Code.dist (c : Code) (x w : Codeword) : Nat :=
  if c.distMode then popcount c.n (x ^^^ w) else popcount c.k (c.msg x ^^^ c.msg w)

/-- `score` of a candidate: the sum of its distances to the side-information words in use (R211). -/
def Code.score (c : Code) (sis : List Codeword) (x : Codeword) : Nat :=
  (sis.map (c.dist x)).sum

/-- The scan of R213 from index `i` with the best index and its score so far: a strictly smaller score takes over,
so the earliest minimum wins. -/
def bestScan : List Nat → Nat → Nat → Nat → Nat
  | [], _, best, _ => best
  | sc :: rest, i, best, bestScore =>
    if sc < bestScore then bestScan rest (i + 1) i sc else bestScan rest (i + 1) best bestScore

/-- The index of the earliest minimum of a list of scores, 0 for the empty list (R213). -/
def bestIndex : List Nat → Nat
  | [] => 0
  | sc :: rest => bestScan rest 1 0 sc

/-- What `choose` returns (R217). -/
structure Choice where
  best : Nat
  scores : List Nat
deriving DecidableEq, Repr

/-- `choose(n)` over the candidates and the side-information words in use (R217): with one candidate or no
side information the first candidate and zero scores (R214). -/
def Code.choose (c : Code) (cands sis : List Codeword) : Choice :=
  if cands.length = 1 ∨ sis.length = 0 then ⟨0, List.replicate cands.length 0⟩
  else ⟨bestIndex (cands.map (c.score sis)), cands.map (c.score sis)⟩

/-- The CHOOSE CHOSEN row of 30_encoding.md R108: the scores, BEST, BEST_SUM, and the chosen candidate into CORRECTED and
MSG. -/
def State.writeChoice (r : Choice) (s : State) : State :=
  { s with
    candScore := r.scores.map (BitVec.ofNat 32) ++ s.candScore.drop r.scores.length
    best := BitVec.ofNat 16 r.best
    bestSum := BitVec.ofNat 32 (r.scores.getD r.best 0)
    corrected := s.candCw.getD r.best 0
    msg := s.code.msg (s.candCw.getD r.best 0) }

/-- CHOOSE (43_scorer.md R220): an empty candidate buffer is E_AMBIGUOUS (R215). -/
def execChoose (s : State) : Host.Outcome State Fault Refusal :=
  withConfig 0x4 s <| unlessMalformed 0x4 s.siCountTooLarge s <|
    if s.candCount = 0 then fail 0x4 .eAmbiguous s
    else succeed 0x4 .chosen (s.writeChoice (s.code.choose s.candidates s.siWords))

end Sys2Proof.Machine
end

