-- ==== Sys2Proof/Machine/Pipeline.lean ====
section
/-! DEFINITION. The full pipeline, RUN (spec/44_pipeline_config.md section 1). -/

namespace Sys2Proof.Machine

/-- RUN's last part on a filled candidate buffer: choose, then the CHOSEN writes (44_pipeline_config.md R240). -/
def State.resolveDue (s : State) : State :=
  s.writeChoice (s.code.choose s.candidates s.siWords)

/-- RUN maxc (44_pipeline_config.md R240): both operand checks come first (R243). -/
def execRun (maxc : Nat) (s : State) : Host.Outcome State Fault Refusal :=
  withConfig 0x5 s <| unlessMalformed 0x5 (s.maxcTooLarge maxc) s <|
    unlessMalformed 0x5 s.siCountTooLarge s <|
      match (s.code.decodeWord s.cw).outcome with
      | .noError => succeed 0x5 .noError (s.writeDecode (s.code.decodeWord s.cw)).clearCandidates
      | .corrected => succeed 0x5 .corrected (s.writeDecode (s.code.decodeWord s.cw)).clearCandidates
      | .due =>
        match s.code.enumerate s.cw maxc with
        | .capacity => fail 0x5 .eCapacity (s.writeDecode (s.code.decodeWord s.cw)).clearCandidates
        | .unrecoverable =>
          fail 0x5 .eUnrecoverableDue (s.writeDecode (s.code.decodeWord s.cw)).clearCandidates
        | .candidates list =>
          succeed 0x5 .dueResolved
            ((s.writeDecode (s.code.decodeWord s.cw)).storeCandidates list).resolveDue

end Sys2Proof.Machine
end

