-- ==== Sys2Proof/Machine/Dispatch.lean ====
section
/-! DEFINITION. exec: each command's meaning, at its completion (spec/20_memory.md R89). -/

namespace Sys2Proof.Machine

def exec (i : Instr) (s : State) : Host.Outcome State Fault Refusal :=
  match i with
  | .syn => Sys2Proof.Machine.execSyn s
  | .decode => Sys2Proof.Machine.execDecode s
  | .enum maxc => Sys2Proof.Machine.execEnum maxc s
  | .choose => Sys2Proof.Machine.execChoose s
  | .run maxc => Sys2Proof.Machine.execRun maxc s
  | .commit => Sys2Proof.Machine.execCommit s

end Sys2Proof.Machine
end

