-- ==== Sys2Proof/Machine/Engine.lean ====
section
/-! DEFINITION. The engine's turn: the fetch of the pending command and its completion (spec/20_memory.md R89, R90). -/

namespace Sys2Proof.Machine

/-- Whether the engine moves next: a command is pending, reset is not asserted, and the command has waited its delay or
no bus event is left to wait for (20_memory.md R90; log 5, log 6). -/
def State.engineTurn (s : State) : Bool :=
  s.busy && !s.inReset && (decide (s.delay = 0) || s.inbox.isEmpty)

/-- Completion of an illegal word (60_exceptions.md R271): LAST_OP takes the raw OP field, nothing else is written. -/
def completeIllegal (w : Word) (s : State) : Host.Outcome State Fault Refusal :=
  fail (cmdOp w) .eIllegalOp s

/-- Completion of a command word: the decoded command's meaning, or E_ILLEGAL_OP (20_memory.md R89; 30_encoding.md R105). -/
def completeWord (w : Word) (s : State) : Host.Outcome State Fault Refusal :=
  match decodeCmd w with
  | .ok i => exec i s
  | .error _ => completeIllegal w s

/-- Completion of the pending command. -/
def completePending (s : State) : Host.Outcome State Fault Refusal :=
  match s.pending with
  | some w => completeWord w s
  | none => .next s

/-- The state in which the command word `w` is pending and the engine moves next: acceptance (20_memory.md R88) with no
delay and no reset asserted (log 7). -/
def State.withPending (w : Word) (s : State) : State :=
  { s with cmd := w, pending := some w, delay := 0, inReset := false }

end Sys2Proof.Machine
end

