-- ==== Sys2Proof/Machine/Step.lean ====
section
/-! DEFINITION. One step of the machine: the engine's completion or the delivery of one bus event (spec/10_state.md R30,
spec/20_memory.md R85, R89, R90). -/

namespace Sys2Proof.Machine

/-- One step: whoever moves next (log 5, log 6). -/
def step (s : State) : Host.Outcome State Fault Refusal :=
  if s.engineTurn then completePending s else hostTurn s

/-- `s` with the command word pending, so that the very next step completes it (log 7). The block fetches nothing; PENDING
is where the engine takes its command from (10_state.md R55). -/
def State.withFetchWord (s : State) (nbits w : Nat) : State :=
  s.withPending (BitVec.ofNat 32 (w % 2 ^ nbits))

end Sys2Proof.Machine
end

