-- ==== Sys2Proof/Machine/HostProgram.lean ====
section
/-! DEFINITION. Host programs as lists of bus events: the primitives WR, RD and POLL and the pseudo-instructions (spec/30_encoding.md
R111, R112). The texts of names and comments are not modelled (log 24). -/

namespace Sys2Proof.Machine

/-- `WR off, v`: MemWrite(off, 4, v) (R111). -/
def wr (b : Build) (off : Nat) (v : Word) : BusEvent := .access ⟨b.base + off, 32, 0xF, .write v⟩

/-- `RD off`: MemRead(off, 4) (R111). -/
def rd (b : Build) (off : Nat) : BusEvent := .access ⟨b.base + off, 32, 0xF, .read⟩

/-- `ISSUE cmd` (R112). -/
def issue (b : Build) (i : Instr) : List BusEvent := [wr b 0x000 (encode i), .poll]

/-- `WRV base, v`: the limbs in use, ascending (R112). -/
def wrv (b : Build) (base : Nat) (v : Codeword) : List BusEvent :=
  (List.range b.limbsInUse).map fun l => wr b (base + 4 * l) (limb l v)

/-- `RDV base`: the limbs in use, ascending; their values join by `joinLimbs` (R112). -/
def rdv (b : Build) (base : Nat) : List BusEvent :=
  (List.range b.limbsInUse).map fun l => rd b (base + 4 * l)

/-- `WRCW v` (R112). -/
def wrcw (b : Build) (v : Codeword) : List BusEvent := wrv b 0x040 v

/-- `WRSI m, v` (R112). -/
def wrsi (b : Build) (m : Nat) (v : Codeword) : List BusEvent :=
  wr b 0x018 (BitVec.ofNat 32 m) :: wrv b 0x0A0 v

/-- `WRCOL j, v` (R112). -/
def wrcol (b : Build) (j : Nat) (v : Syndrome) : List BusEvent := [wr b (0x100 + 4 * j) v]

/-- `WRROW i, v` (R112). -/
def wrrow (b : Build) (i : Nat) (v : Codeword) : List BusEvent := wrv b (0x500 + 32 * i) v

/-- `CONFIG layout, dist, COL, ROW` (R112). -/
def config (b : Build) (layout dist : Bool) (col : List Syndrome) (row : List Codeword) : List BusEvent :=
  wr b 0x010 (flagBit 0 layout ||| flagBit 1 dist) ::
  ((List.range b.n).flatMap fun j => wrcol b j (col.getD j 0)) ++
  ((List.range b.r).flatMap fun i => wrrow b i (row.getD i 0)) ++
  issue b .commit

/-- `RDCAND c` (R112). -/
def rdcand (b : Build) (c : Nat) : List BusEvent :=
  wr b 0x01C (BitVec.ofNat 32 c) :: (rdv b 0x0C0 ++ rdv b 0x0E0 ++ [rd b 0x034])

end Sys2Proof.Machine
end

