-- ==== Sys2Proof/Safety.lean ====
section
/-! DEFINITION. The terms claims are stated in: legal states, committed configurations, the order of the decoder's search, the
trials of the enumerator and runs that cannot fault (spec/00_scope.md R13, spec/44_pipeline_config.md R250, spec/41_decoder.md R158,
spec/42_enumerator.md R180, spec/20_memory.md R71). -/

namespace Sys2Proof.Machine

/-- A value of a `w`-bit register has no bit set at or above `w` (00_scope.md R13). -/
abbrev fits {m : Nat} (w : Nat) (v : BitVec m) : Prop := lowBits w v = v

/-- Every register has its width and every array its size (00_scope.md R5 to R9, R13; 10_state.md). -/
structure State.Widths (s : State) : Prop where
  build : s.build.wellFormed = true
  rowSize : s.row.length = s.build.r
  rowFits : ∀ x ∈ s.row, fits s.build.n x
  colSize : s.col.length = s.build.n
  colFits : ∀ x ∈ s.col, fits s.build.r x
  cwFits : fits s.build.n s.cw
  siSize : s.si.length = s.build.siCap
  siFits : ∀ x ∈ s.si, fits s.build.n x
  syndromeFits : fits s.build.r s.syndrome
  correctedFits : fits s.build.n s.corrected
  msgFits : fits s.build.k s.msg
  candCwSize : s.candCw.length = s.build.candCap
  candCwFits : ∀ x ∈ s.candCw, fits s.build.n x
  candScoreSize : s.candScore.length = s.build.candCap

/-- The command handshake (10_state.md R42, R55): CMD is the pending command (20_memory.md R88), an idle block
waits for nothing, and a block in reset has no command. -/
structure State.Protocol (s : State) : Prop where
  cmdIsPending : ∀ w, s.pending = some w → s.cmd = w
  idleDelay : s.pending = none → s.delay = 0
  resetIdle : s.inReset = true → s.pending = none

/-- DEC_INFO describes a correction the decoder can make, or none (10_state.md R48). -/
def State.DecInfoLegal (s : State) : Prop :=
  ∃ tier sym mask, s.decInfo = packDecInfo tier sym mask ∧ tier ≤ 4 ∧ sym < s.build.nsym ∧
    (tier = 0 → sym = 0 ∧ mask = 0)

/-- CAND_COUNT is within the buffer, BEST is an entry in use (or 0) and DEC_INFO is legal (10_state.md R48, R52, R54). -/
structure State.ResultsLegal (s : State) : Prop where
  count : s.candCount.toNat ≤ s.build.candCap
  best : s.best.toNat < max 1 s.candCount.toNat
  decInfo : s.DecInfoLegal

/-- A configuration of legal size that passes the COMMIT check (44_pipeline_config.md R250). -/
structure Code.Committed (c : Code) : Prop where
  size : c.n ≤ 256
  symbols : c.n % 4 = 0
  rows : c.r ≤ 32
  check : c.commitOk = true

/-- While CFG_OK = 1 the configuration passes the check (10_state.md R36), and the candidates in use are distinct
codewords of it (42_enumerator.md R193). -/
structure State.CommittedState (s : State) : Prop where
  check : s.cfgOk = true → s.code.commitOk = true
  codewords : s.cfgOk = true → ∀ x ∈ s.candidates, s.code.syn x = 0
  distinct : s.cfgOk = true → s.candidates.Nodup

/-- The masks of a tier, in the order the tier tries them within a symbol (41_decoder.md R152 to R155). -/
def tierMasks : Nat → List Pattern
  | 1 => [0x1, 0x2, 0x4, 0x8]
  | 2 => [0xF]
  | 3 => [0x7, 0xB, 0xD, 0xE]
  | 4 => [0x3, 0x5, 0x9, 0x6, 0xA, 0xC]
  | _ => []

/-- The XOR of COL[4k+b] over the set bits b of a pattern, as a sum over positions (41_decoder.md R150; 40_syndrome.md R133). -/
def Code.columnsOf (c : Code) (k : Nat) (p : Pattern) : Syndrome :=
  ((List.range 4).filter fun b => p.getLsbD b).foldl (fun x b => x ^^^ c.col.getD (4 * k + b) 0) 0

/-- Pattern `p` of symbol `k`, tried in `tier`, explains the syndrome `syn` (41_decoder.md R150). -/
def Code.Explains (c : Code) (syn : Syndrome) (tier k : Nat) (p : Pattern) : Prop :=
  k < c.n / 4 ∧ p ∈ tierMasks tier ∧ c.columnsOf k p = syn

/-- The order of the search: by tier, then by symbol, then by place in the tier (41_decoder.md R150, R158). -/
def triedBefore (tier k : Nat) (p : Pattern) (tier' k' : Nat) (p' : Pattern) : Prop :=
  tier < tier' ∨ tier = tier' ∧
    (k < k' ∨ k = k' ∧ (tierMasks tier).idxOf p < (tierMasks tier).idxOf p')

/-- The trial of pattern number `p` in symbol `k` corrects to `x` (42_enumerator.md R180, R186). -/
def Code.Yields (c : Code) (v : Codeword) (k p : Nat) (x : Codeword) : Prop :=
  k < c.n / 4 ∧ p < 16 ∧
    (c.decodeWord (v ^^^ patternAt (BitVec.ofNat 4 p) k)).outcome = .corrected ∧
    (c.decodeWord (v ^^^ patternAt (BitVec.ofNat 4 p) k)).cw = x

/-- Where bit 0 of the message stands in a codeword (10_state.md R34). -/
def Code.msgOffset (c : Code) : Nat := if c.layout then 0 else c.r

/-- A command pending, the engine to move next (20_memory.md R89, R90). -/
abbrev State.completesNow (s : State) (w : Word) : Prop :=
  s.pending = some w ∧ s.inReset = false ∧ (s.delay = 0 ∨ s.inbox = [])

/-- The bus to move next, with event `e` first in line. -/
abbrev State.deliversNow (s : State) (e : BusEvent) (rest : List BusEvent) : Prop :=
  s.engineTurn = false ∧ s.inbox = e :: rest

/-- Host accesses inside the window, and polls: no reset, and nothing the block does not decode (20_memory.md R71). -/
def BusEvent.plain (b : Build) : BusEvent → Bool
  | .access a => decide (b.base ≤ a.addr) && decide (a.addr < b.base + Config.windowBytes)
  | .poll => true
  | .resetAssert => false
  | .resetRelease => false

/-- The accesses waiting all lie in the window, so no step of a run can fault on them (20_memory.md R71). -/
def State.SafeInbox (s : State) : Prop :=
  ∀ a, .access a ∈ s.inbox → s.inWindow a.addr = true

/-- A completion that records `code` and writes nothing else (30_encoding.md R108, first row; 60_exceptions.md R276). -/
def State.onlyResult (s : State) (op : BitVec 4) (code : ResultCode) : State :=
  { s with lastOp := op, result := code, pending := none, delay := 0 }

/-- `t` is `u` but for the model's own delay counter (log 5). -/
abbrev State.agrees (t u : State) : Prop := t = { u with delay := t.delay }

/-- The score CHOOSE reports for candidate `c`: 0 in the shortcut, else the sum of the distances to the side-information words
in use (43_scorer.md R211, R214). -/
def State.expectedScore (s : State) (c : Nat) : Nat :=
  if s.candCount.toNat = 1 ∨ s.siCount.toNat = 0 then 0
  else ((List.range s.siCount.toNat).map fun m => s.code.dist (s.candCw.getD c 0) (s.si.getD m 0)).sum

/-- The registers a command can read (30_encoding.md R109). -/
inductive Operand where
  | cfgOk
  | cw
  | row
  | col
  | layout
  | distMode
  | siCount
  | si
  | candCount
  | candCw
deriving DecidableEq, Repr

/-- The operand table (30_encoding.md R109), with the CFG_OK every command but COMMIT reads in its pre-check; MAXC is part of
the command. -/
def operandsOf : Instr → List Operand
  | .syn => [.cfgOk, .cw, .row]
  | .decode => [.cfgOk, .cw, .row, .col, .layout]
  | .enum _ => [.cfgOk, .cw, .row, .col, .layout]
  | .choose => [.cfgOk, .candCount, .candCw, .siCount, .si, .layout, .distMode]
  | .run _ => [.cfgOk, .cw, .row, .col, .layout, .distMode, .siCount, .si]
  | .commit => [.row, .col]

/-- Two states agree on one operand; of SI and of CAND_CW only the entries in use are operands (30_encoding.md R109;
43_scorer.md R220). -/
def Operand.same (s t : State) : Operand → Prop
  | .cfgOk => s.cfgOk = t.cfgOk
  | .cw => s.cw = t.cw
  | .row => s.row = t.row
  | .col => s.col = t.col
  | .layout => s.layout = t.layout
  | .distMode => s.distMode = t.distMode
  | .siCount => s.siCount = t.siCount
  | .si => ∀ m, m < s.siCount.toNat → s.si.getD m 0 = t.si.getD m 0
  | .candCount => s.candCount = t.candCount
  | .candCw => ∀ c, c < s.candCount.toNat → s.candCw.getD c 0 = t.candCw.getD c 0

/-- Two states of one build agree on every operand of the command `i`, and perhaps on nothing else. -/
def SameOperands (i : Instr) (s t : State) : Prop :=
  s.build = t.build ∧ ∀ o ∈ operandsOf i, o.same s t

/-- A register that was `a` in one run and `b` in another and is now `a'` and `b'` was kept in both or is now equal in both. -/
def keptOrEqual {α : Type} (a a' b b' : α) : Prop := (a' = a ∧ b' = b) ∨ a' = b'

end Sys2Proof.Machine
end

