-- ==== Sys2Proof/Certificates/Slice0/Obligations.lean ====
section
/-! DEFINITION. The statements for the provers. Each docstring names the rules of spec/ it rests on. `delay`, `delays`, `draws`,
`inbox` and `response` are the model's own fields (log 5, log 8, log 16, log 26): where a statement fixes one of them, that clause is
the model's. -/

open Sys2Proof Sys2Proof.Machine

/-- Every well-formed command survives encoding and decoding, as a word, as bytes before any other bytes, and as a table
word (R100, R101, R110; the layout of a table word is the model's, log 25). -/
def Obligations.EncodedCommandDecodesToItself : Prop :=
  ∀ i : Instr, i.wellFormed = true →
    decodeCmd (encode i) = .ok i ∧
    (∀ rest, decode (encodeBytes i ++ rest) = .ok (i, rest)) ∧
    decodeTableWord 32 (encode i).toNat = some i

/-- The decoder of R105 by arithmetic on the word: OP = w mod 16, RSV = w / 16 mod 4096, MAXC = w / 65536. -/
def Obligations.DecoderFollowsTheCommandFormat : Prop :=
  ∀ w : Word,
    (w.toNat / 16 % 4096 ≠ 0 → ∃ e, decodeCmd w = .error e) ∧
    (w.toNat / 16 % 4096 = 0 →
      (w.toNat % 16 = 1 → decodeCmd w = .ok .syn) ∧
      (w.toNat % 16 = 2 → decodeCmd w = .ok .decode) ∧
      (w.toNat % 16 = 3 → decodeCmd w = .ok (.enum (w.toNat / 65536))) ∧
      (w.toNat % 16 = 4 → decodeCmd w = .ok .choose) ∧
      (w.toNat % 16 = 5 → decodeCmd w = .ok (.run (w.toNat / 65536))) ∧
      (w.toNat % 16 = 6 → decodeCmd w = .ok .commit) ∧
      (w.toNat % 16 = 0 ∨ 7 ≤ w.toNat % 16 → ∃ e, decodeCmd w = .error e))

/-- The other direction of the round trip: a word that decodes is what the assembler emits for its command, but for the
MAXC field of a command that ignores it (R102, R110). -/
def Obligations.ReencodingGivesTheWordBack : Prop :=
  ∀ (w : Word) (i : Instr), decodeCmd w = .ok i →
    i.wellFormed = true ∧
    ((∃ m, i = .enum m ∨ i = .run m) → encode i = w) ∧
    ((∀ m, i ≠ .enum m ∧ i ≠ .run m) → encode i = w &&& 0xFFFF)

/-- A few command words written out from R100 and R101 decode to their commands, and illegal ones are refused (sanity). -/
def Obligations.WrittenCommandWordsDecode : Prop :=
  decodeCmd 0x00000001 = .ok .syn ∧ decodeCmd 0x12340002 = .ok .decode ∧
  decodeCmd 0x00410003 = .ok (.enum 65) ∧ decodeCmd 0x00000004 = .ok .choose ∧
  decodeCmd 0xFFFF0005 = .ok (.run 65535) ∧ decodeCmd 0x00000006 = .ok .commit ∧
  decodeCmd 0x00000000 = .error .reservedOp ∧ decodeCmd 0x00000007 = .error .reservedOp ∧
  decodeCmd 0x00000013 = .error .reservedBits ∧
  decode [0x03, 0x00, 0x40, 0x00] = .ok (.enum 64, [])

/-- When a command word is pending and the engine moves next, the step is the meaning of the command it decodes to; and
withFetchWord makes exactly that happen (R89, R105; when the engine moves next is the model's, log 5, log 6; withFetchWord is log 7). -/
def Obligations.EngineTurnRunsTheDecodedCommand : Prop :=
  (∀ (s : State) (w : Word) (i : Instr), s.completesNow w → decodeCmd w = .ok i → step s = exec i s) ∧
  (∀ (s : State) (i : Instr), i.wellFormed = true →
    step (s.withFetchWord 32 (encode i).toNat) = exec i (s.withFetchWord 32 (encode i).toNat))

/-- An illegal word completes with E_ILLEGAL_OP, LAST_OP taking its raw OP field, and nothing else is written (R104, R271; when the
engine moves next is the model's, log 5, log 6). -/
def Obligations.IllegalWordCompletesWithIllegalOp : Prop :=
  ∀ (s : State) (w : Word), s.completesNow w →
    (w.toNat / 16 % 4096 ≠ 0 ∨ w.toNat % 16 = 0 ∨ 7 ≤ w.toNat % 16) →
    step s = .next (s.onlyResult (BitVec.ofNat 4 w.toNat) .eIllegalOp)

/-- SYN on a committed configuration: syndrome bit R-1-i is the parity of ROW[i] & CW (an odd number of set bits), the bits at R
and above are zero, RESULT is OK, and nothing else changes (R15, R130, R135). -/
def Obligations.SynWritesTheRowParities : Prop :=
  ∀ s : State, s.cfgOk = true →
    ∃ x : Syndrome,
      exec .syn s =
        .next { s with syndrome := x, lastOp := 0x1, result := .ok, pending := none, delay := 0 } ∧
      ∀ k, k < 32 → x.getLsbD k =
        (decide (k < s.build.r) &&
          decide (popcount s.build.n (s.row.getD (s.build.r - 1 - k) 0 &&& s.cw) % 2 = 1))

/-- syn is linear over XOR, and the syndrome of zero is zero (R132). -/
def Obligations.SyndromeIsLinear : Prop :=
  ∀ (c : Code) (a b : Codeword), c.syn (a ^^^ b) = c.syn a ^^^ c.syn b ∧ c.syn 0 = 0

/-- Under a committed configuration the syndrome of a bit, of a set of bits and of a pattern in a symbol is the XOR of the
columns (R133). -/
def Obligations.CommittedColumnsGiveSyndromes : Prop :=
  ∀ c : Code, c.Committed →
    (∀ j, j < c.n → c.syn (oneBit j) = c.col.getD j 0) ∧
    (∀ js : List Nat, (∀ j ∈ js, j < c.n) →
      c.syn (js.foldl (fun v j => v ^^^ oneBit j) 0) = js.foldl (fun x j => x ^^^ c.col.getD j 0) 0) ∧
    (∀ k p, k < c.n / 4 → c.syn (patternAt p k) = c.columnsOf k p)

/-- The message is bits N-1..R under LAYOUT = 0 and bits K-1..0 under LAYOUT = 1 (R34). -/
def Obligations.MessageFieldFollowsTheLayout : Prop :=
  ∀ (c : Code) (v : Codeword) (i : Nat),
    (c.msg v).getLsbD i = (decide (i < c.n - c.r) && v.getLsbD (if c.layout then i else c.r + i))

/-- DECODE on a committed configuration: NO_ERROR for a zero syndrome, else CORRECTED by the pattern tried before every other
that explains the syndrome, else DUE with CORRECTED = CW and MSG = 0 (R150, R151, R156, R158, R160). -/
def Obligations.DecodeTakesTheFirstExplanation : Prop :=
  ∀ s : State, s.cfgOk = true → s.build.n % 4 = 0 →
    (s.code.syn s.cw = 0 →
      exec .decode s = .next { s with
        syndrome := 0, decInfo := 0, corrected := s.cw, msg := s.code.msg s.cw,
        lastOp := 0x2, result := .noError, pending := none, delay := 0 }) ∧
    (∀ tier k p, s.code.syn s.cw ≠ 0 → s.code.Explains (s.code.syn s.cw) tier k p →
      (∀ tier' k' p', s.code.Explains (s.code.syn s.cw) tier' k' p' → ¬ triedBefore tier' k' p' tier k p) →
      exec .decode s = .next { s with
        syndrome := s.code.syn s.cw
        decInfo := BitVec.ofNat 32 tier ||| (BitVec.ofNat 32 k <<< 8) ||| (p.setWidth 32 <<< 16)
        corrected := s.cw ^^^ (p.setWidth 256 <<< (4 * k))
        msg := s.code.msg (s.cw ^^^ (p.setWidth 256 <<< (4 * k)))
        lastOp := 0x2, result := .corrected, pending := none, delay := 0 }) ∧
    (s.code.syn s.cw ≠ 0 → (∀ tier k p, ¬ s.code.Explains (s.code.syn s.cw) tier k p) →
      exec .decode s = .next { s with
        syndrome := s.code.syn s.cw, decInfo := 0, corrected := s.cw, msg := 0,
        lastOp := 0x2, result := .due, pending := none, delay := 0 })

/-- Under a committed configuration a decode corrects exactly the words with a nonzero syndrome that differ from a codeword in one
symbol, reports no error exactly on codewords, and DUE otherwise (R162). -/
def Obligations.OneSymbolErrorsAreExactlyTheCorrectedOnes : Prop :=
  ∀ (c : Code) (v : Codeword), c.Committed →
    ((c.decodeWord v).outcome = .corrected ↔
      c.syn v ≠ 0 ∧ ∃ k p, k < c.n / 4 ∧ p ≠ 0 ∧ c.syn v = c.syn (patternAt p k)) ∧
    ((c.decodeWord v).outcome = .corrected ↔
      c.syn v ≠ 0 ∧ ∃ u k p, c.syn u = 0 ∧ k < c.n / 4 ∧ p ≠ 0 ∧ v = u ^^^ patternAt p k) ∧
    ((c.decodeWord v).outcome = .noError ↔ c.syn v = 0) ∧
    ((c.decodeWord v).outcome = .due ↔
      (c.decodeWord v).outcome ≠ .corrected ∧ (c.decodeWord v).outcome ≠ .noError)

/-- Under a committed configuration the corrected value is a codeword (R163). -/
def Obligations.CorrectedValueIsACodeword : Prop :=
  ∀ (c : Code) (v : Codeword), c.Committed → (c.decodeWord v).outcome = .corrected →
    c.syn (c.decodeWord v).cw = 0

/-- Under a committed configuration every single-bit error of every codeword is corrected, by tier 1 (R164). -/
def Obligations.SingleBitErrorsAreCorrected : Prop :=
  ∀ (c : Code) (u : Codeword) (j : Nat), c.Committed → c.syn u = 0 → j < c.n →
    c.decode (u ^^^ oneBit j) (c.syn (u ^^^ oneBit j)) = ⟨.corrected, u, 1, j / 4, 1#4 <<< (j % 4)⟩

/-- A whole-symbol error of a codeword is corrected by tier 2 exactly when its syndrome X_k is no column and no X_k' of an
earlier symbol (R165), and X_k is not zero (which R165 leaves to R151). -/
def Obligations.WholeSymbolErrorsNeedTheirCondition : Prop :=
  ∀ (c : Code) (u : Codeword) (k : Nat), c.Committed → c.syn u = 0 → k < c.n / 4 →
    (c.decodeWord (u ^^^ patternAt 0xF k) = ⟨.corrected, u, 2, k, 0xF⟩ ↔
      c.columnsOf k 0xF ≠ 0 ∧ (∀ j, j < c.n → c.col.getD j 0 ≠ c.columnsOf k 0xF) ∧
      ∀ k', k' < k → c.columnsOf k' 0xF ≠ c.columnsOf k 0xF)

/-- Every nonzero pattern of every symbol is tried by exactly one trial of the decoder, and in one tier: one bit in tier 1, the whole
symbol in tier 2, three bits in tier 3, two bits in tier 4 (R161). -/
def Obligations.EveryPatternIsTriedOnce : Prop :=
  ∀ (c : Code) (k : Nat) (p : Pattern), c.n % 4 = 0 → k < c.n / 4 → p ≠ 0 →
    (c.trials.filter fun t => t.sym == k && t.mask == p).length = 1 ∧
    ∀ t ∈ c.trials, t.sym = k → t.mask = p →
      t.tier = if popcount 4 p = 1 then 1 else if p = 0xF then 2 else if popcount 4 p = 3 then 3 else 4

/-- ENUM that finds candidates: group D of a DUE word, the list in the buffer with scores 0, CAND_COUNT its length, BEST and
BEST_SUM 0; entries beyond the list and all other registers keep their values (R185, R190). -/
def Obligations.EnumStoresTheCandidateList : Prop :=
  ∀ (s : State) (m : Nat) (list : List Codeword), s.Widths → s.cfgOk = true → m ≤ s.build.candCap →
    (s.code.decodeWord s.cw).outcome = .due → s.code.enumerate s.cw m = .candidates list →
    ∃ t, exec (.enum m) s = .next t ∧
      t = { s with
        syndrome := s.code.syn s.cw, decInfo := 0, corrected := s.cw, msg := 0
        candCw := t.candCw, candScore := t.candScore, candCount := BitVec.ofNat 16 list.length
        best := 0, bestSum := 0, lastOp := 0x3, result := .candidates, pending := none, delay := 0 } ∧
      t.candidates = list ∧
      (∀ c, c < list.length → t.candScore.getD c 0 = 0) ∧
      (∀ c, list.length ≤ c →
        t.candCw.getD c 0 = s.candCw.getD c 0 ∧ t.candScore.getD c 0 = s.candScore.getD c 0)

/-- ENUM that finds none: E_NOT_DUE on a word that is not DUE, with the message of the decode; E_CAPACITY or E_UNRECOVERABLE_DUE
on a DUE word, with CORRECTED = CW and MSG = 0; the candidates are cleared (R182, R185, R190). -/
def Obligations.EnumWithoutCandidatesClearsTheBuffer : Prop :=
  ∀ (s : State) (m : Nat), s.cfgOk = true → m ≤ s.build.candCap →
    ((s.code.decodeWord s.cw).outcome ≠ .due →
      exec (.enum m) s = .next { s with
        syndrome := s.code.syn s.cw
        decInfo := packDecInfo (s.code.decodeWord s.cw).tier (s.code.decodeWord s.cw).sym
          (s.code.decodeWord s.cw).mask
        corrected := (s.code.decodeWord s.cw).cw
        msg := s.code.msg (s.code.decodeWord s.cw).cw
        candCount := 0, best := 0, bestSum := 0
        lastOp := 0x3, result := .eNotDue, pending := none, delay := 0 }) ∧
    (∀ code, (s.code.decodeWord s.cw).outcome = .due →
      (s.code.enumerate s.cw m = .capacity ∧ code = .eCapacity ∨
        s.code.enumerate s.cw m = .unrecoverable ∧ code = .eUnrecoverableDue) →
      exec (.enum m) s = .next { s with
        syndrome := s.code.syn s.cw, decInfo := 0, corrected := s.cw, msg := 0
        candCount := 0, best := 0, bestSum := 0
        lastOp := 0x3, result := code, pending := none, delay := 0 })

/-- The list of `enumerate`: not empty, within the bound, distinct codewords, exactly those some trial corrects to, each
before the ones whose trials all come later (R180, R184, R186, R187). -/
def Obligations.CandidateListIsCompleteDistinctAndOrdered : Prop :=
  ∀ (c : Code) (v : Codeword) (m : Nat) (list : List Codeword), c.enumerate v m = .candidates list →
    0 < list.length ∧ list.length ≤ m ∧ list.Nodup ∧
    (∀ x, x ∈ list ↔ ∃ k p, c.Yields v k p x) ∧
    list.Pairwise fun x y =>
      ∃ k p, c.Yields v k p x ∧ ∀ k' p', c.Yields v k' p' y → 16 * k + p < 16 * k' + p'

/-- E_CAPACITY exactly when more than MAXC distinct codewords come up, E_UNRECOVERABLE_DUE exactly when none does, whatever
MAXC is (R188, R189). -/
def Obligations.CapacityErrorExactlyWhenTooManyCandidates : Prop :=
  ∀ (c : Code) (v : Codeword) (m : Nat),
    (c.enumerate v m = .capacity ↔
      ∃ list : List Codeword, list.Nodup ∧ list.length = m + 1 ∧ ∀ x ∈ list, ∃ k p, c.Yields v k p x) ∧
    (c.enumerate v m = .unrecoverable ↔ ∀ k p x, ¬ c.Yields v k p x)

/-- Under a committed configuration every candidate is a codeword that differs from the received word in at most two symbols, and
no candidate is listed twice (R193). -/
def Obligations.CandidatesAreCodewordsNearTheWord : Prop :=
  ∀ (c : Code) (v : Codeword) (m : Nat) (list : List Codeword), c.Committed → c.enumerate v m = .candidates list →
    list.Nodup ∧ ∀ x ∈ list, c.syn x = 0 ∧
      ∃ k p k' p', k < c.n / 4 ∧ k' < c.n / 4 ∧ x = v ^^^ patternAt p k ^^^ patternAt p' k'

/-- Under a committed configuration no trial of a DUE word has a zero syndrome, so none decodes to NO_ERROR; the trial with pattern 0
is the word itself, is DUE and yields nothing; and there are at most 15 candidates for each symbol (R191, R192, R195). -/
def Obligations.TrialsOfADueWord : Prop :=
  ∀ (c : Code) (v : Codeword), c.Committed → (c.decodeWord v).outcome = .due →
    (∀ k p, k < c.n / 4 →
      c.syn (v ^^^ patternAt p k) ≠ 0 ∧ (c.decodeWord (v ^^^ patternAt p k)).outcome ≠ .noError) ∧
    (∀ k, v ^^^ patternAt 0 k = v ∧ (c.decodeWord (v ^^^ patternAt 0 k)).outcome = .due ∧ ∀ x, ¬ c.Yields v k 0 x) ∧
    (∀ m list, c.enumerate v m = .candidates list → list.length ≤ c.n / 4 * 15)

/-- The distance is the number of differing bits, of the codewords under DIST_MODE = 1 and of the message fields under
DIST_MODE = 0 (R16, R210). -/
def Obligations.DistanceCountsDifferingBits : Prop :=
  ∀ (c : Code) (x w : Codeword),
    (c.distMode = true →
      c.dist x w = ((List.range c.n).filter fun i => x.getLsbD i != w.getLsbD i).length) ∧
    (c.distMode = false →
      c.dist x w = ((List.range (c.n - c.r)).filter fun i =>
        x.getLsbD (c.msgOffset + i) != w.getLsbD (c.msgOffset + i)).length)

/-- CHOOSE with candidates: BEST is the earliest candidate with the smallest score, every score in use is reported, CORRECTED
and MSG are the chosen candidate's, nothing else changes (R213, R214, R217, R220). -/
def Obligations.ChooseTakesTheEarliestMinimum : Prop :=
  ∀ s : State, s.cfgOk = true → s.siCount.toNat ≤ s.build.siCap → s.candCount ≠ 0 →
    ∃ b t, b < s.candCount.toNat ∧
      (∀ c, c < s.candCount.toNat → s.expectedScore b ≤ s.expectedScore c) ∧
      (∀ c, c < b → s.expectedScore b < s.expectedScore c) ∧
      exec .choose s = .next t ∧
      t = { s with
        candScore := t.candScore, best := BitVec.ofNat 16 b, bestSum := BitVec.ofNat 32 (s.expectedScore b)
        corrected := s.candCw.getD b 0, msg := s.code.msg (s.candCw.getD b 0)
        lastOp := 0x4, result := .chosen, pending := none, delay := 0 } ∧
      (∀ c, c < s.candCount.toNat → t.candScore.getD c 0 = BitVec.ofNat 32 (s.expectedScore c)) ∧
      (∀ c, s.candCount.toNat ≤ c → t.candScore.getD c 0 = s.candScore.getD c 0)

/-- A score is the sum of the distances to the side-information words in use, and fits the 32-bit registers (R211). -/
def Obligations.ScoresNeverOverflow : Prop :=
  ∀ (s : State) (x : Codeword), s.Widths → s.siCount.toNat ≤ s.build.siCap →
    s.code.score s.siWords x =
      ((List.range s.siCount.toNat).map fun m => s.code.dist x (s.si.getD m 0)).sum ∧
    s.code.score s.siWords x ≤ s.build.siCap * 256 ∧ s.build.siCap * 256 ≤ 65280 ∧
    (BitVec.ofNat 32 (s.code.score s.siWords x)).toNat = s.code.score s.siWords x

/-- RUN maxc equals DECODE, ENUM maxc, CHOOSE: the state after it but for STATUS, in the three cases of R244. -/
def Obligations.RunEqualsTheSplitCommands : Prop :=
  ∀ (s : State) (m : Nat), s.Widths → s.cfgOk = true → m ≤ s.build.candCap → s.siCount.toNat ≤ s.build.siCap →
    ∃ t t1, exec (.run m) s = .next t ∧ exec .decode s = .next t1 ∧
      ((s.code.decodeWord s.cw).outcome ≠ .due →
        t = { t1 with candCount := 0, best := 0, bestSum := 0, lastOp := 0x5 }) ∧
      ((s.code.decodeWord s.cw).outcome = .due →
        ∃ t2, exec (.enum m) t1 = .next t2 ∧
          ((∀ list, s.code.enumerate s.cw m ≠ .candidates list) → t = { t2 with lastOp := 0x5 }) ∧
          (∀ list, s.code.enumerate s.cw m = .candidates list →
            ∃ t3, exec .choose t2 = .next t3 ∧ t = { t3 with lastOp := 0x5, result := .dueResolved }))

/-- RUN never completes with DUE, E_NOT_DUE or E_AMBIGUOUS, and CHOOSE is the only command that completes with E_AMBIGUOUS (R242,
R240). -/
def Obligations.RunNeverReportsAmbiguous : Prop :=
  ∀ s : State,
    (∀ m, ∃ t, exec (.run m) s = .next t ∧ t.result ≠ .due ∧ t.result ≠ .eNotDue ∧ t.result ≠ .eAmbiguous) ∧
    ∀ i t, exec i s = .next t → t.result = .eAmbiguous → i = .choose

/-- Under a committed configuration RUN gives back the message of a codeword, and of a codeword with any one bit flipped (R245,
R164). -/
def Obligations.RunRecoversCodewordsAndOneBitErrors : Prop :=
  ∀ (s : State) (m : Nat), s.code.Committed → s.cfgOk = true → m ≤ s.build.candCap →
    s.siCount.toNat ≤ s.build.siCap →
    (s.code.syn s.cw = 0 →
      ∃ t, exec (.run m) s = .next t ∧ t.result = .noError ∧ t.corrected = s.cw ∧ t.msg = s.code.msg s.cw) ∧
    (∀ u j, s.code.syn u = 0 → j < s.build.n → s.cw = u ^^^ oneBit j →
      ∃ t, exec (.run m) s = .next t ∧ t.result = .corrected ∧ t.corrected = u ∧ t.msg = s.code.msg u)

/-- The pre-checks in their order, each completing with its code and writing nothing else: CFG_OK for every command but COMMIT, then
MAXC and SI_COUNT, then CHOOSE's empty buffer (R215, R272, R273, R275). -/
def Obligations.PreChecksWriteNothingElse : Prop :=
  ∀ s : State,
    (s.cfgOk = false → ∀ i, i ≠ .commit → exec i s = .next (s.onlyResult i.op .eConfig)) ∧
    (s.cfgOk = true →
      (∀ m, s.build.candCap < m → exec (.enum m) s = .next (s.onlyResult 0x3 .eMalformed)) ∧
      (∀ m, s.build.candCap < m ∨ s.build.siCap < s.siCount.toNat →
        exec (.run m) s = .next (s.onlyResult 0x5 .eMalformed)) ∧
      (s.build.siCap < s.siCount.toNat → exec .choose s = .next (s.onlyResult 0x4 .eMalformed)) ∧
      (s.siCount.toNat ≤ s.build.siCap → s.candCount = 0 →
        exec .choose s = .next (s.onlyResult 0x4 .eAmbiguous)))

/-- COMMIT sets CFG_OK exactly when every column is nonzero, matches the rows bit by bit and differs from every other column, reports
OK or E_CONFIG, clears the candidates, and changes nothing else (R250, R251, R253, R254). -/
def Obligations.CommitChecksEveryColumn : Prop :=
  ∀ s : State, s.build.n ≤ 256 → s.build.r ≤ 32 →
    ∃ ok : Bool,
      exec .commit s = .next { s with
        cfgOk := ok, candCount := 0, best := 0, bestSum := 0
        lastOp := 0x6, result := if ok then .ok else .eConfig, pending := none, delay := 0 } ∧
      (ok = true ↔
        (∀ j, j < s.build.n → s.col.getD j 0 ≠ 0 ∧ fits s.build.r (s.col.getD j 0) ∧
          ∀ i, i < s.build.r → (s.col.getD j 0).getLsbD (s.build.r - 1 - i) = (s.row.getD i 0).getLsbD j) ∧
        ∀ j j', j < j' → j' < s.build.n → s.col.getD j 0 ≠ s.col.getD j' 0)

/-- Every command in every state completes with a result code other than NONE, leaves the engine idle, and keeps every register the
host owns, the configuration, and CFG_OK but for COMMIT (R38, R39, R56, R89, R256). -/
def Obligations.EveryCommandCompletesAndKeepsTheHostsRegisters : Prop :=
  ∀ (i : Instr) (s : State), ∃ t, exec i s = .next t ∧
    t.lastOp = i.op ∧ t.result ≠ .none ∧ t.busy = false ∧
    t.build = s.build ∧ t.cmd = s.cmd ∧ t.overrun = s.overrun ∧
    t.layout = s.layout ∧ t.distMode = s.distMode ∧
    t.siCount = s.siCount ∧ t.siSel = s.siSel ∧ t.candSel = s.candSel ∧ t.row = s.row ∧ t.col = s.col ∧
    t.cw = s.cw ∧ t.si = s.si ∧ t.inReset = s.inReset ∧ t.inbox = s.inbox ∧ t.response = s.response ∧
    t.delays = s.delays ∧ t.draws = s.draws ∧ (i ≠ .commit → t.cfgOk = s.cfgOk)

/-- A command word that completes with an error code leaves MSG unchanged or zero, and only E_NOT_DUE leaves a message, that of a
successful decode (R107). -/
def Obligations.ErrorsLeaveNoComputedMessage : Prop :=
  ∀ (w : Word) (s : State), ∃ t, completeWord w s = .next t ∧
    (t.result = .eIllegalOp ∨ t.result = .eConfig ∨ t.result = .eMalformed ∨ t.result = .eAmbiguous →
      t.msg = s.msg) ∧
    (t.result = .eCapacity ∨ t.result = .eUnrecoverableDue → t.msg = 0) ∧
    (t.result = .eNotDue →
      (s.code.decodeWord s.cw).outcome ≠ .due ∧ t.msg = s.code.msg (s.code.decodeWord s.cw).cw)

/-- The commands every error comes from and the state it leaves, as the table of R276 lists them (but for the model's own delay
counter, log 5). -/
def Obligations.ErrorsLeaveTheStateOfTheTable : Prop :=
  ∀ (w : Word) (s : State), ∃ t, completeWord w s = .next t ∧
    (∀ i, decodeCmd w = .ok i →
      t.result ≠ .eIllegalOp ∧
      (t.result = .eMalformed → i = .choose ∨ ∃ m, i = .enum m ∨ i = .run m) ∧
      (t.result = .eCapacity ∨ t.result = .eUnrecoverableDue → ∃ m, i = .enum m ∨ i = .run m) ∧
      (t.result = .eAmbiguous → i = .choose) ∧ (t.result = .eNotDue → ∃ m, i = .enum m)) ∧
    (∀ e, decodeCmd w = .error e → t.result = .eIllegalOp) ∧
    (t.result = .eMalformed ∨ t.result = .eAmbiguous ∨ t.result = .eIllegalOp →
      t.agrees (s.onlyResult (w.extractLsb' 0 4) t.result)) ∧
    (t.result = .eConfig → decodeCmd w ≠ .ok .commit → t.agrees (s.onlyResult (w.extractLsb' 0 4) .eConfig)) ∧
    (t.result = .eConfig → decodeCmd w = .ok .commit →
      t.agrees (({ s with cfgOk := false, candCount := 0, best := 0, bestSum := 0 } : State).onlyResult 0x6 .eConfig)) ∧
    (t.result = .eCapacity ∨ t.result = .eUnrecoverableDue →
      t.agrees (({ s with
        syndrome := s.code.syn s.cw, decInfo := 0, corrected := s.cw, msg := 0
        candCount := 0, best := 0, bestSum := 0 } : State).onlyResult (w.extractLsb' 0 4) t.result)) ∧
    (t.result = .eNotDue →
      t.agrees (({ s with
        syndrome := s.code.syn s.cw
        decInfo := packDecInfo (s.code.decodeWord s.cw).tier (s.code.decodeWord s.cw).sym
          (s.code.decodeWord s.cw).mask
        corrected := (s.code.decodeWord s.cw).cw, msg := s.code.msg (s.code.decodeWord s.cw).cw
        candCount := 0, best := 0, bestSum := 0 } : State).onlyResult 0x3 .eNotDue))

/-- A command issued again on the state it left gives the same state: there is no hidden mutable state (R57). -/
def Obligations.CommandsAreIdempotent : Prop :=
  ∀ (i : Instr) (s : State), ∃ t, exec i s = .next t ∧ exec i t = .next t

/-- A command reads only its row of the operand table (and the constant build parameters): from states that agree on those operands
alone, each result register is either kept in both runs or equal after both, entry by entry for the candidate buffer (R57, R109). -/
def Obligations.CommandsReadOnlyTheirOperands : Prop :=
  ∀ (i : Instr) (s s' : State), SameOperands i s s' →
    ∃ t t', exec i s = .next t ∧ exec i s' = .next t' ∧
      t.result = t'.result ∧ t.lastOp = t'.lastOp ∧ t.cfgOk = t'.cfgOk ∧
      keptOrEqual s.syndrome t.syndrome s'.syndrome t'.syndrome ∧
      keptOrEqual s.decInfo t.decInfo s'.decInfo t'.decInfo ∧
      keptOrEqual s.corrected t.corrected s'.corrected t'.corrected ∧
      keptOrEqual s.msg t.msg s'.msg t'.msg ∧
      keptOrEqual s.candCount t.candCount s'.candCount t'.candCount ∧
      keptOrEqual s.best t.best s'.best t'.best ∧
      keptOrEqual s.bestSum t.bestSum s'.bestSum t'.bestSum ∧
      ∀ c, keptOrEqual (s.candCw.getD c 0) (t.candCw.getD c 0) (s'.candCw.getD c 0) (t'.candCw.getD c 0) ∧
        keptOrEqual (s.candScore.getD c 0) (t.candScore.getD c 0) (s'.candScore.getD c 0) (t'.candScore.getD c 0)

/-- An access that is not one aligned 32-bit word with all lanes gets a BusError and changes no register, busy or not (R75; that
the machine goes on with a next state is the model's, log 9, and so are inbox, delay and response, log 5, log 8, log 16). -/
def Obligations.MisshapenAccessIsABusError : Prop :=
  ∀ (s : State) (a : Access) (rest : List BusEvent), s.deliversNow (.access a) rest → s.inReset = false →
    s.build.base ≤ a.addr → a.addr < s.build.base + 4096 →
    ((a.addr - s.build.base) % 4 ≠ 0 ∨ a.width ≠ 32 ∨ a.lanes ≠ 0xF) →
    step s = .next { s with
      inbox := rest, delay := s.delay - 1, response := .busError (a.addr - s.build.base) }

/-- OVERRUN is set by a write other than to STATUS while busy, which is discarded, and cleared by writing 1 to STATUS bit 2, in
either state; neither touches the pending command (R87, R281; inbox, delay and response are the model's, log 5, log 8, log 16). -/
def Obligations.OverrunIsSetAndCleared : Prop :=
  ∀ (s : State) (off : Nat) (v : Word) (rest : List BusEvent),
    s.deliversNow (.access ⟨s.build.base + off, 32, 0xF, .write v⟩) rest → s.inReset = false →
    off < 4096 → off % 4 = 0 →
    (s.busy = true → off ≠ 0x004 →
      step s = .next { s with inbox := rest, delay := s.delay - 1, response := .accepted, overrun := true }) ∧
    (off = 0x004 →
      step s = .next { s with
        inbox := rest, delay := s.delay - 1, response := .accepted, overrun := s.overrun && !v.getLsbD 2 })

/-- While idle, a delivered aligned write to any offset of the window is performed, and the bus takes it; a CMD write is accepted,
whatever the word: CMD and PENDING take it, BUSY becomes 1, a read of CMD returns it, and every other register reads as it did before
the acceptance, but for STATUS, whose BUSY is now 1 (R42, R81, R85, R87, R88, R91; that CMD goes by R42 while busy is the model's
reading, log 27; inbox, delay, delays, draws and response are the model's, log 5, log 8, log 16, log 26). -/
def Obligations.IdleCommandWriteIsAccepted : Prop :=
  ∀ (s : State) (off : Nat) (v : Word) (rest : List BusEvent),
    s.deliversNow (.access ⟨s.build.base + off, 32, 0xF, .write v⟩) rest → s.inReset = false → s.busy = false →
    off < 4096 → off % 4 = 0 →
    step s = .next (((s.takeEvent rest).writeWindow off v).respond .accepted) ∧
    (off = 0x000 → ∃ t, step s = .next t ∧ t.busy = true ∧
      t = { s with
        cmd := v, pending := some v, inbox := rest, response := .accepted
        delay := t.delay, delays := s.delays.tail, draws := s.draws + 1 } ∧
      (∀ r, r ≠ 0x000 → r ≠ 0x004 → t.readWindow r = s.readWindow r) ∧
      t.readWindow 0x000 = v ∧ t.readWindow 0x004 = s.readWindow 0x004 ||| 1)

/-- A read, in either state, is answered with the register at its offset and changes no register (R80, R91). A read of POLL is
answered with STATUS and changes no register either, and POLL ends exactly when bit 0 of what it read, BUSY, is 0 (R111; that it
stays first in line until then is the model's, log 13; inbox, delay and response are too, log 5, log 8, log 16). -/
def Obligations.ReadsChangeNothing : Prop :=
  (∀ (s : State) (off : Nat) (rest : List BusEvent),
    s.deliversNow (.access ⟨s.build.base + off, 32, 0xF, .read⟩) rest → s.inReset = false →
    off < 4096 → off % 4 = 0 →
    step s = .next { s with inbox := rest, delay := s.delay - 1, response := .data (s.readWindow off) }) ∧
  (∀ (s : State) (rest : List BusEvent), s.deliversNow .poll rest → s.inReset = false →
    (s.readWindow 0x004).getLsbD 0 = s.busy ∧
    step s = .next { s with
      inbox := if (s.readWindow 0x004).getLsbD 0 then .poll :: rest else rest
      delay := s.delay - 1, response := .data (s.readWindow 0x004) })

/-- An accepted write to CFG, or anywhere in the COL and ROW regions, clears CFG_OK; no other write changes it, and no write while
busy does (R37, R81, R87). -/
def Obligations.ConfigurationWritesClearCfgOk : Prop :=
  ∀ (s : State) (off : Nat) (v : Word), off < 4096 → off % 4 = 0 →
    (s.busy = true → (s.writeWindow off v).cfgOk = s.cfgOk) ∧
    (s.busy = false → (off = 0x010 ∨ 0x100 ≤ off ∧ off < 0x900) → (s.writeWindow off v).cfgOk = false) ∧
    (s.busy = false → ¬ (off = 0x010 ∨ 0x100 ≤ off ∧ off < 0x900) → (s.writeWindow off v).cfgOk = s.cfgOk)

/-- The register map: every offset of the table of 10_state.md section 8 (R72, R78), and what a read returns there: the register
whole, a short register zero-extended, and a limb the bits of its value below the register's width (R33, R42, R47, R48, R49, R52,
R54, R76; that CMD goes by R42 while busy too is the model's reading, log 27). STATUS, PARAM0, PARAM1 and the candidate windows
have statements of their own. -/
def Obligations.RegisterMapFollowsTheTable : Prop :=
  (regAt 0x000 = .cmd ∧ regAt 0x004 = .status ∧ regAt 0x008 = .param0 ∧ regAt 0x00C = .param1 ∧
    regAt 0x010 = .cfg ∧ regAt 0x014 = .siCount ∧ regAt 0x018 = .siSel ∧ regAt 0x01C = .candSel ∧
    regAt 0x020 = .syndrome ∧ regAt 0x024 = .decInfo ∧ regAt 0x028 = .candCount ∧ regAt 0x02C = .best ∧
    regAt 0x030 = .bestSum ∧ regAt 0x034 = .candScore ∧
    (∀ l, l < 8 →
      regAt (0x040 + 4 * l) = .cw l ∧ regAt (0x060 + 4 * l) = .corrected l ∧ regAt (0x080 + 4 * l) = .msg l ∧
      regAt (0x0A0 + 4 * l) = .siData l ∧ regAt (0x0C0 + 4 * l) = .candCw l ∧ regAt (0x0E0 + 4 * l) = .candMsg l) ∧
    (∀ j, j < 256 → regAt (0x100 + 4 * j) = .col j) ∧
    (∀ i l, i < 32 → l < 8 → regAt (0x500 + 32 * i + 4 * l) = .row i l) ∧
    (∀ off, 0x038 ≤ off ∧ off < 0x040 ∨ 0x900 ≤ off → regAt off = .reserved)) ∧
  (∀ s : State,
    s.readWindow 0x000 = s.cmd ∧
    s.readWindow 0x024 = s.decInfo ∧ s.readWindow 0x030 = s.bestSum ∧
    (s.readWindow 0x014).toNat = s.siCount.toNat ∧ (s.readWindow 0x018).toNat = s.siSel.toNat ∧
    (s.readWindow 0x01C).toNat = s.candSel.toNat ∧ (s.readWindow 0x028).toNat = s.candCount.toNat ∧
    (s.readWindow 0x02C).toNat = s.best.toNat ∧
    ∀ b, b < 32 →
      (s.readWindow 0x010).getLsbD b = (if b = 0 then s.layout else if b = 1 then s.distMode else false) ∧
      (s.readWindow 0x020).getLsbD b = (decide (b < s.build.r) && s.syndrome.getLsbD b) ∧
      (∀ l, l < 8 →
        (s.readWindow (0x040 + 4 * l)).getLsbD b = (decide (32 * l + b < s.build.n) && s.cw.getLsbD (32 * l + b)) ∧
        (s.readWindow (0x060 + 4 * l)).getLsbD b =
          (decide (32 * l + b < s.build.n) && s.corrected.getLsbD (32 * l + b)) ∧
        (s.readWindow (0x080 + 4 * l)).getLsbD b =
          (decide (32 * l + b < s.build.n - s.build.r) && s.msg.getLsbD (32 * l + b)) ∧
        (s.readWindow (0x0A0 + 4 * l)).getLsbD b =
          (decide (s.siSel.toNat < s.build.siCap) && decide (32 * l + b < s.build.n) &&
            (s.si.getD s.siSel.toNat 0).getLsbD (32 * l + b))) ∧
      (∀ j, j < 256 → (s.readWindow (0x100 + 4 * j)).getLsbD b =
        (decide (j < s.build.n) && decide (b < s.build.r) && (s.col.getD j 0).getLsbD b)) ∧
      (∀ i l, i < 32 → l < 8 → (s.readWindow (0x500 + 32 * i + 4 * l)).getLsbD b =
        (decide (i < s.build.r) && decide (32 * l + b < s.build.n) && (s.row.getD i 0).getLsbD (32 * l + b))))

/-- A limb of CW written while idle reads back with the bits at N and above zero, the other limbs read as before, and no other
register changes (R38, R72, R76). -/
def Obligations.CwLimbsReadBackMasked : Prop :=
  ∀ (s : State) (l l' b : Nat) (v : Word), s.busy = false → l < 8 → l' < 8 → b < 32 →
    s.writeWindow (0x040 + 4 * l) v = { s with cw := (s.writeWindow (0x040 + 4 * l) v).cw } ∧
    ((s.writeWindow (0x040 + 4 * l) v).readWindow (0x040 + 4 * l')).getLsbD b =
      if l' = l then decide (32 * l + b < s.build.n) && v.getLsbD b
      else (s.readWindow (0x040 + 4 * l')).getLsbD b

/-- A COL slot or ROW limb written while idle reads back with only the bits and slots the build has, every other slot and limb reads as
before, and nothing else changes but CFG_OK (R31, R32, R76, R77). -/
def Obligations.TablesReadBackMasked : Prop :=
  ∀ (s : State) (v : Word) (b : Nat), s.Widths → s.busy = false → b < 32 →
    (∀ j j', j < 256 → j' < 256 →
      s.writeWindow (0x100 + 4 * j) v =
        { s with col := (s.writeWindow (0x100 + 4 * j) v).col, cfgOk := false } ∧
      ((s.writeWindow (0x100 + 4 * j) v).readWindow (0x100 + 4 * j')).getLsbD b =
        if j' = j then decide (j < s.build.n) && decide (b < s.build.r) && v.getLsbD b
        else (s.readWindow (0x100 + 4 * j')).getLsbD b) ∧
    (∀ i l i' l', i < 32 → l < 8 → i' < 32 → l' < 8 →
      s.writeWindow (0x500 + 32 * i + 4 * l) v =
        { s with row := (s.writeWindow (0x500 + 32 * i + 4 * l) v).row, cfgOk := false } ∧
      ((s.writeWindow (0x500 + 32 * i + 4 * l) v).readWindow (0x500 + 32 * i' + 4 * l')).getLsbD b =
        if i' = i ∧ l' = l then decide (i < s.build.r) && decide (32 * l + b < s.build.n) && v.getLsbD b
        else (s.readWindow (0x500 + 32 * i' + 4 * l')).getLsbD b)

/-- SI_DATA writes the limb of the word SI_SEL selects and no other word, reads back masked to N bits with the other limbs as before,
and reads 0 and ignores writes when SI_SEL >= SI_CAP (R40, R72, R76). -/
def Obligations.SiDataReachesTheSelectedWord : Prop :=
  ∀ (s : State) (l l' b : Nat) (v : Word), s.Widths → s.busy = false → l < 8 → l' < 8 → b < 32 →
    (s.siSel.toNat < s.build.siCap →
      s.writeWindow (0x0A0 + 4 * l) v = { s with si := (s.writeWindow (0x0A0 + 4 * l) v).si } ∧
      ((s.writeWindow (0x0A0 + 4 * l) v).readWindow (0x0A0 + 4 * l')).getLsbD b =
        (if l' = l then decide (32 * l + b < s.build.n) && v.getLsbD b
        else (s.readWindow (0x0A0 + 4 * l')).getLsbD b) ∧
      ∀ m, m ≠ s.siSel.toNat → (s.writeWindow (0x0A0 + 4 * l) v).si.getD m 0 = s.si.getD m 0) ∧
    (s.build.siCap ≤ s.siSel.toNat →
      s.writeWindow (0x0A0 + 4 * l) v = s ∧ s.readWindow (0x0A0 + 4 * l) = 0)

/-- The candidate windows show entry CAND_SEL, its message under the current LAYOUT and its score, and read 0 when
CAND_SEL >= CAND_COUNT (R41, R52, R53). -/
def Obligations.CandidateWindowsShowTheSelectedEntry : Prop :=
  ∀ (s : State) (l b : Nat), l < 8 → b < 32 →
    (s.candSel.toNat < s.candCount.toNat →
      (s.readWindow (0x0C0 + 4 * l)).getLsbD b =
        (decide (32 * l + b < s.build.n) && (s.candCw.getD s.candSel.toNat 0).getLsbD (32 * l + b)) ∧
      (s.readWindow (0x0E0 + 4 * l)).getLsbD b =
        (decide (32 * l + b < s.build.n - s.build.r) &&
          (s.candCw.getD s.candSel.toNat 0).getLsbD (s.code.msgOffset + (32 * l + b))) ∧
      s.readWindow 0x034 = s.candScore.getD s.candSel.toNat 0) ∧
    (s.candCount.toNat ≤ s.candSel.toNat →
      s.readWindow (0x0C0 + 4 * l) = 0 ∧ s.readWindow (0x0E0 + 4 * l) = 0 ∧ s.readWindow 0x034 = 0)

/-- While idle a write to a read-only register or window or to a reserved offset changes nothing, and reserved offsets read 0 (R77,
R79). -/
def Obligations.ReadOnlyAndReservedOffsetsIgnoreWrites : Prop :=
  ∀ (s : State) (off : Nat) (v : Word), s.busy = false → off < 4096 → off % 4 = 0 →
    (off = 0x008 ∨ off = 0x00C ∨ 0x020 ≤ off ∧ off < 0x040 ∨ 0x060 ≤ off ∧ off < 0x0A0 ∨
        0x0C0 ≤ off ∧ off < 0x100 ∨ 0x900 ≤ off → s.writeWindow off v = s) ∧
    (0x038 ≤ off ∧ off < 0x040 ∨ 0x900 ≤ off → s.readWindow off = 0)

/-- STATUS bit by bit: BUSY 0, CFG_OK 1, OVERRUN 2, LAST_OP 11:8, RESULT 19:16, all others 0 (R43); and the number of each result
code, as the table of R106 gives it. -/
def Obligations.StatusWordHasItsFields : Prop :=
  (∀ (s : State) (b : Nat), b < 32 →
    (s.readWindow 0x004).getLsbD b =
      if b = 0 then s.pending.isSome
      else if b = 1 then s.cfgOk
      else if b = 2 then s.overrun
      else if 8 ≤ b ∧ b < 12 then s.lastOp.getLsbD (b - 8)
      else if 16 ≤ b ∧ b < 20 then s.result.code.getLsbD (b - 16)
      else false) ∧
  ResultCode.none.code = 0 ∧ ResultCode.ok.code = 1 ∧ ResultCode.noError.code = 2 ∧ ResultCode.corrected.code = 3 ∧
  ResultCode.due.code = 4 ∧ ResultCode.candidates.code = 5 ∧ ResultCode.chosen.code = 6 ∧
  ResultCode.dueResolved.code = 7 ∧ ResultCode.eMalformed.code = 8 ∧ ResultCode.eCapacity.code = 9 ∧
  ResultCode.eUnrecoverableDue.code = 10 ∧ ResultCode.eAmbiguous.code = 11 ∧ ResultCode.eNotDue.code = 12 ∧
  ResultCode.eConfig.code = 13 ∧ ResultCode.eIllegalOp.code = 14

/-- PARAM0 and PARAM1 report the build parameters, and no step changes them (R44). -/
def Obligations.IdentificationRegistersAreConstant : Prop :=
  ∀ s : State, s.build.wellFormed = true →
    (s.readWindow 0x008).toNat = s.build.n + s.build.r * 2 ^ 16 + 4 * 2 ^ 24 ∧
    (s.readWindow 0x00C).toNat = s.build.candCap + s.build.siCap * 2 ^ 16 ∧
    ∀ t, step s = .next t → t.readWindow 0x008 = s.readWindow 0x008 ∧ t.readWindow 0x00C = s.readWindow 0x00C

/-- While a command is pending, every step before its completion but the assertion of reset leaves every register of the block as it is,
but for OVERRUN: the command computes from the registers of its acceptance (R86, R87, R91; inbox, delay and response are the
model's, log 5, log 8, log 16). -/
def Obligations.PendingCommandFreezesTheRegisters : Prop :=
  ∀ s t : State, s.busy = true → s.inReset = false → s.engineTurn = false →
    (∀ rest, s.inbox ≠ .resetAssert :: rest) → step s = .next t →
    t = { s with overrun := t.overrun, inbox := t.inbox, response := t.response, delay := t.delay }

/-- A pending command completes after at most `delay` more bus events, whatever accesses of the window and polls the host makes, and
from the registers of its acceptance (R90). The bound is the model's free value (log 5), and that the command completes in the next
step once no bus event waits, whatever the delay, is the model's too (log 6). -/
def Obligations.PendingCommandCompletes : Prop :=
  ∀ s : State, s.busy = true → s.inReset = false → (∀ e ∈ s.inbox, e.plain s.build = true) →
    ∃ j t u, j ≤ s.delay ∧ Sys2Proof.core.run j s = .next t ∧
      t = { s with overrun := t.overrun, inbox := t.inbox, response := t.response, delay := t.delay } ∧
      t.engineTurn = true ∧ step t = .next u ∧ u.busy = false

/-- An idle block with no bus event does nothing (R291; that such a step is a step is the model's, log 11). -/
def Obligations.IdleBlockDoesNothing : Prop :=
  ∀ s : State, s.busy = false → s.inbox = [] → step s = .next s

/-- No step is refused; a step faults exactly when it is the bus's turn and the next access lies outside the window (the block never
sees one: R71; log 10); and a run whose waiting accesses all lie in the window never meets one. -/
def Obligations.OnlyAccessesOutsideTheWindowFault : Prop :=
  (∀ (s : State) (r : Refusal), step s ≠ .refused r) ∧
  (∀ (s : State) (f : Fault), step s = .fault f ↔
    s.engineTurn = false ∧ ∃ a rest, s.inbox = .access a :: rest ∧
      ¬ (s.build.base ≤ a.addr ∧ a.addr < s.build.base + 4096) ∧ f = .outsideWindow a.addr) ∧
  (∀ s : State, s.SafeInbox → ∃ t, step s = .next t ∧ t.SafeInbox)

/-- When reset ends every register holds its reset value, PENDING is empty, and the arrays whose value is unspecified hold values of
their widths (R300, R301, R302). -/
def Obligations.ReleaseOfResetGivesTheResetValues : Prop :=
  ∀ (s : State) (rest : List BusEvent), s.deliversNow .resetRelease rest → s.inReset = true →
    ∃ t, step s = .next t ∧ t.inReset = false ∧ t.build = s.build ∧
      t.readWindow 0x008 = param0 s.build ∧ t.readWindow 0x00C = param1 s.build ∧
      t.cmd = 0 ∧ t.readWindow 0x000 = 0 ∧ t.readWindow 0x004 = 0 ∧
      t.result = .none ∧ t.lastOp = 0 ∧ t.cfgOk = false ∧ t.overrun = false ∧
      t.layout = false ∧ t.distMode = false ∧ t.siCount = 0 ∧ t.siSel = 0 ∧ t.candSel = 0 ∧
      t.syndrome = 0 ∧ t.decInfo = 0 ∧ t.candCount = 0 ∧ t.best = 0 ∧ t.bestSum = 0 ∧ t.cw = 0 ∧
      t.corrected = 0 ∧ t.msg = 0 ∧ t.pending = none ∧
      t.row.length = s.build.r ∧ (∀ x ∈ t.row, fits s.build.n x) ∧
      t.col.length = s.build.n ∧ (∀ x ∈ t.col, fits s.build.r x) ∧
      t.si.length = s.build.siCap ∧ (∀ x ∈ t.si, fits s.build.n x) ∧
      t.candCw.length = s.build.candCap ∧ (∀ x ∈ t.candCw, fits s.build.n x) ∧
      t.candScore.length = s.build.candCap

/-- The assertion of reset, delivered to an idle or a busy block alike, puts it in reset with no command pending and writes no result
(R300, R304; that the registers keep their values until the release, unread, is the model's, log 12, and so are inbox and delay, log 5,
log 8). And from it through any accesses of the window and polls to the release, the block ignores them and comes out idle with
RESULT = NONE and LAST_OP = 0, every register that R301 gives a value at that value, and no result of an abandoned command (R300, R301,
R304; that each step takes one event is log 8, that a poll ends in reset is log 13). -/
def Obligations.ResetAbandonsThePendingCommand : Prop :=
  (∀ (s : State) (rest : List BusEvent), s.deliversNow .resetAssert rest →
    step s = .next { s with inbox := rest, inReset := true, pending := none, delay := 0 }) ∧
  ∀ (s : State) (es rest : List BusEvent), s.deliversNow .resetAssert (es ++ .resetRelease :: rest) →
    (∀ e ∈ es, e.plain s.build = true) →
    ∃ t, Sys2Proof.core.run (es.length + 2) s = .next t ∧ t.build = s.build ∧ t.inReset = false ∧ t.inbox = rest ∧
      t.readWindow 0x008 = param0 s.build ∧ t.readWindow 0x00C = param1 s.build ∧
      t.busy = false ∧ t.readWindow 0x000 = 0 ∧ t.readWindow 0x004 = 0 ∧ t.cmd = 0 ∧ t.result = .none ∧ t.lastOp = 0 ∧
      t.cfgOk = false ∧ t.overrun = false ∧ t.layout = false ∧ t.distMode = false ∧ t.siCount = 0 ∧ t.siSel = 0 ∧
      t.candSel = 0 ∧ t.cw = 0 ∧ t.syndrome = 0 ∧ t.decInfo = 0 ∧ t.corrected = 0 ∧ t.msg = 0 ∧
      t.candCount = 0 ∧ t.best = 0 ∧ t.bestSum = 0

/-- While reset is asserted an access in the window is ignored (R300). That this holds whatever the access's shape, so that a misshapen
one in reset is no BusError, is the model's DESIGN CHOICE (log 12), which weighs R300 against the order of R75; that a POLL's read is
ignored and the poll then ends is the model's too (log 13). -/
def Obligations.AccessesDuringResetAreIgnored : Prop :=
  ∀ (s : State) (e : BusEvent) (rest : List BusEvent), s.deliversNow e rest → s.inReset = true →
    e.plain s.build = true →
    step s = .next { s with inbox := rest, delay := s.delay - 1, response := .ignored }

/-- Every step keeps every register within its width and every array at its size (R13, R76), and CAND_COUNT, BEST and DEC_INFO legal
(R48, R52, R54). -/
def Obligations.EveryStepKeepsWidthsAndResults : Prop :=
  ∀ s t : State, s.Widths → s.ResultsLegal → step s = .next t → t.Widths ∧ t.ResultsLegal

/-- Every step keeps the command handshake: CMD is the pending command (R88), and a read of CMD returns it (log 27), an idle block
waits for nothing (the delay counter is the model's, log 5), a block in reset has none pending (R42, R55, R88, R89, R300). -/
def Obligations.EveryStepKeepsTheHandshake : Prop :=
  ∀ s t : State, s.Protocol → step s = .next t →
    t.Protocol ∧ ∀ w, t.pending = some w → t.readWindow 0x000 = w

/-- Every step keeps this: while CFG_OK = 1 the configuration passes the COMMIT check, and the candidates in use are distinct codewords
of it (R36, R193). -/
def Obligations.EveryStepKeepsTheCommittedConfiguration : Prop :=
  ∀ s t : State, s.Widths → s.CommittedState → step s = .next t → t.CommittedState

/-- The reset state, and the state after reset of any legal build with any contents of the unspecified arrays, meets every
invariant (R301, R302; the build and the zeros of State.reset are the model's, log 1, log 2, log 3, log 4). -/
def Obligations.InvariantsHoldAfterReset : Prop :=
  (State.reset.Widths ∧ State.reset.ResultsLegal ∧ State.reset.Protocol ∧ State.reset.CommittedState) ∧
  ∀ (b : Build) (row : List Codeword) (col : List Syndrome) (si candCw : List Codeword) (candScore : List Word),
    b.wellFormed = true → row.length = b.r → (∀ x ∈ row, fits b.n x) → col.length = b.n →
    (∀ x ∈ col, fits b.r x) → si.length = b.siCap → (∀ x ∈ si, fits b.n x) → candCw.length = b.candCap →
    (∀ x ∈ candCw, fits b.n x) → candScore.length = b.candCap →
    (State.fresh b row col si candCw candScore).Widths ∧
    (State.fresh b row col si candCw candScore).ResultsLegal ∧
    (State.fresh b row col si candCw candScore).Protocol ∧
    (State.fresh b row col si candCw candScore).CommittedState

/-- While idle, a write to CFG, SI_COUNT, SI_SEL or CAND_SEL reads back masked to its 2, 8, 8 or 16 bits and changes no other register,
but that a CFG write clears CFG_OK (R33, R37, R39, R40, R41, R76). -/
def Obligations.ControlRegistersReadBackMasked : Prop :=
  ∀ (s : State) (v : Word), s.busy = false →
    (s.writeWindow 0x010 v = { s with layout := v.getLsbD 0, distMode := v.getLsbD 1, cfgOk := false } ∧
      (s.writeWindow 0x010 v).readWindow 0x010 = v &&& 0x3) ∧
    (s.writeWindow 0x014 v = { s with siCount := v.extractLsb' 0 8 } ∧
      (s.writeWindow 0x014 v).readWindow 0x014 = v &&& 0xFF) ∧
    (s.writeWindow 0x018 v = { s with siSel := v.extractLsb' 0 8 } ∧
      (s.writeWindow 0x018 v).readWindow 0x018 = v &&& 0xFF) ∧
    (s.writeWindow 0x01C v = { s with candSel := v.extractLsb' 0 16 } ∧
      (s.writeWindow 0x01C v).readWindow 0x01C = v &&& 0xFFFF)
end

