-- ==== Sys2Proof/Laws/Bits.lean ====
section
/-! SUPPORT. Bit-level lemmas of the operations of Machine/Bits.lean: what each bit of the result is. -/

namespace Sys2Proof.Machine

@[simp] theorem getLsbD_lowBits {m : Nat} (w : Nat) (v : BitVec m) (i : Nat) :
    (lowBits w v).getLsbD i = (decide (i < w) && v.getLsbD i) := by
  simp only [lowBits, BitVec.getLsbD_and, BitVec.getLsbD_ofNat, Nat.testBit_two_pow_sub_one]
  rcases Nat.lt_or_ge i m with h | h
  · cases v.getLsbD i <;> simp [h]
  · simp [BitVec.getLsbD_of_ge v i h]

@[simp] theorem getLsbD_oneBit (j i : Nat) :
    (oneBit j).getLsbD i = (decide (i < 256) && decide (i = j)) := by
  rw [Bool.eq_iff_iff]
  simp [oneBit]
  omega

@[simp] theorem getLsbD_patternAt (p : Pattern) (k i : Nat) :
    (patternAt p k).getLsbD i = (decide (i < 256) && decide (4 * k ≤ i) && p.getLsbD (i - 4 * k)) := by
  rw [Bool.eq_iff_iff]
  simp [patternAt]
  omega

@[simp] theorem getLsbD_limb (l : Nat) (v : Codeword) (i : Nat) :
    (limb l v).getLsbD i = (decide (i < 32) && v.getLsbD (32 * l + i)) := by
  simp [limb]

@[simp] theorem getLsbD_limbField (l i : Nat) :
    (limbField l).getLsbD i = (decide (i < 256) && decide (32 * l ≤ i) && decide (i < 32 * l + 32)) := by
  simp only [limbField, BitVec.getLsbD_shiftLeft, BitVec.getLsbD_setWidth, BitVec.getLsbD_allOnes]
  rw [Bool.eq_iff_iff]
  simp only [Bool.and_eq_true, decide_eq_true_eq, Bool.not_eq_true', decide_eq_false_iff_not]
  omega

/-- What a limb write does to every bit: inside the limb the data below the width, else the old bit. -/
theorem getLsbD_setLimb (width l : Nat) (w : Word) (v : Codeword) (i : Nat) (hi : i < 256) :
    (setLimb width l w v).getLsbD i =
      if 32 * l ≤ i ∧ i < 32 * l + 32 then decide (i < width) && w.getLsbD (i - 32 * l) else v.getLsbD i := by
  simp only [setLimb, BitVec.getLsbD_or, BitVec.getLsbD_and, BitVec.getLsbD_not, getLsbD_limbField, getLsbD_lowBits,
    BitVec.getLsbD_shiftLeft, BitVec.getLsbD_setWidth, hi]
  split_ifs with h
  · have h2 : i - 32 * l < 256 := by omega
    simp [h, h2, Nat.not_lt.2 h.1]
  · have hw : (decide (32 * l ≤ i) && w.getLsbD (i - 32 * l)) = false := by
      rcases Nat.lt_or_ge i (32 * l) with h' | h'
      · simp [Nat.not_le.2 h']
      · rw [BitVec.getLsbD_of_ge w _ (by omega), Bool.and_false]
    have hf : (decide (32 * l ≤ i) && decide (i < 32 * l + 32)) = false := by
      rw [Bool.and_eq_false_iff]
      simp only [decide_eq_false_iff_not]
      omega
    have hd : (!decide (i < 32 * l)) = decide (32 * l ≤ i) := by
      rw [Bool.eq_iff_iff]
      simp
    have hz : (decide (32 * l ≤ i) && (decide (i - 32 * l < 256) && w.getLsbD (i - 32 * l))) = false := by
      rw [Bool.and_left_comm, hw, Bool.and_false]
    simp only [decide_true, Bool.true_and, hd, hz, hf, Bool.and_false, Bool.or_false, Bool.not_false, Bool.and_true]

theorem fits_iff {m : Nat} (w : Nat) (v : BitVec m) : fits w v ↔ ∀ i, w ≤ i → v.getLsbD i = false := by
  constructor
  · intro h i hi
    have := congrArg (BitVec.getLsbD · i) h
    simpa [Nat.not_lt.2 hi] using this.symm
  · intro h
    refine BitVec.eq_of_getLsbD_eq fun i _ => ?_
    rcases Nat.lt_or_ge i w with hw | hw
    · simp [hw]
    · simp [h i hw]

@[simp] theorem fits_lowBits {m : Nat} (w : Nat) (v : BitVec m) : fits w (lowBits w v) := by
  simp only [fits_iff, getLsbD_lowBits]
  intro i hi
  simp [Nat.not_lt.2 hi]

@[simp] theorem fits_zero {m : Nat} (w : Nat) : fits w (0 : BitVec m) := by simp [fits_iff]

theorem fits_xor {m : Nat} {w : Nat} {a b : BitVec m} (ha : fits w a) (hb : fits w b) : fits w (a ^^^ b) := by
  rw [fits_iff] at *
  intro i hi
  simp [ha i hi, hb i hi]

theorem fits_setLimb {width l : Nat} {w : Word} {v : Codeword} (hv : fits width v) :
    fits width (setLimb width l w v) := by
  rw [fits_iff] at *
  intro i hi
  rcases Nat.lt_or_ge i 256 with h | h
  · rw [getLsbD_setLimb _ _ _ _ _ h]
    split_ifs
    · simp [Nat.not_lt.2 hi]
    · exact hv i hi
  · exact BitVec.getLsbD_of_ge _ _ h

/-- A pattern of a symbol below `n / 4` has width `n`. -/
theorem fits_patternAt {n k : Nat} (p : Pattern) (hn : n % 4 = 0) (hk : k < n / 4) : fits n (patternAt p k) := by
  rw [fits_iff]
  intro i hi
  simp only [getLsbD_patternAt]
  rw [BitVec.getLsbD_of_ge p (i - 4 * k) (by omega), Bool.and_false]

@[simp] theorem parity_zero (m w : Nat) : parity w (0 : BitVec m) = false := by
  induction w <;> simp_all [parity]

theorem parity_xor {m : Nat} (w : Nat) (a b : BitVec m) : parity w (a ^^^ b) = (parity w a ^^ parity w b) := by
  induction w with
  | zero => rfl
  | succ w ih =>
    simp only [parity, ih, BitVec.getLsbD_xor]
    cases parity w a <;> cases parity w b <;> cases a.getLsbD w <;> cases b.getLsbD w <;> rfl

/-- Parity is the low bit of the number of set bits (00_scope.md R15, R16). -/
theorem parity_eq_popcount {m : Nat} (w : Nat) (v : BitVec m) : parity w v = decide (popcount w v % 2 = 1) := by
  induction w with
  | zero => rfl
  | succ w ih =>
    simp only [parity, popcount, ih]
    have key : ∀ (n : Nat) (b : Bool), (decide (n % 2 = 1) ^^ b) = decide ((n + b.toNat) % 2 = 1) := by
      intro n b
      rcases Nat.mod_two_eq_zero_or_one n with h | h <;> cases b <;> simp [h, Nat.add_mod]
    exact key _ _

/-- The parity of a row ANDed with `e_j` is bit j of the row. -/
theorem parity_and_oneBit (w j : Nat) (v : Codeword) (hw : w ≤ 256) :
    parity w (v &&& oneBit j) = (decide (j < w) && v.getLsbD j) := by
  induction w with
  | zero => simp [parity]
  | succ w ih =>
    simp only [parity, ih (by omega), BitVec.getLsbD_and, getLsbD_oneBit]
    rcases Nat.lt_trichotomy j w with h | h | h
    · simp [h, Nat.lt_succ_of_lt h, Nat.ne_of_gt h]
    · subst h
      simp [show j < 256 by omega]
    · simp [Nat.not_lt.2 (Nat.le_of_lt h), show ¬ j < w + 1 by omega, Nat.ne_of_lt h]

theorem popcount_le {m : Nat} (w : Nat) (v : BitVec m) : popcount w v ≤ w := by
  induction w with
  | zero => simp [popcount]
  | succ w ih =>
    have : (v.getLsbD w).toNat ≤ 1 := Bool.toNat_le _
    simp only [popcount]
    omega

end Sys2Proof.Machine
end

