-- ==== Sys2Proof/Laws/Code.lean ====
section
/-! SUPPORT. What the pure functions of the spec do, each said once: the bits of a syndrome, the cases of a decode, the trial
strings of the enumerator, the sweep, the scan for the earliest minimum. -/

namespace Sys2Proof.Machine

/-- The fold of `syn` over the first `m` rows, bit by bit. -/
theorem synFold_getLsbD (c : Code) (v : Codeword) (k : Nat) (hk : k < 32) (m : Nat) (hm : m ≤ c.r) :
    ((List.range m).foldl
      (fun s i => if parity c.n (c.rowAt i &&& v) then s ||| (1#32 <<< (c.r - 1 - i)) else s)
      (0 : Syndrome)).getLsbD k =
      (decide (k < c.r) && decide (c.r - 1 - k < m) && parity c.n (c.rowAt (c.r - 1 - k) &&& v)) := by
  induction m with
  | zero => simp
  | succ m ih =>
    have bit : (1#32 <<< (c.r - 1 - m)).getLsbD k = decide (k = c.r - 1 - m) := by
      rw [Bool.eq_iff_iff]
      simp only [BitVec.getLsbD_shiftLeft, BitVec.getLsbD_one, Bool.and_eq_true, decide_eq_true_eq, Bool.not_eq_true',
        decide_eq_false_iff_not]
      omega
    have split : (decide (k < c.r) && decide (c.r - 1 - k < m + 1)) =
        (decide (k < c.r) && (decide (c.r - 1 - k < m) || decide (k = c.r - 1 - m))) := by
      rw [Bool.eq_iff_iff]
      simp only [Bool.and_eq_true, Bool.or_eq_true, decide_eq_true_eq]
      omega
    rw [List.range_succ, List.foldl_append, List.foldl_cons, List.foldl_nil, split]
    by_cases hkm : k = c.r - 1 - m
    · have hmk : c.r - 1 - k = m := by omega
      split_ifs with hp
      · rw [BitVec.getLsbD_or, ih (by omega), bit, hmk, hp]
        simp [hkm, show c.r - 1 - m < c.r by omega]
      · rw [ih (by omega), hmk]
        simp [hp]
    · split_ifs
      · rw [BitVec.getLsbD_or, ih (by omega), bit]
        simp [hkm]
      · rw [ih (by omega)]
        simp [hkm]

/-- Bit k of a syndrome is the parity of row R-1-k, and no bit stands at or above R (40_syndrome.md R130). -/
theorem Code.syn_getLsbD (c : Code) (v : Codeword) (k : Nat) (hk : k < 32) :
    (c.syn v).getLsbD k = (decide (k < c.r) && parity c.n (c.rowAt (c.r - 1 - k) &&& v)) := by
  rw [Code.syn, synFold_getLsbD c v k hk c.r (Nat.le_refl _)]
  by_cases h : k < c.r
  · simp [h, show c.r - 1 - k < c.r by omega]
  · simp [h]

theorem Code.fits_syn (c : Code) (v : Codeword) : fits c.r (c.syn v) := by
  rw [fits_iff]
  intro i hi
  rcases Nat.lt_or_ge i 32 with h | h
  · rw [c.syn_getLsbD v i h]
    simp [Nat.not_lt.2 hi]
  · exact BitVec.getLsbD_of_ge _ _ h

theorem Code.fits_msg (c : Code) (v : Codeword) : fits c.k (c.msg v) := by
  unfold Code.msg
  split <;> exact fits_lowBits _ _

/-- Everything a decode can answer (41_decoder.md R150): no error for a zero syndrome, the first trial whose columns sum to the
syndrome, or DUE. -/
theorem Code.decode_cases (c : Code) (v : Codeword) (s : Syndrome) :
    (s = 0 ∧ c.decode v s = ⟨.noError, v, 0, 0, 0⟩) ∨
    (s ≠ 0 ∧ ∃ t, c.trials.find? (fun t => c.colSum t.sym t.mask == s) = some t ∧
      c.decode v s = ⟨.corrected, v ^^^ patternAt t.mask t.sym, t.tier, t.sym, t.mask⟩) ∨
    (s ≠ 0 ∧ c.trials.find? (fun t => c.colSum t.sym t.mask == s) = none ∧
      c.decode v s = ⟨.due, v, 0, 0, 0⟩) := by
  by_cases h : s = 0
  · exact .inl ⟨h, by simp [Code.decode, h]⟩
  · right
    simp only [Code.decode, if_neg h]
    cases hf : c.trials.find? (fun t => c.colSum t.sym t.mask == s) with
    | some t => exact .inl ⟨h, t, rfl, rfl⟩
    | none => exact .inr ⟨h, rfl, rfl⟩

/-- The trials of the decoder: a tier, a symbol of the codeword and a mask of that tier (41_decoder.md R152 to R155). -/
theorem Code.mem_trials (c : Code) (hn : c.n % 4 = 0) (t : Trial) :
    t ∈ c.trials ↔ t.sym < c.nsym ∧ t.mask ∈ tierMasks t.tier := by
  have one : ∀ b, b < 4 → (1#4 <<< b) ∈ tierMasks 1 := by decide
  obtain ⟨tier, k, m⟩ := t
  simp only [Code.trials, tier1, tier2, tierCombinations, List.mem_append, List.mem_map, List.mem_flatMap, List.mem_range,
    Trial.mk.injEq, Code.nsym]
  constructor
  · rintro (((⟨j, hj, rfl, rfl, rfl⟩ | ⟨k, hk, rfl, rfl, rfl⟩) | ⟨k, hk, ps, hps, rfl, rfl, rfl⟩) |
      ⟨k, hk, ps, hps, rfl, rfl, rfl⟩)
    · exact ⟨by omega, one _ (Nat.mod_lt _ (by decide))⟩
    · exact ⟨hk, by decide⟩
    · refine ⟨hk, ?_⟩
      revert ps
      decide
    · refine ⟨hk, ?_⟩
      revert ps
      decide
  · rintro ⟨hk, hm⟩
    match tier, hm with
    | 1, hm =>
      have : ∀ m ∈ tierMasks 1, ∃ b, b < 4 ∧ 1#4 <<< b = m := by decide
      obtain ⟨b, hb, rfl⟩ := this m hm
      exact .inl (.inl (.inl ⟨4 * k + b, by omega, rfl, by omega, by rw [show (4 * k + b) % 4 = b by omega]⟩))
    | 2, hm =>
      have : ∀ m ∈ tierMasks 2, m = 0xF := by decide
      exact .inl (.inl (.inr ⟨k, hk, rfl, rfl, (this m hm).symm⟩))
    | 3, hm =>
      have : ∀ m ∈ tierMasks 3, ∃ ps ∈ tier3Positions, maskOf ps = m := by decide
      obtain ⟨ps, hps, rfl⟩ := this m hm
      exact .inl (.inr ⟨k, hk, ps, hps, rfl, rfl, rfl⟩)
    | 4, hm =>
      have : ∀ m ∈ tierMasks 4, ∃ ps ∈ tier4Positions, maskOf ps = m := by decide
      obtain ⟨ps, hps, rfl⟩ := this m hm
      exact .inr ⟨k, hk, ps, hps, rfl, rfl, rfl⟩

/-- The trial strings of the enumerator: one pattern in one symbol (42_enumerator.md R183, R184). -/
theorem Code.mem_trialStrings (c : Code) (v t : Codeword) :
    t ∈ c.trialStrings v ↔ ∃ k p, k < c.nsym ∧ p < 16 ∧ t = v ^^^ patternAt (BitVec.ofNat 4 p) k := by
  simp only [Code.trialStrings, List.mem_flatMap, List.mem_map, List.mem_range]
  constructor
  · rintro ⟨k, hk, p, hp, rfl⟩
    exact ⟨k, p, hk, hp, rfl⟩
  · rintro ⟨k, p, hk, hp, rfl⟩
    exact ⟨k, hk, p, hp, rfl⟩

/-- One sweep step: no candidate, a duplicate, a full list, or a new entry (42_enumerator.md R186 to R188). -/
theorem Code.sweep_cons (c : Code) (maxc : Nat) (t : Codeword) (ts list : List Codeword) :
    c.sweep maxc (t :: ts) list =
      match c.candidateOf t with
      | none => c.sweep maxc ts list
      | some x =>
        if x ∈ list then c.sweep maxc ts list
        else if list.length = maxc then none
        else c.sweep maxc ts (list ++ [x]) := rfl

/-- A sweep that ends with a list kept what it had, added only candidates of its trial strings, kept all of them, stayed free of
duplicates and within the bound. -/
theorem Code.sweep_some (c : Code) (maxc : Nat) :
    ∀ (ts list out : List Codeword), c.sweep maxc ts list = some out → list.Nodup → list.length ≤ maxc →
      out.Nodup ∧ out.length ≤ maxc ∧
      ∀ x, x ∈ out ↔ x ∈ list ∨ ∃ t ∈ ts, c.candidateOf t = some x := by
  intro ts
  induction ts with
  | nil =>
    rintro list out h hnd hlen
    obtain rfl : list = out := by simpa [Code.sweep] using h
    exact ⟨hnd, hlen, by simp⟩
  | cons t ts ih =>
    intro list out h hnd hlen
    rw [Code.sweep_cons] at h
    cases hc : c.candidateOf t with
    | none =>
      rw [hc] at h
      obtain ⟨h1, h2, h3⟩ := ih list out h hnd hlen
      exact ⟨h1, h2, fun x => by simp [h3, hc]⟩
    | some y =>
      simp only [hc] at h
      split_ifs at h with hy hfull
      · obtain ⟨h1, h2, h3⟩ := ih list out h hnd hlen
        refine ⟨h1, h2, fun x => ?_⟩
        simp only [h3, List.mem_cons, exists_eq_or_imp, hc, Option.some.injEq]
        constructor
        · tauto
        · rintro (h | rfl | h)
          · exact .inl h
          · exact .inl hy
          · exact .inr h
      · obtain ⟨h1, h2, h3⟩ := ih (list ++ [y]) out h
          (by
            rw [List.nodup_append]
            exact ⟨hnd, by simp, fun a ha b hb => by
              rw [List.mem_singleton] at hb
              rintro rfl
              exact hy (hb ▸ ha)⟩)
          (by simp; omega)
        refine ⟨h1, h2, fun x => ?_⟩
        simp only [h3, List.mem_append, List.mem_cons, List.not_mem_nil, or_false, exists_eq_or_imp, hc, Option.some.injEq]
        constructor
        · rintro ((h | rfl) | h)
          · exact .inl h
          · exact .inr (.inl rfl)
          · exact .inr (.inr h)
        · rintro (h | rfl | h)
          · exact .inl (.inl h)
          · exact .inl (.inr rfl)
          · exact .inr h

/-- Everything `enumerate` can answer (42_enumerator.md R180). -/
theorem Code.enumerate_cases (c : Code) (v : Codeword) (maxc : Nat) :
    (c.sweep maxc (c.trialStrings v) [] = none ∧ c.enumerate v maxc = .capacity) ∨
    (c.sweep maxc (c.trialStrings v) [] = some [] ∧ c.enumerate v maxc = .unrecoverable) ∨
    (∃ list, list ≠ [] ∧ c.sweep maxc (c.trialStrings v) [] = some list ∧ c.enumerate v maxc = .candidates list) := by
  unfold Code.enumerate
  cases h : c.sweep maxc (c.trialStrings v) [] with
  | none => exact .inl ⟨rfl, rfl⟩
  | some list =>
    cases list with
    | nil => exact .inr (.inl ⟨rfl, rfl⟩)
    | cons x xs => exact .inr (.inr ⟨x :: xs, by simp, rfl, rfl⟩)

/-- The list `enumerate` answers comes from the sweep. -/
theorem Code.enumerate_candidates (c : Code) (v : Codeword) (maxc : Nat) (list : List Codeword)
    (h : c.enumerate v maxc = .candidates list) :
    list ≠ [] ∧ c.sweep maxc (c.trialStrings v) [] = some list := by
  rcases c.enumerate_cases v maxc with ⟨_, h'⟩ | ⟨_, h'⟩ | ⟨l, hl, hs, h'⟩
  · simp [h'] at h
  · simp [h'] at h
  · obtain rfl : l = list := by simpa [h'] using h
    exact ⟨hl, hs⟩

/-- The scan from an index with the best so far: the answer is an index scanned or the one brought along, no score is smaller,
and every score before it is larger (43_scorer.md R213). -/
theorem bestScan_spec (scores : List Nat) : ∀ (rest : List Nat) (i best bestScore : Nat),
    scores.drop i = rest → best < i → scores.getD best 0 = bestScore →
    (∀ c, c < i → bestScore ≤ scores.getD c 0) → (∀ c, c < best → bestScore < scores.getD c 0) →
    i ≤ scores.length →
    bestScan rest i best bestScore < scores.length ∧
    (∀ c, c < scores.length → scores.getD (bestScan rest i best bestScore) 0 ≤ scores.getD c 0) ∧
    (∀ c, c < bestScan rest i best bestScore →
      scores.getD (bestScan rest i best bestScore) 0 < scores.getD c 0) := by
  intro rest
  induction rest with
  | nil =>
    intro i best bestScore hd hb hs hle hlt hi
    have : scores.length ≤ i := by
      have := congrArg List.length hd
      simp at this
      omega
    simp only [bestScan, hs]
    exact ⟨by omega, fun c hc => hle c (by omega), hlt⟩
  | cons x rest ih =>
    intro i best bestScore hd hb hs hle hlt hi
    have hil : i < scores.length := by
      have := congrArg List.length hd
      simp at this
      omega
    have hx : scores.getD i 0 = x := by
      have := congrArg (fun l => l.getD 0 0) hd
      simpa [List.getD_eq_getElem?_getD, List.getElem?_drop] using this
    have hd' : scores.drop (i + 1) = rest := by
      rw [← List.drop_drop, hd]
      rfl
    unfold bestScan
    split_ifs with hlt'
    · refine ih (i + 1) i x hd' (by omega) hx (fun c hc => ?_) (fun c hc => ?_) (by omega)
      · rcases Nat.lt_or_ge c i with h | h
        · exact Nat.le_of_lt (Nat.lt_of_lt_of_le hlt' (hle c h))
        · rw [show c = i by omega, hx]
      · exact Nat.lt_of_lt_of_le hlt' (hle c hc)
    · refine ih (i + 1) best bestScore hd' (by omega) hs (fun c hc => ?_) hlt (by omega)
      rcases Nat.lt_or_ge c i with h | h
      · exact hle c h
      · rw [show c = i by omega, hx]
        omega

/-- `bestIndex` is the earliest index of a smallest score (43_scorer.md R213, R217). -/
theorem bestIndex_spec (scores : List Nat) (h : scores ≠ []) :
    bestIndex scores < scores.length ∧
    (∀ c, c < scores.length → scores.getD (bestIndex scores) 0 ≤ scores.getD c 0) ∧
    (∀ c, c < bestIndex scores → scores.getD (bestIndex scores) 0 < scores.getD c 0) := by
  cases scores with
  | nil => exact absurd rfl h
  | cons x rest =>
    refine bestScan_spec (x :: rest) rest 1 0 x rfl (by omega) rfl (fun c hc => ?_) (fun c hc => absurd hc (by omega))
      (by simp)
    rw [show c = 0 by omega]
    rfl

end Sys2Proof.Machine
end

