-- ==== Sys2Proof/Laws/State.lean ====
section
/-! SUPPORT. One lemma per field per update of the state, each true by rfl, so that no proof unfolds a record update. -/

namespace Sys2Proof.Machine

-- accept
@[simp] theorem State.accept_build (s : State) (v : Word) : (s.accept v).build = s.build := rfl
@[simp] theorem State.accept_cmd (s : State) (v : Word) : (s.accept v).cmd = v := rfl
@[simp] theorem State.accept_pending (s : State) (v : Word) : (s.accept v).pending = some v := rfl
@[simp] theorem State.accept_cfgOk (s : State) (v : Word) : (s.accept v).cfgOk = s.cfgOk := rfl
@[simp] theorem State.accept_overrun (s : State) (v : Word) : (s.accept v).overrun = s.overrun := rfl
@[simp] theorem State.accept_lastOp (s : State) (v : Word) : (s.accept v).lastOp = s.lastOp := rfl
@[simp] theorem State.accept_result (s : State) (v : Word) : (s.accept v).result = s.result := rfl
@[simp] theorem State.accept_layout (s : State) (v : Word) : (s.accept v).layout = s.layout := rfl
@[simp] theorem State.accept_distMode (s : State) (v : Word) : (s.accept v).distMode = s.distMode := rfl
@[simp] theorem State.accept_siCount (s : State) (v : Word) : (s.accept v).siCount = s.siCount := rfl
@[simp] theorem State.accept_siSel (s : State) (v : Word) : (s.accept v).siSel = s.siSel := rfl
@[simp] theorem State.accept_candSel (s : State) (v : Word) : (s.accept v).candSel = s.candSel := rfl
@[simp] theorem State.accept_row (s : State) (v : Word) : (s.accept v).row = s.row := rfl
@[simp] theorem State.accept_col (s : State) (v : Word) : (s.accept v).col = s.col := rfl
@[simp] theorem State.accept_cw (s : State) (v : Word) : (s.accept v).cw = s.cw := rfl
@[simp] theorem State.accept_si (s : State) (v : Word) : (s.accept v).si = s.si := rfl
@[simp] theorem State.accept_syndrome (s : State) (v : Word) : (s.accept v).syndrome = s.syndrome := rfl
@[simp] theorem State.accept_decInfo (s : State) (v : Word) : (s.accept v).decInfo = s.decInfo := rfl
@[simp] theorem State.accept_corrected (s : State) (v : Word) : (s.accept v).corrected = s.corrected := rfl
@[simp] theorem State.accept_msg (s : State) (v : Word) : (s.accept v).msg = s.msg := rfl
@[simp] theorem State.accept_candCount (s : State) (v : Word) : (s.accept v).candCount = s.candCount := rfl
@[simp] theorem State.accept_candCw (s : State) (v : Word) : (s.accept v).candCw = s.candCw := rfl
@[simp] theorem State.accept_candScore (s : State) (v : Word) : (s.accept v).candScore = s.candScore := rfl
@[simp] theorem State.accept_best (s : State) (v : Word) : (s.accept v).best = s.best := rfl
@[simp] theorem State.accept_bestSum (s : State) (v : Word) : (s.accept v).bestSum = s.bestSum := rfl
@[simp] theorem State.accept_inReset (s : State) (v : Word) : (s.accept v).inReset = s.inReset := rfl
@[simp] theorem State.accept_inbox (s : State) (v : Word) : (s.accept v).inbox = s.inbox := rfl
@[simp] theorem State.accept_response (s : State) (v : Word) : (s.accept v).response = s.response := rfl
@[simp] theorem State.accept_delay (s : State) (v : Word) : (s.accept v).delay = s.nextDelay := rfl
@[simp] theorem State.accept_delays (s : State) (v : Word) : (s.accept v).delays = s.delays.tail := rfl
@[simp] theorem State.accept_draws (s : State) (v : Word) : (s.accept v).draws = s.draws + 1 := rfl
@[simp] theorem State.accept_code (s : State) (v : Word) : (s.accept v).code = s.code := rfl
@[simp] theorem State.accept_candidates (s : State) (v : Word) : (s.accept v).candidates = s.candidates := rfl
@[simp] theorem State.accept_siWords (s : State) (v : Word) : (s.accept v).siWords = s.siWords := rfl

-- complete
@[simp] theorem State.complete_build (s : State) (op : BitVec 4) (code : ResultCode) :
    (s.complete op code).build = s.build := rfl
@[simp] theorem State.complete_cmd (s : State) (op : BitVec 4) (code : ResultCode) : (s.complete op code).cmd = s.cmd := rfl
@[simp] theorem State.complete_pending (s : State) (op : BitVec 4) (code : ResultCode) :
    (s.complete op code).pending = none := rfl
@[simp] theorem State.complete_cfgOk (s : State) (op : BitVec 4) (code : ResultCode) :
    (s.complete op code).cfgOk = s.cfgOk := rfl
@[simp] theorem State.complete_overrun (s : State) (op : BitVec 4) (code : ResultCode) :
    (s.complete op code).overrun = s.overrun := rfl
@[simp] theorem State.complete_lastOp (s : State) (op : BitVec 4) (code : ResultCode) :
    (s.complete op code).lastOp = op := rfl
@[simp] theorem State.complete_result (s : State) (op : BitVec 4) (code : ResultCode) :
    (s.complete op code).result = code := rfl
@[simp] theorem State.complete_layout (s : State) (op : BitVec 4) (code : ResultCode) :
    (s.complete op code).layout = s.layout := rfl
@[simp] theorem State.complete_distMode (s : State) (op : BitVec 4) (code : ResultCode) :
    (s.complete op code).distMode = s.distMode := rfl
@[simp] theorem State.complete_siCount (s : State) (op : BitVec 4) (code : ResultCode) :
    (s.complete op code).siCount = s.siCount := rfl
@[simp] theorem State.complete_siSel (s : State) (op : BitVec 4) (code : ResultCode) :
    (s.complete op code).siSel = s.siSel := rfl
@[simp] theorem State.complete_candSel (s : State) (op : BitVec 4) (code : ResultCode) :
    (s.complete op code).candSel = s.candSel := rfl
@[simp] theorem State.complete_row (s : State) (op : BitVec 4) (code : ResultCode) : (s.complete op code).row = s.row := rfl
@[simp] theorem State.complete_col (s : State) (op : BitVec 4) (code : ResultCode) : (s.complete op code).col = s.col := rfl
@[simp] theorem State.complete_cw (s : State) (op : BitVec 4) (code : ResultCode) : (s.complete op code).cw = s.cw := rfl
@[simp] theorem State.complete_si (s : State) (op : BitVec 4) (code : ResultCode) : (s.complete op code).si = s.si := rfl
@[simp] theorem State.complete_syndrome (s : State) (op : BitVec 4) (code : ResultCode) :
    (s.complete op code).syndrome = s.syndrome := rfl
@[simp] theorem State.complete_decInfo (s : State) (op : BitVec 4) (code : ResultCode) :
    (s.complete op code).decInfo = s.decInfo := rfl
@[simp] theorem State.complete_corrected (s : State) (op : BitVec 4) (code : ResultCode) :
    (s.complete op code).corrected = s.corrected := rfl
@[simp] theorem State.complete_msg (s : State) (op : BitVec 4) (code : ResultCode) : (s.complete op code).msg = s.msg := rfl
@[simp] theorem State.complete_candCount (s : State) (op : BitVec 4) (code : ResultCode) :
    (s.complete op code).candCount = s.candCount := rfl
@[simp] theorem State.complete_candCw (s : State) (op : BitVec 4) (code : ResultCode) :
    (s.complete op code).candCw = s.candCw := rfl
@[simp] theorem State.complete_candScore (s : State) (op : BitVec 4) (code : ResultCode) :
    (s.complete op code).candScore = s.candScore := rfl
@[simp] theorem State.complete_best (s : State) (op : BitVec 4) (code : ResultCode) :
    (s.complete op code).best = s.best := rfl
@[simp] theorem State.complete_bestSum (s : State) (op : BitVec 4) (code : ResultCode) :
    (s.complete op code).bestSum = s.bestSum := rfl
@[simp] theorem State.complete_inReset (s : State) (op : BitVec 4) (code : ResultCode) :
    (s.complete op code).inReset = s.inReset := rfl
@[simp] theorem State.complete_inbox (s : State) (op : BitVec 4) (code : ResultCode) :
    (s.complete op code).inbox = s.inbox := rfl
@[simp] theorem State.complete_response (s : State) (op : BitVec 4) (code : ResultCode) :
    (s.complete op code).response = s.response := rfl
@[simp] theorem State.complete_delay (s : State) (op : BitVec 4) (code : ResultCode) : (s.complete op code).delay = 0 := rfl
@[simp] theorem State.complete_delays (s : State) (op : BitVec 4) (code : ResultCode) :
    (s.complete op code).delays = s.delays := rfl
@[simp] theorem State.complete_draws (s : State) (op : BitVec 4) (code : ResultCode) :
    (s.complete op code).draws = s.draws := rfl
@[simp] theorem State.complete_code (s : State) (op : BitVec 4) (code : ResultCode) : (s.complete op code).code = s.code := rfl
@[simp] theorem State.complete_candidates (s : State) (op : BitVec 4) (code : ResultCode) : (s.complete op code).candidates = s.candidates := rfl
@[simp] theorem State.complete_siWords (s : State) (op : BitVec 4) (code : ResultCode) : (s.complete op code).siWords = s.siWords := rfl

-- clearCandidates
@[simp] theorem State.clearCandidates_build (s : State) : (s.clearCandidates).build = s.build := rfl
@[simp] theorem State.clearCandidates_cmd (s : State) : (s.clearCandidates).cmd = s.cmd := rfl
@[simp] theorem State.clearCandidates_pending (s : State) : (s.clearCandidates).pending = s.pending := rfl
@[simp] theorem State.clearCandidates_cfgOk (s : State) : (s.clearCandidates).cfgOk = s.cfgOk := rfl
@[simp] theorem State.clearCandidates_overrun (s : State) : (s.clearCandidates).overrun = s.overrun := rfl
@[simp] theorem State.clearCandidates_lastOp (s : State) : (s.clearCandidates).lastOp = s.lastOp := rfl
@[simp] theorem State.clearCandidates_result (s : State) : (s.clearCandidates).result = s.result := rfl
@[simp] theorem State.clearCandidates_layout (s : State) : (s.clearCandidates).layout = s.layout := rfl
@[simp] theorem State.clearCandidates_distMode (s : State) : (s.clearCandidates).distMode = s.distMode := rfl
@[simp] theorem State.clearCandidates_siCount (s : State) : (s.clearCandidates).siCount = s.siCount := rfl
@[simp] theorem State.clearCandidates_siSel (s : State) : (s.clearCandidates).siSel = s.siSel := rfl
@[simp] theorem State.clearCandidates_candSel (s : State) : (s.clearCandidates).candSel = s.candSel := rfl
@[simp] theorem State.clearCandidates_row (s : State) : (s.clearCandidates).row = s.row := rfl
@[simp] theorem State.clearCandidates_col (s : State) : (s.clearCandidates).col = s.col := rfl
@[simp] theorem State.clearCandidates_cw (s : State) : (s.clearCandidates).cw = s.cw := rfl
@[simp] theorem State.clearCandidates_si (s : State) : (s.clearCandidates).si = s.si := rfl
@[simp] theorem State.clearCandidates_syndrome (s : State) : (s.clearCandidates).syndrome = s.syndrome := rfl
@[simp] theorem State.clearCandidates_decInfo (s : State) : (s.clearCandidates).decInfo = s.decInfo := rfl
@[simp] theorem State.clearCandidates_corrected (s : State) : (s.clearCandidates).corrected = s.corrected := rfl
@[simp] theorem State.clearCandidates_msg (s : State) : (s.clearCandidates).msg = s.msg := rfl
@[simp] theorem State.clearCandidates_candCount (s : State) : (s.clearCandidates).candCount = 0 := rfl
@[simp] theorem State.clearCandidates_candCw (s : State) : (s.clearCandidates).candCw = s.candCw := rfl
@[simp] theorem State.clearCandidates_candScore (s : State) : (s.clearCandidates).candScore = s.candScore := rfl
@[simp] theorem State.clearCandidates_best (s : State) : (s.clearCandidates).best = 0 := rfl
@[simp] theorem State.clearCandidates_bestSum (s : State) : (s.clearCandidates).bestSum = 0 := rfl
@[simp] theorem State.clearCandidates_inReset (s : State) : (s.clearCandidates).inReset = s.inReset := rfl
@[simp] theorem State.clearCandidates_inbox (s : State) : (s.clearCandidates).inbox = s.inbox := rfl
@[simp] theorem State.clearCandidates_response (s : State) : (s.clearCandidates).response = s.response := rfl
@[simp] theorem State.clearCandidates_delay (s : State) : (s.clearCandidates).delay = s.delay := rfl
@[simp] theorem State.clearCandidates_delays (s : State) : (s.clearCandidates).delays = s.delays := rfl
@[simp] theorem State.clearCandidates_draws (s : State) : (s.clearCandidates).draws = s.draws := rfl
@[simp] theorem State.clearCandidates_code (s : State) : (s.clearCandidates).code = s.code := rfl
@[simp] theorem State.clearCandidates_siWords (s : State) : (s.clearCandidates).siWords = s.siWords := rfl
@[simp] theorem State.clearCandidates_busy (s : State) : (s.clearCandidates).busy = s.busy := rfl

-- storeCandidates
@[simp] theorem State.storeCandidates_build (s : State) (list : List Codeword) :
    (s.storeCandidates list).build = s.build := rfl
@[simp] theorem State.storeCandidates_cmd (s : State) (list : List Codeword) : (s.storeCandidates list).cmd = s.cmd := rfl
@[simp] theorem State.storeCandidates_pending (s : State) (list : List Codeword) :
    (s.storeCandidates list).pending = s.pending := rfl
@[simp] theorem State.storeCandidates_cfgOk (s : State) (list : List Codeword) :
    (s.storeCandidates list).cfgOk = s.cfgOk := rfl
@[simp] theorem State.storeCandidates_overrun (s : State) (list : List Codeword) :
    (s.storeCandidates list).overrun = s.overrun := rfl
@[simp] theorem State.storeCandidates_lastOp (s : State) (list : List Codeword) :
    (s.storeCandidates list).lastOp = s.lastOp := rfl
@[simp] theorem State.storeCandidates_result (s : State) (list : List Codeword) :
    (s.storeCandidates list).result = s.result := rfl
@[simp] theorem State.storeCandidates_layout (s : State) (list : List Codeword) :
    (s.storeCandidates list).layout = s.layout := rfl
@[simp] theorem State.storeCandidates_distMode (s : State) (list : List Codeword) :
    (s.storeCandidates list).distMode = s.distMode := rfl
@[simp] theorem State.storeCandidates_siCount (s : State) (list : List Codeword) :
    (s.storeCandidates list).siCount = s.siCount := rfl
@[simp] theorem State.storeCandidates_siSel (s : State) (list : List Codeword) :
    (s.storeCandidates list).siSel = s.siSel := rfl
@[simp] theorem State.storeCandidates_candSel (s : State) (list : List Codeword) :
    (s.storeCandidates list).candSel = s.candSel := rfl
@[simp] theorem State.storeCandidates_row (s : State) (list : List Codeword) : (s.storeCandidates list).row = s.row := rfl
@[simp] theorem State.storeCandidates_col (s : State) (list : List Codeword) : (s.storeCandidates list).col = s.col := rfl
@[simp] theorem State.storeCandidates_cw (s : State) (list : List Codeword) : (s.storeCandidates list).cw = s.cw := rfl
@[simp] theorem State.storeCandidates_si (s : State) (list : List Codeword) : (s.storeCandidates list).si = s.si := rfl
@[simp] theorem State.storeCandidates_syndrome (s : State) (list : List Codeword) :
    (s.storeCandidates list).syndrome = s.syndrome := rfl
@[simp] theorem State.storeCandidates_decInfo (s : State) (list : List Codeword) :
    (s.storeCandidates list).decInfo = s.decInfo := rfl
@[simp] theorem State.storeCandidates_corrected (s : State) (list : List Codeword) :
    (s.storeCandidates list).corrected = s.corrected := rfl
@[simp] theorem State.storeCandidates_msg (s : State) (list : List Codeword) : (s.storeCandidates list).msg = s.msg := rfl
@[simp] theorem State.storeCandidates_candCount (s : State) (list : List Codeword) :
    (s.storeCandidates list).candCount = BitVec.ofNat 16 list.length := rfl
@[simp] theorem State.storeCandidates_candCw (s : State) (list : List Codeword) :
    (s.storeCandidates list).candCw = list ++ s.candCw.drop list.length := rfl
@[simp] theorem State.storeCandidates_candScore (s : State) (list : List Codeword) :
    (s.storeCandidates list).candScore = List.replicate list.length 0 ++ s.candScore.drop list.length := rfl
@[simp] theorem State.storeCandidates_best (s : State) (list : List Codeword) : (s.storeCandidates list).best = 0 := rfl
@[simp] theorem State.storeCandidates_bestSum (s : State) (list : List Codeword) :
    (s.storeCandidates list).bestSum = 0 := rfl
@[simp] theorem State.storeCandidates_inReset (s : State) (list : List Codeword) :
    (s.storeCandidates list).inReset = s.inReset := rfl
@[simp] theorem State.storeCandidates_inbox (s : State) (list : List Codeword) :
    (s.storeCandidates list).inbox = s.inbox := rfl
@[simp] theorem State.storeCandidates_response (s : State) (list : List Codeword) :
    (s.storeCandidates list).response = s.response := rfl
@[simp] theorem State.storeCandidates_delay (s : State) (list : List Codeword) :
    (s.storeCandidates list).delay = s.delay := rfl
@[simp] theorem State.storeCandidates_delays (s : State) (list : List Codeword) :
    (s.storeCandidates list).delays = s.delays := rfl
@[simp] theorem State.storeCandidates_draws (s : State) (list : List Codeword) :
    (s.storeCandidates list).draws = s.draws := rfl
@[simp] theorem State.storeCandidates_code (s : State) (list : List Codeword) : (s.storeCandidates list).code = s.code := rfl
@[simp] theorem State.storeCandidates_siWords (s : State) (list : List Codeword) : (s.storeCandidates list).siWords = s.siWords := rfl
@[simp] theorem State.storeCandidates_busy (s : State) (list : List Codeword) : (s.storeCandidates list).busy = s.busy := rfl

-- setCfgOk
@[simp] theorem State.setCfgOk_build (s : State) (ok : Bool) : (s.setCfgOk ok).build = s.build := rfl
@[simp] theorem State.setCfgOk_cmd (s : State) (ok : Bool) : (s.setCfgOk ok).cmd = s.cmd := rfl
@[simp] theorem State.setCfgOk_pending (s : State) (ok : Bool) : (s.setCfgOk ok).pending = s.pending := rfl
@[simp] theorem State.setCfgOk_cfgOk (s : State) (ok : Bool) : (s.setCfgOk ok).cfgOk = ok := rfl
@[simp] theorem State.setCfgOk_overrun (s : State) (ok : Bool) : (s.setCfgOk ok).overrun = s.overrun := rfl
@[simp] theorem State.setCfgOk_lastOp (s : State) (ok : Bool) : (s.setCfgOk ok).lastOp = s.lastOp := rfl
@[simp] theorem State.setCfgOk_result (s : State) (ok : Bool) : (s.setCfgOk ok).result = s.result := rfl
@[simp] theorem State.setCfgOk_layout (s : State) (ok : Bool) : (s.setCfgOk ok).layout = s.layout := rfl
@[simp] theorem State.setCfgOk_distMode (s : State) (ok : Bool) : (s.setCfgOk ok).distMode = s.distMode := rfl
@[simp] theorem State.setCfgOk_siCount (s : State) (ok : Bool) : (s.setCfgOk ok).siCount = s.siCount := rfl
@[simp] theorem State.setCfgOk_siSel (s : State) (ok : Bool) : (s.setCfgOk ok).siSel = s.siSel := rfl
@[simp] theorem State.setCfgOk_candSel (s : State) (ok : Bool) : (s.setCfgOk ok).candSel = s.candSel := rfl
@[simp] theorem State.setCfgOk_row (s : State) (ok : Bool) : (s.setCfgOk ok).row = s.row := rfl
@[simp] theorem State.setCfgOk_col (s : State) (ok : Bool) : (s.setCfgOk ok).col = s.col := rfl
@[simp] theorem State.setCfgOk_cw (s : State) (ok : Bool) : (s.setCfgOk ok).cw = s.cw := rfl
@[simp] theorem State.setCfgOk_si (s : State) (ok : Bool) : (s.setCfgOk ok).si = s.si := rfl
@[simp] theorem State.setCfgOk_syndrome (s : State) (ok : Bool) : (s.setCfgOk ok).syndrome = s.syndrome := rfl
@[simp] theorem State.setCfgOk_decInfo (s : State) (ok : Bool) : (s.setCfgOk ok).decInfo = s.decInfo := rfl
@[simp] theorem State.setCfgOk_corrected (s : State) (ok : Bool) : (s.setCfgOk ok).corrected = s.corrected := rfl
@[simp] theorem State.setCfgOk_msg (s : State) (ok : Bool) : (s.setCfgOk ok).msg = s.msg := rfl
@[simp] theorem State.setCfgOk_candCount (s : State) (ok : Bool) : (s.setCfgOk ok).candCount = s.candCount := rfl
@[simp] theorem State.setCfgOk_candCw (s : State) (ok : Bool) : (s.setCfgOk ok).candCw = s.candCw := rfl
@[simp] theorem State.setCfgOk_candScore (s : State) (ok : Bool) : (s.setCfgOk ok).candScore = s.candScore := rfl
@[simp] theorem State.setCfgOk_best (s : State) (ok : Bool) : (s.setCfgOk ok).best = s.best := rfl
@[simp] theorem State.setCfgOk_bestSum (s : State) (ok : Bool) : (s.setCfgOk ok).bestSum = s.bestSum := rfl
@[simp] theorem State.setCfgOk_inReset (s : State) (ok : Bool) : (s.setCfgOk ok).inReset = s.inReset := rfl
@[simp] theorem State.setCfgOk_inbox (s : State) (ok : Bool) : (s.setCfgOk ok).inbox = s.inbox := rfl
@[simp] theorem State.setCfgOk_response (s : State) (ok : Bool) : (s.setCfgOk ok).response = s.response := rfl
@[simp] theorem State.setCfgOk_delay (s : State) (ok : Bool) : (s.setCfgOk ok).delay = s.delay := rfl
@[simp] theorem State.setCfgOk_delays (s : State) (ok : Bool) : (s.setCfgOk ok).delays = s.delays := rfl
@[simp] theorem State.setCfgOk_draws (s : State) (ok : Bool) : (s.setCfgOk ok).draws = s.draws := rfl
@[simp] theorem State.setCfgOk_code (s : State) (ok : Bool) : (s.setCfgOk ok).code = s.code := rfl
@[simp] theorem State.setCfgOk_candidates (s : State) (ok : Bool) : (s.setCfgOk ok).candidates = s.candidates := rfl
@[simp] theorem State.setCfgOk_siWords (s : State) (ok : Bool) : (s.setCfgOk ok).siWords = s.siWords := rfl
@[simp] theorem State.setCfgOk_busy (s : State) (ok : Bool) : (s.setCfgOk ok).busy = s.busy := rfl

-- writeDecode
@[simp] theorem State.writeDecode_build (s : State) (dec : DecodeResult) : (s.writeDecode dec).build = s.build := rfl
@[simp] theorem State.writeDecode_cmd (s : State) (dec : DecodeResult) : (s.writeDecode dec).cmd = s.cmd := rfl
@[simp] theorem State.writeDecode_pending (s : State) (dec : DecodeResult) : (s.writeDecode dec).pending = s.pending := rfl
@[simp] theorem State.writeDecode_cfgOk (s : State) (dec : DecodeResult) : (s.writeDecode dec).cfgOk = s.cfgOk := rfl
@[simp] theorem State.writeDecode_overrun (s : State) (dec : DecodeResult) : (s.writeDecode dec).overrun = s.overrun := rfl
@[simp] theorem State.writeDecode_lastOp (s : State) (dec : DecodeResult) : (s.writeDecode dec).lastOp = s.lastOp := rfl
@[simp] theorem State.writeDecode_result (s : State) (dec : DecodeResult) : (s.writeDecode dec).result = s.result := rfl
@[simp] theorem State.writeDecode_layout (s : State) (dec : DecodeResult) : (s.writeDecode dec).layout = s.layout := rfl
@[simp] theorem State.writeDecode_distMode (s : State) (dec : DecodeResult) :
    (s.writeDecode dec).distMode = s.distMode := rfl
@[simp] theorem State.writeDecode_siCount (s : State) (dec : DecodeResult) : (s.writeDecode dec).siCount = s.siCount := rfl
@[simp] theorem State.writeDecode_siSel (s : State) (dec : DecodeResult) : (s.writeDecode dec).siSel = s.siSel := rfl
@[simp] theorem State.writeDecode_candSel (s : State) (dec : DecodeResult) : (s.writeDecode dec).candSel = s.candSel := rfl
@[simp] theorem State.writeDecode_row (s : State) (dec : DecodeResult) : (s.writeDecode dec).row = s.row := rfl
@[simp] theorem State.writeDecode_col (s : State) (dec : DecodeResult) : (s.writeDecode dec).col = s.col := rfl
@[simp] theorem State.writeDecode_cw (s : State) (dec : DecodeResult) : (s.writeDecode dec).cw = s.cw := rfl
@[simp] theorem State.writeDecode_si (s : State) (dec : DecodeResult) : (s.writeDecode dec).si = s.si := rfl
@[simp] theorem State.writeDecode_syndrome (s : State) (dec : DecodeResult) :
    (s.writeDecode dec).syndrome = s.code.syn s.cw := rfl
@[simp] theorem State.writeDecode_decInfo (s : State) (dec : DecodeResult) :
    (s.writeDecode dec).decInfo = packDecInfo dec.tier dec.sym dec.mask := rfl
@[simp] theorem State.writeDecode_corrected (s : State) (dec : DecodeResult) : (s.writeDecode dec).corrected = dec.cw := rfl
@[simp] theorem State.writeDecode_msg (s : State) (dec : DecodeResult) :
    (s.writeDecode dec).msg = if dec.outcome = .due then 0 else s.code.msg dec.cw := rfl
@[simp] theorem State.writeDecode_candCount (s : State) (dec : DecodeResult) :
    (s.writeDecode dec).candCount = s.candCount := rfl
@[simp] theorem State.writeDecode_candCw (s : State) (dec : DecodeResult) : (s.writeDecode dec).candCw = s.candCw := rfl
@[simp] theorem State.writeDecode_candScore (s : State) (dec : DecodeResult) :
    (s.writeDecode dec).candScore = s.candScore := rfl
@[simp] theorem State.writeDecode_best (s : State) (dec : DecodeResult) : (s.writeDecode dec).best = s.best := rfl
@[simp] theorem State.writeDecode_bestSum (s : State) (dec : DecodeResult) : (s.writeDecode dec).bestSum = s.bestSum := rfl
@[simp] theorem State.writeDecode_inReset (s : State) (dec : DecodeResult) : (s.writeDecode dec).inReset = s.inReset := rfl
@[simp] theorem State.writeDecode_inbox (s : State) (dec : DecodeResult) : (s.writeDecode dec).inbox = s.inbox := rfl
@[simp] theorem State.writeDecode_response (s : State) (dec : DecodeResult) :
    (s.writeDecode dec).response = s.response := rfl
@[simp] theorem State.writeDecode_delay (s : State) (dec : DecodeResult) : (s.writeDecode dec).delay = s.delay := rfl
@[simp] theorem State.writeDecode_delays (s : State) (dec : DecodeResult) : (s.writeDecode dec).delays = s.delays := rfl
@[simp] theorem State.writeDecode_draws (s : State) (dec : DecodeResult) : (s.writeDecode dec).draws = s.draws := rfl
@[simp] theorem State.writeDecode_code (s : State) (dec : DecodeResult) : (s.writeDecode dec).code = s.code := rfl
@[simp] theorem State.writeDecode_candidates (s : State) (dec : DecodeResult) : (s.writeDecode dec).candidates = s.candidates := rfl
@[simp] theorem State.writeDecode_siWords (s : State) (dec : DecodeResult) : (s.writeDecode dec).siWords = s.siWords := rfl
@[simp] theorem State.writeDecode_busy (s : State) (dec : DecodeResult) : (s.writeDecode dec).busy = s.busy := rfl

-- writeChoice
@[simp] theorem State.writeChoice_build (s : State) (r : Choice) : (s.writeChoice r).build = s.build := rfl
@[simp] theorem State.writeChoice_cmd (s : State) (r : Choice) : (s.writeChoice r).cmd = s.cmd := rfl
@[simp] theorem State.writeChoice_pending (s : State) (r : Choice) : (s.writeChoice r).pending = s.pending := rfl
@[simp] theorem State.writeChoice_cfgOk (s : State) (r : Choice) : (s.writeChoice r).cfgOk = s.cfgOk := rfl
@[simp] theorem State.writeChoice_overrun (s : State) (r : Choice) : (s.writeChoice r).overrun = s.overrun := rfl
@[simp] theorem State.writeChoice_lastOp (s : State) (r : Choice) : (s.writeChoice r).lastOp = s.lastOp := rfl
@[simp] theorem State.writeChoice_result (s : State) (r : Choice) : (s.writeChoice r).result = s.result := rfl
@[simp] theorem State.writeChoice_layout (s : State) (r : Choice) : (s.writeChoice r).layout = s.layout := rfl
@[simp] theorem State.writeChoice_distMode (s : State) (r : Choice) : (s.writeChoice r).distMode = s.distMode := rfl
@[simp] theorem State.writeChoice_siCount (s : State) (r : Choice) : (s.writeChoice r).siCount = s.siCount := rfl
@[simp] theorem State.writeChoice_siSel (s : State) (r : Choice) : (s.writeChoice r).siSel = s.siSel := rfl
@[simp] theorem State.writeChoice_candSel (s : State) (r : Choice) : (s.writeChoice r).candSel = s.candSel := rfl
@[simp] theorem State.writeChoice_row (s : State) (r : Choice) : (s.writeChoice r).row = s.row := rfl
@[simp] theorem State.writeChoice_col (s : State) (r : Choice) : (s.writeChoice r).col = s.col := rfl
@[simp] theorem State.writeChoice_cw (s : State) (r : Choice) : (s.writeChoice r).cw = s.cw := rfl
@[simp] theorem State.writeChoice_si (s : State) (r : Choice) : (s.writeChoice r).si = s.si := rfl
@[simp] theorem State.writeChoice_syndrome (s : State) (r : Choice) : (s.writeChoice r).syndrome = s.syndrome := rfl
@[simp] theorem State.writeChoice_decInfo (s : State) (r : Choice) : (s.writeChoice r).decInfo = s.decInfo := rfl
@[simp] theorem State.writeChoice_corrected (s : State) (r : Choice) :
    (s.writeChoice r).corrected = s.candCw.getD r.best 0 := rfl
@[simp] theorem State.writeChoice_msg (s : State) (r : Choice) :
    (s.writeChoice r).msg = s.code.msg (s.candCw.getD r.best 0) := rfl
@[simp] theorem State.writeChoice_candCount (s : State) (r : Choice) : (s.writeChoice r).candCount = s.candCount := rfl
@[simp] theorem State.writeChoice_candCw (s : State) (r : Choice) : (s.writeChoice r).candCw = s.candCw := rfl
@[simp] theorem State.writeChoice_candScore (s : State) (r : Choice) :
    (s.writeChoice r).candScore = r.scores.map (BitVec.ofNat 32) ++ s.candScore.drop r.scores.length := rfl
@[simp] theorem State.writeChoice_best (s : State) (r : Choice) : (s.writeChoice r).best = BitVec.ofNat 16 r.best := rfl
@[simp] theorem State.writeChoice_bestSum (s : State) (r : Choice) :
    (s.writeChoice r).bestSum = BitVec.ofNat 32 (r.scores.getD r.best 0) := rfl
@[simp] theorem State.writeChoice_inReset (s : State) (r : Choice) : (s.writeChoice r).inReset = s.inReset := rfl
@[simp] theorem State.writeChoice_inbox (s : State) (r : Choice) : (s.writeChoice r).inbox = s.inbox := rfl
@[simp] theorem State.writeChoice_response (s : State) (r : Choice) : (s.writeChoice r).response = s.response := rfl
@[simp] theorem State.writeChoice_delay (s : State) (r : Choice) : (s.writeChoice r).delay = s.delay := rfl
@[simp] theorem State.writeChoice_delays (s : State) (r : Choice) : (s.writeChoice r).delays = s.delays := rfl
@[simp] theorem State.writeChoice_draws (s : State) (r : Choice) : (s.writeChoice r).draws = s.draws := rfl
@[simp] theorem State.writeChoice_code (s : State) (r : Choice) : (s.writeChoice r).code = s.code := rfl
@[simp] theorem State.writeChoice_candidates (s : State) (r : Choice) : (s.writeChoice r).candidates = s.candidates := rfl
@[simp] theorem State.writeChoice_siWords (s : State) (r : Choice) : (s.writeChoice r).siWords = s.siWords := rfl
@[simp] theorem State.writeChoice_busy (s : State) (r : Choice) : (s.writeChoice r).busy = s.busy := rfl

-- respond
@[simp] theorem State.respond_build (s : State) (r : BusResponse) : (s.respond r).build = s.build := rfl
@[simp] theorem State.respond_cmd (s : State) (r : BusResponse) : (s.respond r).cmd = s.cmd := rfl
@[simp] theorem State.respond_pending (s : State) (r : BusResponse) : (s.respond r).pending = s.pending := rfl
@[simp] theorem State.respond_cfgOk (s : State) (r : BusResponse) : (s.respond r).cfgOk = s.cfgOk := rfl
@[simp] theorem State.respond_overrun (s : State) (r : BusResponse) : (s.respond r).overrun = s.overrun := rfl
@[simp] theorem State.respond_lastOp (s : State) (r : BusResponse) : (s.respond r).lastOp = s.lastOp := rfl
@[simp] theorem State.respond_result (s : State) (r : BusResponse) : (s.respond r).result = s.result := rfl
@[simp] theorem State.respond_layout (s : State) (r : BusResponse) : (s.respond r).layout = s.layout := rfl
@[simp] theorem State.respond_distMode (s : State) (r : BusResponse) : (s.respond r).distMode = s.distMode := rfl
@[simp] theorem State.respond_siCount (s : State) (r : BusResponse) : (s.respond r).siCount = s.siCount := rfl
@[simp] theorem State.respond_siSel (s : State) (r : BusResponse) : (s.respond r).siSel = s.siSel := rfl
@[simp] theorem State.respond_candSel (s : State) (r : BusResponse) : (s.respond r).candSel = s.candSel := rfl
@[simp] theorem State.respond_row (s : State) (r : BusResponse) : (s.respond r).row = s.row := rfl
@[simp] theorem State.respond_col (s : State) (r : BusResponse) : (s.respond r).col = s.col := rfl
@[simp] theorem State.respond_cw (s : State) (r : BusResponse) : (s.respond r).cw = s.cw := rfl
@[simp] theorem State.respond_si (s : State) (r : BusResponse) : (s.respond r).si = s.si := rfl
@[simp] theorem State.respond_syndrome (s : State) (r : BusResponse) : (s.respond r).syndrome = s.syndrome := rfl
@[simp] theorem State.respond_decInfo (s : State) (r : BusResponse) : (s.respond r).decInfo = s.decInfo := rfl
@[simp] theorem State.respond_corrected (s : State) (r : BusResponse) : (s.respond r).corrected = s.corrected := rfl
@[simp] theorem State.respond_msg (s : State) (r : BusResponse) : (s.respond r).msg = s.msg := rfl
@[simp] theorem State.respond_candCount (s : State) (r : BusResponse) : (s.respond r).candCount = s.candCount := rfl
@[simp] theorem State.respond_candCw (s : State) (r : BusResponse) : (s.respond r).candCw = s.candCw := rfl
@[simp] theorem State.respond_candScore (s : State) (r : BusResponse) : (s.respond r).candScore = s.candScore := rfl
@[simp] theorem State.respond_best (s : State) (r : BusResponse) : (s.respond r).best = s.best := rfl
@[simp] theorem State.respond_bestSum (s : State) (r : BusResponse) : (s.respond r).bestSum = s.bestSum := rfl
@[simp] theorem State.respond_inReset (s : State) (r : BusResponse) : (s.respond r).inReset = s.inReset := rfl
@[simp] theorem State.respond_inbox (s : State) (r : BusResponse) : (s.respond r).inbox = s.inbox := rfl
@[simp] theorem State.respond_response (s : State) (r : BusResponse) : (s.respond r).response = r := rfl
@[simp] theorem State.respond_delay (s : State) (r : BusResponse) : (s.respond r).delay = s.delay := rfl
@[simp] theorem State.respond_delays (s : State) (r : BusResponse) : (s.respond r).delays = s.delays := rfl
@[simp] theorem State.respond_draws (s : State) (r : BusResponse) : (s.respond r).draws = s.draws := rfl
@[simp] theorem State.respond_code (s : State) (r : BusResponse) : (s.respond r).code = s.code := rfl
@[simp] theorem State.respond_candidates (s : State) (r : BusResponse) : (s.respond r).candidates = s.candidates := rfl
@[simp] theorem State.respond_siWords (s : State) (r : BusResponse) : (s.respond r).siWords = s.siWords := rfl
@[simp] theorem State.respond_busy (s : State) (r : BusResponse) : (s.respond r).busy = s.busy := rfl

-- writeSyndrome
@[simp] theorem State.writeSyndrome_build (s : State) : (s.writeSyndrome).build = s.build := rfl
@[simp] theorem State.writeSyndrome_cmd (s : State) : (s.writeSyndrome).cmd = s.cmd := rfl
@[simp] theorem State.writeSyndrome_pending (s : State) : (s.writeSyndrome).pending = s.pending := rfl
@[simp] theorem State.writeSyndrome_cfgOk (s : State) : (s.writeSyndrome).cfgOk = s.cfgOk := rfl
@[simp] theorem State.writeSyndrome_overrun (s : State) : (s.writeSyndrome).overrun = s.overrun := rfl
@[simp] theorem State.writeSyndrome_lastOp (s : State) : (s.writeSyndrome).lastOp = s.lastOp := rfl
@[simp] theorem State.writeSyndrome_result (s : State) : (s.writeSyndrome).result = s.result := rfl
@[simp] theorem State.writeSyndrome_layout (s : State) : (s.writeSyndrome).layout = s.layout := rfl
@[simp] theorem State.writeSyndrome_distMode (s : State) : (s.writeSyndrome).distMode = s.distMode := rfl
@[simp] theorem State.writeSyndrome_siCount (s : State) : (s.writeSyndrome).siCount = s.siCount := rfl
@[simp] theorem State.writeSyndrome_siSel (s : State) : (s.writeSyndrome).siSel = s.siSel := rfl
@[simp] theorem State.writeSyndrome_candSel (s : State) : (s.writeSyndrome).candSel = s.candSel := rfl
@[simp] theorem State.writeSyndrome_row (s : State) : (s.writeSyndrome).row = s.row := rfl
@[simp] theorem State.writeSyndrome_col (s : State) : (s.writeSyndrome).col = s.col := rfl
@[simp] theorem State.writeSyndrome_cw (s : State) : (s.writeSyndrome).cw = s.cw := rfl
@[simp] theorem State.writeSyndrome_si (s : State) : (s.writeSyndrome).si = s.si := rfl
@[simp] theorem State.writeSyndrome_syndrome (s : State) : (s.writeSyndrome).syndrome = s.code.syn s.cw := rfl
@[simp] theorem State.writeSyndrome_decInfo (s : State) : (s.writeSyndrome).decInfo = s.decInfo := rfl
@[simp] theorem State.writeSyndrome_corrected (s : State) : (s.writeSyndrome).corrected = s.corrected := rfl
@[simp] theorem State.writeSyndrome_msg (s : State) : (s.writeSyndrome).msg = s.msg := rfl
@[simp] theorem State.writeSyndrome_candCount (s : State) : (s.writeSyndrome).candCount = s.candCount := rfl
@[simp] theorem State.writeSyndrome_candCw (s : State) : (s.writeSyndrome).candCw = s.candCw := rfl
@[simp] theorem State.writeSyndrome_candScore (s : State) : (s.writeSyndrome).candScore = s.candScore := rfl
@[simp] theorem State.writeSyndrome_best (s : State) : (s.writeSyndrome).best = s.best := rfl
@[simp] theorem State.writeSyndrome_bestSum (s : State) : (s.writeSyndrome).bestSum = s.bestSum := rfl
@[simp] theorem State.writeSyndrome_inReset (s : State) : (s.writeSyndrome).inReset = s.inReset := rfl
@[simp] theorem State.writeSyndrome_inbox (s : State) : (s.writeSyndrome).inbox = s.inbox := rfl
@[simp] theorem State.writeSyndrome_response (s : State) : (s.writeSyndrome).response = s.response := rfl
@[simp] theorem State.writeSyndrome_delay (s : State) : (s.writeSyndrome).delay = s.delay := rfl
@[simp] theorem State.writeSyndrome_delays (s : State) : (s.writeSyndrome).delays = s.delays := rfl
@[simp] theorem State.writeSyndrome_draws (s : State) : (s.writeSyndrome).draws = s.draws := rfl
@[simp] theorem State.writeSyndrome_code (s : State) : (s.writeSyndrome).code = s.code := rfl
@[simp] theorem State.writeSyndrome_candidates (s : State) : (s.writeSyndrome).candidates = s.candidates := rfl
@[simp] theorem State.writeSyndrome_siWords (s : State) : (s.writeSyndrome).siWords = s.siWords := rfl
@[simp] theorem State.writeSyndrome_busy (s : State) : (s.writeSyndrome).busy = s.busy := rfl

-- clearOverrun
@[simp] theorem State.clearOverrun_build (s : State) : (s.clearOverrun).build = s.build := rfl
@[simp] theorem State.clearOverrun_cmd (s : State) : (s.clearOverrun).cmd = s.cmd := rfl
@[simp] theorem State.clearOverrun_pending (s : State) : (s.clearOverrun).pending = s.pending := rfl
@[simp] theorem State.clearOverrun_cfgOk (s : State) : (s.clearOverrun).cfgOk = s.cfgOk := rfl
@[simp] theorem State.clearOverrun_overrun (s : State) : (s.clearOverrun).overrun = false := rfl
@[simp] theorem State.clearOverrun_lastOp (s : State) : (s.clearOverrun).lastOp = s.lastOp := rfl
@[simp] theorem State.clearOverrun_result (s : State) : (s.clearOverrun).result = s.result := rfl
@[simp] theorem State.clearOverrun_layout (s : State) : (s.clearOverrun).layout = s.layout := rfl
@[simp] theorem State.clearOverrun_distMode (s : State) : (s.clearOverrun).distMode = s.distMode := rfl
@[simp] theorem State.clearOverrun_siCount (s : State) : (s.clearOverrun).siCount = s.siCount := rfl
@[simp] theorem State.clearOverrun_siSel (s : State) : (s.clearOverrun).siSel = s.siSel := rfl
@[simp] theorem State.clearOverrun_candSel (s : State) : (s.clearOverrun).candSel = s.candSel := rfl
@[simp] theorem State.clearOverrun_row (s : State) : (s.clearOverrun).row = s.row := rfl
@[simp] theorem State.clearOverrun_col (s : State) : (s.clearOverrun).col = s.col := rfl
@[simp] theorem State.clearOverrun_cw (s : State) : (s.clearOverrun).cw = s.cw := rfl
@[simp] theorem State.clearOverrun_si (s : State) : (s.clearOverrun).si = s.si := rfl
@[simp] theorem State.clearOverrun_syndrome (s : State) : (s.clearOverrun).syndrome = s.syndrome := rfl
@[simp] theorem State.clearOverrun_decInfo (s : State) : (s.clearOverrun).decInfo = s.decInfo := rfl
@[simp] theorem State.clearOverrun_corrected (s : State) : (s.clearOverrun).corrected = s.corrected := rfl
@[simp] theorem State.clearOverrun_msg (s : State) : (s.clearOverrun).msg = s.msg := rfl
@[simp] theorem State.clearOverrun_candCount (s : State) : (s.clearOverrun).candCount = s.candCount := rfl
@[simp] theorem State.clearOverrun_candCw (s : State) : (s.clearOverrun).candCw = s.candCw := rfl
@[simp] theorem State.clearOverrun_candScore (s : State) : (s.clearOverrun).candScore = s.candScore := rfl
@[simp] theorem State.clearOverrun_best (s : State) : (s.clearOverrun).best = s.best := rfl
@[simp] theorem State.clearOverrun_bestSum (s : State) : (s.clearOverrun).bestSum = s.bestSum := rfl
@[simp] theorem State.clearOverrun_inReset (s : State) : (s.clearOverrun).inReset = s.inReset := rfl
@[simp] theorem State.clearOverrun_inbox (s : State) : (s.clearOverrun).inbox = s.inbox := rfl
@[simp] theorem State.clearOverrun_response (s : State) : (s.clearOverrun).response = s.response := rfl
@[simp] theorem State.clearOverrun_delay (s : State) : (s.clearOverrun).delay = s.delay := rfl
@[simp] theorem State.clearOverrun_delays (s : State) : (s.clearOverrun).delays = s.delays := rfl
@[simp] theorem State.clearOverrun_draws (s : State) : (s.clearOverrun).draws = s.draws := rfl
@[simp] theorem State.clearOverrun_code (s : State) : (s.clearOverrun).code = s.code := rfl
@[simp] theorem State.clearOverrun_candidates (s : State) : (s.clearOverrun).candidates = s.candidates := rfl
@[simp] theorem State.clearOverrun_siWords (s : State) : (s.clearOverrun).siWords = s.siWords := rfl
@[simp] theorem State.clearOverrun_busy (s : State) : (s.clearOverrun).busy = s.busy := rfl

-- writeCfg
@[simp] theorem State.writeCfg_build (s : State) (v : Word) : (s.writeCfg v).build = s.build := rfl
@[simp] theorem State.writeCfg_cmd (s : State) (v : Word) : (s.writeCfg v).cmd = s.cmd := rfl
@[simp] theorem State.writeCfg_pending (s : State) (v : Word) : (s.writeCfg v).pending = s.pending := rfl
@[simp] theorem State.writeCfg_cfgOk (s : State) (v : Word) : (s.writeCfg v).cfgOk = false := rfl
@[simp] theorem State.writeCfg_overrun (s : State) (v : Word) : (s.writeCfg v).overrun = s.overrun := rfl
@[simp] theorem State.writeCfg_lastOp (s : State) (v : Word) : (s.writeCfg v).lastOp = s.lastOp := rfl
@[simp] theorem State.writeCfg_result (s : State) (v : Word) : (s.writeCfg v).result = s.result := rfl
@[simp] theorem State.writeCfg_layout (s : State) (v : Word) : (s.writeCfg v).layout = v.getLsbD 0 := rfl
@[simp] theorem State.writeCfg_distMode (s : State) (v : Word) : (s.writeCfg v).distMode = v.getLsbD 1 := rfl
@[simp] theorem State.writeCfg_siCount (s : State) (v : Word) : (s.writeCfg v).siCount = s.siCount := rfl
@[simp] theorem State.writeCfg_siSel (s : State) (v : Word) : (s.writeCfg v).siSel = s.siSel := rfl
@[simp] theorem State.writeCfg_candSel (s : State) (v : Word) : (s.writeCfg v).candSel = s.candSel := rfl
@[simp] theorem State.writeCfg_row (s : State) (v : Word) : (s.writeCfg v).row = s.row := rfl
@[simp] theorem State.writeCfg_col (s : State) (v : Word) : (s.writeCfg v).col = s.col := rfl
@[simp] theorem State.writeCfg_cw (s : State) (v : Word) : (s.writeCfg v).cw = s.cw := rfl
@[simp] theorem State.writeCfg_si (s : State) (v : Word) : (s.writeCfg v).si = s.si := rfl
@[simp] theorem State.writeCfg_syndrome (s : State) (v : Word) : (s.writeCfg v).syndrome = s.syndrome := rfl
@[simp] theorem State.writeCfg_decInfo (s : State) (v : Word) : (s.writeCfg v).decInfo = s.decInfo := rfl
@[simp] theorem State.writeCfg_corrected (s : State) (v : Word) : (s.writeCfg v).corrected = s.corrected := rfl
@[simp] theorem State.writeCfg_msg (s : State) (v : Word) : (s.writeCfg v).msg = s.msg := rfl
@[simp] theorem State.writeCfg_candCount (s : State) (v : Word) : (s.writeCfg v).candCount = s.candCount := rfl
@[simp] theorem State.writeCfg_candCw (s : State) (v : Word) : (s.writeCfg v).candCw = s.candCw := rfl
@[simp] theorem State.writeCfg_candScore (s : State) (v : Word) : (s.writeCfg v).candScore = s.candScore := rfl
@[simp] theorem State.writeCfg_best (s : State) (v : Word) : (s.writeCfg v).best = s.best := rfl
@[simp] theorem State.writeCfg_bestSum (s : State) (v : Word) : (s.writeCfg v).bestSum = s.bestSum := rfl
@[simp] theorem State.writeCfg_inReset (s : State) (v : Word) : (s.writeCfg v).inReset = s.inReset := rfl
@[simp] theorem State.writeCfg_inbox (s : State) (v : Word) : (s.writeCfg v).inbox = s.inbox := rfl
@[simp] theorem State.writeCfg_response (s : State) (v : Word) : (s.writeCfg v).response = s.response := rfl
@[simp] theorem State.writeCfg_delay (s : State) (v : Word) : (s.writeCfg v).delay = s.delay := rfl
@[simp] theorem State.writeCfg_delays (s : State) (v : Word) : (s.writeCfg v).delays = s.delays := rfl
@[simp] theorem State.writeCfg_draws (s : State) (v : Word) : (s.writeCfg v).draws = s.draws := rfl
@[simp] theorem State.writeCfg_candidates (s : State) (v : Word) : (s.writeCfg v).candidates = s.candidates := rfl
@[simp] theorem State.writeCfg_siWords (s : State) (v : Word) : (s.writeCfg v).siWords = s.siWords := rfl
@[simp] theorem State.writeCfg_busy (s : State) (v : Word) : (s.writeCfg v).busy = s.busy := rfl

-- writeSiCount
@[simp] theorem State.writeSiCount_build (s : State) (v : Word) : (s.writeSiCount v).build = s.build := rfl
@[simp] theorem State.writeSiCount_cmd (s : State) (v : Word) : (s.writeSiCount v).cmd = s.cmd := rfl
@[simp] theorem State.writeSiCount_pending (s : State) (v : Word) : (s.writeSiCount v).pending = s.pending := rfl
@[simp] theorem State.writeSiCount_cfgOk (s : State) (v : Word) : (s.writeSiCount v).cfgOk = s.cfgOk := rfl
@[simp] theorem State.writeSiCount_overrun (s : State) (v : Word) : (s.writeSiCount v).overrun = s.overrun := rfl
@[simp] theorem State.writeSiCount_lastOp (s : State) (v : Word) : (s.writeSiCount v).lastOp = s.lastOp := rfl
@[simp] theorem State.writeSiCount_result (s : State) (v : Word) : (s.writeSiCount v).result = s.result := rfl
@[simp] theorem State.writeSiCount_layout (s : State) (v : Word) : (s.writeSiCount v).layout = s.layout := rfl
@[simp] theorem State.writeSiCount_distMode (s : State) (v : Word) : (s.writeSiCount v).distMode = s.distMode := rfl
@[simp] theorem State.writeSiCount_siCount (s : State) (v : Word) : (s.writeSiCount v).siCount = v.setWidth 8 := rfl
@[simp] theorem State.writeSiCount_siSel (s : State) (v : Word) : (s.writeSiCount v).siSel = s.siSel := rfl
@[simp] theorem State.writeSiCount_candSel (s : State) (v : Word) : (s.writeSiCount v).candSel = s.candSel := rfl
@[simp] theorem State.writeSiCount_row (s : State) (v : Word) : (s.writeSiCount v).row = s.row := rfl
@[simp] theorem State.writeSiCount_col (s : State) (v : Word) : (s.writeSiCount v).col = s.col := rfl
@[simp] theorem State.writeSiCount_cw (s : State) (v : Word) : (s.writeSiCount v).cw = s.cw := rfl
@[simp] theorem State.writeSiCount_si (s : State) (v : Word) : (s.writeSiCount v).si = s.si := rfl
@[simp] theorem State.writeSiCount_syndrome (s : State) (v : Word) : (s.writeSiCount v).syndrome = s.syndrome := rfl
@[simp] theorem State.writeSiCount_decInfo (s : State) (v : Word) : (s.writeSiCount v).decInfo = s.decInfo := rfl
@[simp] theorem State.writeSiCount_corrected (s : State) (v : Word) : (s.writeSiCount v).corrected = s.corrected := rfl
@[simp] theorem State.writeSiCount_msg (s : State) (v : Word) : (s.writeSiCount v).msg = s.msg := rfl
@[simp] theorem State.writeSiCount_candCount (s : State) (v : Word) : (s.writeSiCount v).candCount = s.candCount := rfl
@[simp] theorem State.writeSiCount_candCw (s : State) (v : Word) : (s.writeSiCount v).candCw = s.candCw := rfl
@[simp] theorem State.writeSiCount_candScore (s : State) (v : Word) : (s.writeSiCount v).candScore = s.candScore := rfl
@[simp] theorem State.writeSiCount_best (s : State) (v : Word) : (s.writeSiCount v).best = s.best := rfl
@[simp] theorem State.writeSiCount_bestSum (s : State) (v : Word) : (s.writeSiCount v).bestSum = s.bestSum := rfl
@[simp] theorem State.writeSiCount_inReset (s : State) (v : Word) : (s.writeSiCount v).inReset = s.inReset := rfl
@[simp] theorem State.writeSiCount_inbox (s : State) (v : Word) : (s.writeSiCount v).inbox = s.inbox := rfl
@[simp] theorem State.writeSiCount_response (s : State) (v : Word) : (s.writeSiCount v).response = s.response := rfl
@[simp] theorem State.writeSiCount_delay (s : State) (v : Word) : (s.writeSiCount v).delay = s.delay := rfl
@[simp] theorem State.writeSiCount_delays (s : State) (v : Word) : (s.writeSiCount v).delays = s.delays := rfl
@[simp] theorem State.writeSiCount_draws (s : State) (v : Word) : (s.writeSiCount v).draws = s.draws := rfl
@[simp] theorem State.writeSiCount_code (s : State) (v : Word) : (s.writeSiCount v).code = s.code := rfl
@[simp] theorem State.writeSiCount_candidates (s : State) (v : Word) : (s.writeSiCount v).candidates = s.candidates := rfl
@[simp] theorem State.writeSiCount_busy (s : State) (v : Word) : (s.writeSiCount v).busy = s.busy := rfl

-- writeSiSel
@[simp] theorem State.writeSiSel_build (s : State) (v : Word) : (s.writeSiSel v).build = s.build := rfl
@[simp] theorem State.writeSiSel_cmd (s : State) (v : Word) : (s.writeSiSel v).cmd = s.cmd := rfl
@[simp] theorem State.writeSiSel_pending (s : State) (v : Word) : (s.writeSiSel v).pending = s.pending := rfl
@[simp] theorem State.writeSiSel_cfgOk (s : State) (v : Word) : (s.writeSiSel v).cfgOk = s.cfgOk := rfl
@[simp] theorem State.writeSiSel_overrun (s : State) (v : Word) : (s.writeSiSel v).overrun = s.overrun := rfl
@[simp] theorem State.writeSiSel_lastOp (s : State) (v : Word) : (s.writeSiSel v).lastOp = s.lastOp := rfl
@[simp] theorem State.writeSiSel_result (s : State) (v : Word) : (s.writeSiSel v).result = s.result := rfl
@[simp] theorem State.writeSiSel_layout (s : State) (v : Word) : (s.writeSiSel v).layout = s.layout := rfl
@[simp] theorem State.writeSiSel_distMode (s : State) (v : Word) : (s.writeSiSel v).distMode = s.distMode := rfl
@[simp] theorem State.writeSiSel_siCount (s : State) (v : Word) : (s.writeSiSel v).siCount = s.siCount := rfl
@[simp] theorem State.writeSiSel_siSel (s : State) (v : Word) : (s.writeSiSel v).siSel = v.setWidth 8 := rfl
@[simp] theorem State.writeSiSel_candSel (s : State) (v : Word) : (s.writeSiSel v).candSel = s.candSel := rfl
@[simp] theorem State.writeSiSel_row (s : State) (v : Word) : (s.writeSiSel v).row = s.row := rfl
@[simp] theorem State.writeSiSel_col (s : State) (v : Word) : (s.writeSiSel v).col = s.col := rfl
@[simp] theorem State.writeSiSel_cw (s : State) (v : Word) : (s.writeSiSel v).cw = s.cw := rfl
@[simp] theorem State.writeSiSel_si (s : State) (v : Word) : (s.writeSiSel v).si = s.si := rfl
@[simp] theorem State.writeSiSel_syndrome (s : State) (v : Word) : (s.writeSiSel v).syndrome = s.syndrome := rfl
@[simp] theorem State.writeSiSel_decInfo (s : State) (v : Word) : (s.writeSiSel v).decInfo = s.decInfo := rfl
@[simp] theorem State.writeSiSel_corrected (s : State) (v : Word) : (s.writeSiSel v).corrected = s.corrected := rfl
@[simp] theorem State.writeSiSel_msg (s : State) (v : Word) : (s.writeSiSel v).msg = s.msg := rfl
@[simp] theorem State.writeSiSel_candCount (s : State) (v : Word) : (s.writeSiSel v).candCount = s.candCount := rfl
@[simp] theorem State.writeSiSel_candCw (s : State) (v : Word) : (s.writeSiSel v).candCw = s.candCw := rfl
@[simp] theorem State.writeSiSel_candScore (s : State) (v : Word) : (s.writeSiSel v).candScore = s.candScore := rfl
@[simp] theorem State.writeSiSel_best (s : State) (v : Word) : (s.writeSiSel v).best = s.best := rfl
@[simp] theorem State.writeSiSel_bestSum (s : State) (v : Word) : (s.writeSiSel v).bestSum = s.bestSum := rfl
@[simp] theorem State.writeSiSel_inReset (s : State) (v : Word) : (s.writeSiSel v).inReset = s.inReset := rfl
@[simp] theorem State.writeSiSel_inbox (s : State) (v : Word) : (s.writeSiSel v).inbox = s.inbox := rfl
@[simp] theorem State.writeSiSel_response (s : State) (v : Word) : (s.writeSiSel v).response = s.response := rfl
@[simp] theorem State.writeSiSel_delay (s : State) (v : Word) : (s.writeSiSel v).delay = s.delay := rfl
@[simp] theorem State.writeSiSel_delays (s : State) (v : Word) : (s.writeSiSel v).delays = s.delays := rfl
@[simp] theorem State.writeSiSel_draws (s : State) (v : Word) : (s.writeSiSel v).draws = s.draws := rfl
@[simp] theorem State.writeSiSel_code (s : State) (v : Word) : (s.writeSiSel v).code = s.code := rfl
@[simp] theorem State.writeSiSel_candidates (s : State) (v : Word) : (s.writeSiSel v).candidates = s.candidates := rfl
@[simp] theorem State.writeSiSel_siWords (s : State) (v : Word) : (s.writeSiSel v).siWords = s.siWords := rfl
@[simp] theorem State.writeSiSel_busy (s : State) (v : Word) : (s.writeSiSel v).busy = s.busy := rfl

-- writeCandSel
@[simp] theorem State.writeCandSel_build (s : State) (v : Word) : (s.writeCandSel v).build = s.build := rfl
@[simp] theorem State.writeCandSel_cmd (s : State) (v : Word) : (s.writeCandSel v).cmd = s.cmd := rfl
@[simp] theorem State.writeCandSel_pending (s : State) (v : Word) : (s.writeCandSel v).pending = s.pending := rfl
@[simp] theorem State.writeCandSel_cfgOk (s : State) (v : Word) : (s.writeCandSel v).cfgOk = s.cfgOk := rfl
@[simp] theorem State.writeCandSel_overrun (s : State) (v : Word) : (s.writeCandSel v).overrun = s.overrun := rfl
@[simp] theorem State.writeCandSel_lastOp (s : State) (v : Word) : (s.writeCandSel v).lastOp = s.lastOp := rfl
@[simp] theorem State.writeCandSel_result (s : State) (v : Word) : (s.writeCandSel v).result = s.result := rfl
@[simp] theorem State.writeCandSel_layout (s : State) (v : Word) : (s.writeCandSel v).layout = s.layout := rfl
@[simp] theorem State.writeCandSel_distMode (s : State) (v : Word) : (s.writeCandSel v).distMode = s.distMode := rfl
@[simp] theorem State.writeCandSel_siCount (s : State) (v : Word) : (s.writeCandSel v).siCount = s.siCount := rfl
@[simp] theorem State.writeCandSel_siSel (s : State) (v : Word) : (s.writeCandSel v).siSel = s.siSel := rfl
@[simp] theorem State.writeCandSel_candSel (s : State) (v : Word) : (s.writeCandSel v).candSel = v.setWidth 16 := rfl
@[simp] theorem State.writeCandSel_row (s : State) (v : Word) : (s.writeCandSel v).row = s.row := rfl
@[simp] theorem State.writeCandSel_col (s : State) (v : Word) : (s.writeCandSel v).col = s.col := rfl
@[simp] theorem State.writeCandSel_cw (s : State) (v : Word) : (s.writeCandSel v).cw = s.cw := rfl
@[simp] theorem State.writeCandSel_si (s : State) (v : Word) : (s.writeCandSel v).si = s.si := rfl
@[simp] theorem State.writeCandSel_syndrome (s : State) (v : Word) : (s.writeCandSel v).syndrome = s.syndrome := rfl
@[simp] theorem State.writeCandSel_decInfo (s : State) (v : Word) : (s.writeCandSel v).decInfo = s.decInfo := rfl
@[simp] theorem State.writeCandSel_corrected (s : State) (v : Word) : (s.writeCandSel v).corrected = s.corrected := rfl
@[simp] theorem State.writeCandSel_msg (s : State) (v : Word) : (s.writeCandSel v).msg = s.msg := rfl
@[simp] theorem State.writeCandSel_candCount (s : State) (v : Word) : (s.writeCandSel v).candCount = s.candCount := rfl
@[simp] theorem State.writeCandSel_candCw (s : State) (v : Word) : (s.writeCandSel v).candCw = s.candCw := rfl
@[simp] theorem State.writeCandSel_candScore (s : State) (v : Word) : (s.writeCandSel v).candScore = s.candScore := rfl
@[simp] theorem State.writeCandSel_best (s : State) (v : Word) : (s.writeCandSel v).best = s.best := rfl
@[simp] theorem State.writeCandSel_bestSum (s : State) (v : Word) : (s.writeCandSel v).bestSum = s.bestSum := rfl
@[simp] theorem State.writeCandSel_inReset (s : State) (v : Word) : (s.writeCandSel v).inReset = s.inReset := rfl
@[simp] theorem State.writeCandSel_inbox (s : State) (v : Word) : (s.writeCandSel v).inbox = s.inbox := rfl
@[simp] theorem State.writeCandSel_response (s : State) (v : Word) : (s.writeCandSel v).response = s.response := rfl
@[simp] theorem State.writeCandSel_delay (s : State) (v : Word) : (s.writeCandSel v).delay = s.delay := rfl
@[simp] theorem State.writeCandSel_delays (s : State) (v : Word) : (s.writeCandSel v).delays = s.delays := rfl
@[simp] theorem State.writeCandSel_draws (s : State) (v : Word) : (s.writeCandSel v).draws = s.draws := rfl
@[simp] theorem State.writeCandSel_code (s : State) (v : Word) : (s.writeCandSel v).code = s.code := rfl
@[simp] theorem State.writeCandSel_candidates (s : State) (v : Word) : (s.writeCandSel v).candidates = s.candidates := rfl
@[simp] theorem State.writeCandSel_siWords (s : State) (v : Word) : (s.writeCandSel v).siWords = s.siWords := rfl
@[simp] theorem State.writeCandSel_busy (s : State) (v : Word) : (s.writeCandSel v).busy = s.busy := rfl

-- writeCw
@[simp] theorem State.writeCw_build (s : State) (l : Nat) (v : Word) : (s.writeCw l v).build = s.build := rfl
@[simp] theorem State.writeCw_cmd (s : State) (l : Nat) (v : Word) : (s.writeCw l v).cmd = s.cmd := rfl
@[simp] theorem State.writeCw_pending (s : State) (l : Nat) (v : Word) : (s.writeCw l v).pending = s.pending := rfl
@[simp] theorem State.writeCw_cfgOk (s : State) (l : Nat) (v : Word) : (s.writeCw l v).cfgOk = s.cfgOk := rfl
@[simp] theorem State.writeCw_overrun (s : State) (l : Nat) (v : Word) : (s.writeCw l v).overrun = s.overrun := rfl
@[simp] theorem State.writeCw_lastOp (s : State) (l : Nat) (v : Word) : (s.writeCw l v).lastOp = s.lastOp := rfl
@[simp] theorem State.writeCw_result (s : State) (l : Nat) (v : Word) : (s.writeCw l v).result = s.result := rfl
@[simp] theorem State.writeCw_layout (s : State) (l : Nat) (v : Word) : (s.writeCw l v).layout = s.layout := rfl
@[simp] theorem State.writeCw_distMode (s : State) (l : Nat) (v : Word) : (s.writeCw l v).distMode = s.distMode := rfl
@[simp] theorem State.writeCw_siCount (s : State) (l : Nat) (v : Word) : (s.writeCw l v).siCount = s.siCount := rfl
@[simp] theorem State.writeCw_siSel (s : State) (l : Nat) (v : Word) : (s.writeCw l v).siSel = s.siSel := rfl
@[simp] theorem State.writeCw_candSel (s : State) (l : Nat) (v : Word) : (s.writeCw l v).candSel = s.candSel := rfl
@[simp] theorem State.writeCw_row (s : State) (l : Nat) (v : Word) : (s.writeCw l v).row = s.row := rfl
@[simp] theorem State.writeCw_col (s : State) (l : Nat) (v : Word) : (s.writeCw l v).col = s.col := rfl
@[simp] theorem State.writeCw_cw (s : State) (l : Nat) (v : Word) : (s.writeCw l v).cw = setLimb s.build.n l v s.cw := rfl
@[simp] theorem State.writeCw_si (s : State) (l : Nat) (v : Word) : (s.writeCw l v).si = s.si := rfl
@[simp] theorem State.writeCw_syndrome (s : State) (l : Nat) (v : Word) : (s.writeCw l v).syndrome = s.syndrome := rfl
@[simp] theorem State.writeCw_decInfo (s : State) (l : Nat) (v : Word) : (s.writeCw l v).decInfo = s.decInfo := rfl
@[simp] theorem State.writeCw_corrected (s : State) (l : Nat) (v : Word) : (s.writeCw l v).corrected = s.corrected := rfl
@[simp] theorem State.writeCw_msg (s : State) (l : Nat) (v : Word) : (s.writeCw l v).msg = s.msg := rfl
@[simp] theorem State.writeCw_candCount (s : State) (l : Nat) (v : Word) : (s.writeCw l v).candCount = s.candCount := rfl
@[simp] theorem State.writeCw_candCw (s : State) (l : Nat) (v : Word) : (s.writeCw l v).candCw = s.candCw := rfl
@[simp] theorem State.writeCw_candScore (s : State) (l : Nat) (v : Word) : (s.writeCw l v).candScore = s.candScore := rfl
@[simp] theorem State.writeCw_best (s : State) (l : Nat) (v : Word) : (s.writeCw l v).best = s.best := rfl
@[simp] theorem State.writeCw_bestSum (s : State) (l : Nat) (v : Word) : (s.writeCw l v).bestSum = s.bestSum := rfl
@[simp] theorem State.writeCw_inReset (s : State) (l : Nat) (v : Word) : (s.writeCw l v).inReset = s.inReset := rfl
@[simp] theorem State.writeCw_inbox (s : State) (l : Nat) (v : Word) : (s.writeCw l v).inbox = s.inbox := rfl
@[simp] theorem State.writeCw_response (s : State) (l : Nat) (v : Word) : (s.writeCw l v).response = s.response := rfl
@[simp] theorem State.writeCw_delay (s : State) (l : Nat) (v : Word) : (s.writeCw l v).delay = s.delay := rfl
@[simp] theorem State.writeCw_delays (s : State) (l : Nat) (v : Word) : (s.writeCw l v).delays = s.delays := rfl
@[simp] theorem State.writeCw_draws (s : State) (l : Nat) (v : Word) : (s.writeCw l v).draws = s.draws := rfl
@[simp] theorem State.writeCw_code (s : State) (l : Nat) (v : Word) : (s.writeCw l v).code = s.code := rfl
@[simp] theorem State.writeCw_candidates (s : State) (l : Nat) (v : Word) : (s.writeCw l v).candidates = s.candidates := rfl
@[simp] theorem State.writeCw_siWords (s : State) (l : Nat) (v : Word) : (s.writeCw l v).siWords = s.siWords := rfl
@[simp] theorem State.writeCw_busy (s : State) (l : Nat) (v : Word) : (s.writeCw l v).busy = s.busy := rfl

-- storeCol
@[simp] theorem State.storeCol_build (s : State) (j : Nat) (v : Word) : (s.storeCol j v).build = s.build := rfl
@[simp] theorem State.storeCol_cmd (s : State) (j : Nat) (v : Word) : (s.storeCol j v).cmd = s.cmd := rfl
@[simp] theorem State.storeCol_pending (s : State) (j : Nat) (v : Word) : (s.storeCol j v).pending = s.pending := rfl
@[simp] theorem State.storeCol_cfgOk (s : State) (j : Nat) (v : Word) : (s.storeCol j v).cfgOk = false := rfl
@[simp] theorem State.storeCol_overrun (s : State) (j : Nat) (v : Word) : (s.storeCol j v).overrun = s.overrun := rfl
@[simp] theorem State.storeCol_lastOp (s : State) (j : Nat) (v : Word) : (s.storeCol j v).lastOp = s.lastOp := rfl
@[simp] theorem State.storeCol_result (s : State) (j : Nat) (v : Word) : (s.storeCol j v).result = s.result := rfl
@[simp] theorem State.storeCol_layout (s : State) (j : Nat) (v : Word) : (s.storeCol j v).layout = s.layout := rfl
@[simp] theorem State.storeCol_distMode (s : State) (j : Nat) (v : Word) : (s.storeCol j v).distMode = s.distMode := rfl
@[simp] theorem State.storeCol_siCount (s : State) (j : Nat) (v : Word) : (s.storeCol j v).siCount = s.siCount := rfl
@[simp] theorem State.storeCol_siSel (s : State) (j : Nat) (v : Word) : (s.storeCol j v).siSel = s.siSel := rfl
@[simp] theorem State.storeCol_candSel (s : State) (j : Nat) (v : Word) : (s.storeCol j v).candSel = s.candSel := rfl
@[simp] theorem State.storeCol_row (s : State) (j : Nat) (v : Word) : (s.storeCol j v).row = s.row := rfl
@[simp] theorem State.storeCol_col (s : State) (j : Nat) (v : Word) :
    (s.storeCol j v).col = s.col.set j (lowBits s.build.r v) := rfl
@[simp] theorem State.storeCol_cw (s : State) (j : Nat) (v : Word) : (s.storeCol j v).cw = s.cw := rfl
@[simp] theorem State.storeCol_si (s : State) (j : Nat) (v : Word) : (s.storeCol j v).si = s.si := rfl
@[simp] theorem State.storeCol_syndrome (s : State) (j : Nat) (v : Word) : (s.storeCol j v).syndrome = s.syndrome := rfl
@[simp] theorem State.storeCol_decInfo (s : State) (j : Nat) (v : Word) : (s.storeCol j v).decInfo = s.decInfo := rfl
@[simp] theorem State.storeCol_corrected (s : State) (j : Nat) (v : Word) : (s.storeCol j v).corrected = s.corrected := rfl
@[simp] theorem State.storeCol_msg (s : State) (j : Nat) (v : Word) : (s.storeCol j v).msg = s.msg := rfl
@[simp] theorem State.storeCol_candCount (s : State) (j : Nat) (v : Word) : (s.storeCol j v).candCount = s.candCount := rfl
@[simp] theorem State.storeCol_candCw (s : State) (j : Nat) (v : Word) : (s.storeCol j v).candCw = s.candCw := rfl
@[simp] theorem State.storeCol_candScore (s : State) (j : Nat) (v : Word) : (s.storeCol j v).candScore = s.candScore := rfl
@[simp] theorem State.storeCol_best (s : State) (j : Nat) (v : Word) : (s.storeCol j v).best = s.best := rfl
@[simp] theorem State.storeCol_bestSum (s : State) (j : Nat) (v : Word) : (s.storeCol j v).bestSum = s.bestSum := rfl
@[simp] theorem State.storeCol_inReset (s : State) (j : Nat) (v : Word) : (s.storeCol j v).inReset = s.inReset := rfl
@[simp] theorem State.storeCol_inbox (s : State) (j : Nat) (v : Word) : (s.storeCol j v).inbox = s.inbox := rfl
@[simp] theorem State.storeCol_response (s : State) (j : Nat) (v : Word) : (s.storeCol j v).response = s.response := rfl
@[simp] theorem State.storeCol_delay (s : State) (j : Nat) (v : Word) : (s.storeCol j v).delay = s.delay := rfl
@[simp] theorem State.storeCol_delays (s : State) (j : Nat) (v : Word) : (s.storeCol j v).delays = s.delays := rfl
@[simp] theorem State.storeCol_draws (s : State) (j : Nat) (v : Word) : (s.storeCol j v).draws = s.draws := rfl
@[simp] theorem State.storeCol_candidates (s : State) (j : Nat) (v : Word) : (s.storeCol j v).candidates = s.candidates := rfl
@[simp] theorem State.storeCol_siWords (s : State) (j : Nat) (v : Word) : (s.storeCol j v).siWords = s.siWords := rfl
@[simp] theorem State.storeCol_busy (s : State) (j : Nat) (v : Word) : (s.storeCol j v).busy = s.busy := rfl

-- storeRow
@[simp] theorem State.storeRow_build (s : State) (i l : Nat) (v : Word) : (s.storeRow i l v).build = s.build := rfl
@[simp] theorem State.storeRow_cmd (s : State) (i l : Nat) (v : Word) : (s.storeRow i l v).cmd = s.cmd := rfl
@[simp] theorem State.storeRow_pending (s : State) (i l : Nat) (v : Word) : (s.storeRow i l v).pending = s.pending := rfl
@[simp] theorem State.storeRow_cfgOk (s : State) (i l : Nat) (v : Word) : (s.storeRow i l v).cfgOk = false := rfl
@[simp] theorem State.storeRow_overrun (s : State) (i l : Nat) (v : Word) : (s.storeRow i l v).overrun = s.overrun := rfl
@[simp] theorem State.storeRow_lastOp (s : State) (i l : Nat) (v : Word) : (s.storeRow i l v).lastOp = s.lastOp := rfl
@[simp] theorem State.storeRow_result (s : State) (i l : Nat) (v : Word) : (s.storeRow i l v).result = s.result := rfl
@[simp] theorem State.storeRow_layout (s : State) (i l : Nat) (v : Word) : (s.storeRow i l v).layout = s.layout := rfl
@[simp] theorem State.storeRow_distMode (s : State) (i l : Nat) (v : Word) : (s.storeRow i l v).distMode = s.distMode := rfl
@[simp] theorem State.storeRow_siCount (s : State) (i l : Nat) (v : Word) : (s.storeRow i l v).siCount = s.siCount := rfl
@[simp] theorem State.storeRow_siSel (s : State) (i l : Nat) (v : Word) : (s.storeRow i l v).siSel = s.siSel := rfl
@[simp] theorem State.storeRow_candSel (s : State) (i l : Nat) (v : Word) : (s.storeRow i l v).candSel = s.candSel := rfl
@[simp] theorem State.storeRow_row (s : State) (i l : Nat) (v : Word) :
    (s.storeRow i l v).row = s.row.set i (setLimb s.build.n l v (s.row.getD i 0)) := rfl
@[simp] theorem State.storeRow_col (s : State) (i l : Nat) (v : Word) : (s.storeRow i l v).col = s.col := rfl
@[simp] theorem State.storeRow_cw (s : State) (i l : Nat) (v : Word) : (s.storeRow i l v).cw = s.cw := rfl
@[simp] theorem State.storeRow_si (s : State) (i l : Nat) (v : Word) : (s.storeRow i l v).si = s.si := rfl
@[simp] theorem State.storeRow_syndrome (s : State) (i l : Nat) (v : Word) : (s.storeRow i l v).syndrome = s.syndrome := rfl
@[simp] theorem State.storeRow_decInfo (s : State) (i l : Nat) (v : Word) : (s.storeRow i l v).decInfo = s.decInfo := rfl
@[simp] theorem State.storeRow_corrected (s : State) (i l : Nat) (v : Word) :
    (s.storeRow i l v).corrected = s.corrected := rfl
@[simp] theorem State.storeRow_msg (s : State) (i l : Nat) (v : Word) : (s.storeRow i l v).msg = s.msg := rfl
@[simp] theorem State.storeRow_candCount (s : State) (i l : Nat) (v : Word) :
    (s.storeRow i l v).candCount = s.candCount := rfl
@[simp] theorem State.storeRow_candCw (s : State) (i l : Nat) (v : Word) : (s.storeRow i l v).candCw = s.candCw := rfl
@[simp] theorem State.storeRow_candScore (s : State) (i l : Nat) (v : Word) :
    (s.storeRow i l v).candScore = s.candScore := rfl
@[simp] theorem State.storeRow_best (s : State) (i l : Nat) (v : Word) : (s.storeRow i l v).best = s.best := rfl
@[simp] theorem State.storeRow_bestSum (s : State) (i l : Nat) (v : Word) : (s.storeRow i l v).bestSum = s.bestSum := rfl
@[simp] theorem State.storeRow_inReset (s : State) (i l : Nat) (v : Word) : (s.storeRow i l v).inReset = s.inReset := rfl
@[simp] theorem State.storeRow_inbox (s : State) (i l : Nat) (v : Word) : (s.storeRow i l v).inbox = s.inbox := rfl
@[simp] theorem State.storeRow_response (s : State) (i l : Nat) (v : Word) : (s.storeRow i l v).response = s.response := rfl
@[simp] theorem State.storeRow_delay (s : State) (i l : Nat) (v : Word) : (s.storeRow i l v).delay = s.delay := rfl
@[simp] theorem State.storeRow_delays (s : State) (i l : Nat) (v : Word) : (s.storeRow i l v).delays = s.delays := rfl
@[simp] theorem State.storeRow_draws (s : State) (i l : Nat) (v : Word) : (s.storeRow i l v).draws = s.draws := rfl
@[simp] theorem State.storeRow_candidates (s : State) (i l : Nat) (v : Word) : (s.storeRow i l v).candidates = s.candidates := rfl
@[simp] theorem State.storeRow_siWords (s : State) (i l : Nat) (v : Word) : (s.storeRow i l v).siWords = s.siWords := rfl
@[simp] theorem State.storeRow_busy (s : State) (i l : Nat) (v : Word) : (s.storeRow i l v).busy = s.busy := rfl

-- storeSi
@[simp] theorem State.storeSi_build (s : State) (m l : Nat) (v : Word) : (s.storeSi m l v).build = s.build := rfl
@[simp] theorem State.storeSi_cmd (s : State) (m l : Nat) (v : Word) : (s.storeSi m l v).cmd = s.cmd := rfl
@[simp] theorem State.storeSi_pending (s : State) (m l : Nat) (v : Word) : (s.storeSi m l v).pending = s.pending := rfl
@[simp] theorem State.storeSi_cfgOk (s : State) (m l : Nat) (v : Word) : (s.storeSi m l v).cfgOk = s.cfgOk := rfl
@[simp] theorem State.storeSi_overrun (s : State) (m l : Nat) (v : Word) : (s.storeSi m l v).overrun = s.overrun := rfl
@[simp] theorem State.storeSi_lastOp (s : State) (m l : Nat) (v : Word) : (s.storeSi m l v).lastOp = s.lastOp := rfl
@[simp] theorem State.storeSi_result (s : State) (m l : Nat) (v : Word) : (s.storeSi m l v).result = s.result := rfl
@[simp] theorem State.storeSi_layout (s : State) (m l : Nat) (v : Word) : (s.storeSi m l v).layout = s.layout := rfl
@[simp] theorem State.storeSi_distMode (s : State) (m l : Nat) (v : Word) : (s.storeSi m l v).distMode = s.distMode := rfl
@[simp] theorem State.storeSi_siCount (s : State) (m l : Nat) (v : Word) : (s.storeSi m l v).siCount = s.siCount := rfl
@[simp] theorem State.storeSi_siSel (s : State) (m l : Nat) (v : Word) : (s.storeSi m l v).siSel = s.siSel := rfl
@[simp] theorem State.storeSi_candSel (s : State) (m l : Nat) (v : Word) : (s.storeSi m l v).candSel = s.candSel := rfl
@[simp] theorem State.storeSi_row (s : State) (m l : Nat) (v : Word) : (s.storeSi m l v).row = s.row := rfl
@[simp] theorem State.storeSi_col (s : State) (m l : Nat) (v : Word) : (s.storeSi m l v).col = s.col := rfl
@[simp] theorem State.storeSi_cw (s : State) (m l : Nat) (v : Word) : (s.storeSi m l v).cw = s.cw := rfl
@[simp] theorem State.storeSi_si (s : State) (m l : Nat) (v : Word) :
    (s.storeSi m l v).si = s.si.set m (setLimb s.build.n l v (s.si.getD m 0)) := rfl
@[simp] theorem State.storeSi_syndrome (s : State) (m l : Nat) (v : Word) : (s.storeSi m l v).syndrome = s.syndrome := rfl
@[simp] theorem State.storeSi_decInfo (s : State) (m l : Nat) (v : Word) : (s.storeSi m l v).decInfo = s.decInfo := rfl
@[simp] theorem State.storeSi_corrected (s : State) (m l : Nat) (v : Word) : (s.storeSi m l v).corrected = s.corrected := rfl
@[simp] theorem State.storeSi_msg (s : State) (m l : Nat) (v : Word) : (s.storeSi m l v).msg = s.msg := rfl
@[simp] theorem State.storeSi_candCount (s : State) (m l : Nat) (v : Word) : (s.storeSi m l v).candCount = s.candCount := rfl
@[simp] theorem State.storeSi_candCw (s : State) (m l : Nat) (v : Word) : (s.storeSi m l v).candCw = s.candCw := rfl
@[simp] theorem State.storeSi_candScore (s : State) (m l : Nat) (v : Word) : (s.storeSi m l v).candScore = s.candScore := rfl
@[simp] theorem State.storeSi_best (s : State) (m l : Nat) (v : Word) : (s.storeSi m l v).best = s.best := rfl
@[simp] theorem State.storeSi_bestSum (s : State) (m l : Nat) (v : Word) : (s.storeSi m l v).bestSum = s.bestSum := rfl
@[simp] theorem State.storeSi_inReset (s : State) (m l : Nat) (v : Word) : (s.storeSi m l v).inReset = s.inReset := rfl
@[simp] theorem State.storeSi_inbox (s : State) (m l : Nat) (v : Word) : (s.storeSi m l v).inbox = s.inbox := rfl
@[simp] theorem State.storeSi_response (s : State) (m l : Nat) (v : Word) : (s.storeSi m l v).response = s.response := rfl
@[simp] theorem State.storeSi_delay (s : State) (m l : Nat) (v : Word) : (s.storeSi m l v).delay = s.delay := rfl
@[simp] theorem State.storeSi_delays (s : State) (m l : Nat) (v : Word) : (s.storeSi m l v).delays = s.delays := rfl
@[simp] theorem State.storeSi_draws (s : State) (m l : Nat) (v : Word) : (s.storeSi m l v).draws = s.draws := rfl
@[simp] theorem State.storeSi_code (s : State) (m l : Nat) (v : Word) : (s.storeSi m l v).code = s.code := rfl
@[simp] theorem State.storeSi_candidates (s : State) (m l : Nat) (v : Word) : (s.storeSi m l v).candidates = s.candidates := rfl
@[simp] theorem State.storeSi_busy (s : State) (m l : Nat) (v : Word) : (s.storeSi m l v).busy = s.busy := rfl

-- keepPolling
@[simp] theorem State.keepPolling_build (s : State) : (s.keepPolling).build = s.build := rfl
@[simp] theorem State.keepPolling_cmd (s : State) : (s.keepPolling).cmd = s.cmd := rfl
@[simp] theorem State.keepPolling_pending (s : State) : (s.keepPolling).pending = s.pending := rfl
@[simp] theorem State.keepPolling_cfgOk (s : State) : (s.keepPolling).cfgOk = s.cfgOk := rfl
@[simp] theorem State.keepPolling_overrun (s : State) : (s.keepPolling).overrun = s.overrun := rfl
@[simp] theorem State.keepPolling_lastOp (s : State) : (s.keepPolling).lastOp = s.lastOp := rfl
@[simp] theorem State.keepPolling_result (s : State) : (s.keepPolling).result = s.result := rfl
@[simp] theorem State.keepPolling_layout (s : State) : (s.keepPolling).layout = s.layout := rfl
@[simp] theorem State.keepPolling_distMode (s : State) : (s.keepPolling).distMode = s.distMode := rfl
@[simp] theorem State.keepPolling_siCount (s : State) : (s.keepPolling).siCount = s.siCount := rfl
@[simp] theorem State.keepPolling_siSel (s : State) : (s.keepPolling).siSel = s.siSel := rfl
@[simp] theorem State.keepPolling_candSel (s : State) : (s.keepPolling).candSel = s.candSel := rfl
@[simp] theorem State.keepPolling_row (s : State) : (s.keepPolling).row = s.row := rfl
@[simp] theorem State.keepPolling_col (s : State) : (s.keepPolling).col = s.col := rfl
@[simp] theorem State.keepPolling_cw (s : State) : (s.keepPolling).cw = s.cw := rfl
@[simp] theorem State.keepPolling_si (s : State) : (s.keepPolling).si = s.si := rfl
@[simp] theorem State.keepPolling_syndrome (s : State) : (s.keepPolling).syndrome = s.syndrome := rfl
@[simp] theorem State.keepPolling_decInfo (s : State) : (s.keepPolling).decInfo = s.decInfo := rfl
@[simp] theorem State.keepPolling_corrected (s : State) : (s.keepPolling).corrected = s.corrected := rfl
@[simp] theorem State.keepPolling_msg (s : State) : (s.keepPolling).msg = s.msg := rfl
@[simp] theorem State.keepPolling_candCount (s : State) : (s.keepPolling).candCount = s.candCount := rfl
@[simp] theorem State.keepPolling_candCw (s : State) : (s.keepPolling).candCw = s.candCw := rfl
@[simp] theorem State.keepPolling_candScore (s : State) : (s.keepPolling).candScore = s.candScore := rfl
@[simp] theorem State.keepPolling_best (s : State) : (s.keepPolling).best = s.best := rfl
@[simp] theorem State.keepPolling_bestSum (s : State) : (s.keepPolling).bestSum = s.bestSum := rfl
@[simp] theorem State.keepPolling_inReset (s : State) : (s.keepPolling).inReset = s.inReset := rfl
@[simp] theorem State.keepPolling_inbox (s : State) : (s.keepPolling).inbox = .poll :: s.inbox := rfl
@[simp] theorem State.keepPolling_response (s : State) : (s.keepPolling).response = s.response := rfl
@[simp] theorem State.keepPolling_delay (s : State) : (s.keepPolling).delay = s.delay := rfl
@[simp] theorem State.keepPolling_delays (s : State) : (s.keepPolling).delays = s.delays := rfl
@[simp] theorem State.keepPolling_draws (s : State) : (s.keepPolling).draws = s.draws := rfl
@[simp] theorem State.keepPolling_code (s : State) : (s.keepPolling).code = s.code := rfl
@[simp] theorem State.keepPolling_candidates (s : State) : (s.keepPolling).candidates = s.candidates := rfl
@[simp] theorem State.keepPolling_siWords (s : State) : (s.keepPolling).siWords = s.siWords := rfl
@[simp] theorem State.keepPolling_busy (s : State) : (s.keepPolling).busy = s.busy := rfl

-- takeEvent
@[simp] theorem State.takeEvent_build (s : State) (rest : List BusEvent) : (s.takeEvent rest).build = s.build := rfl
@[simp] theorem State.takeEvent_cmd (s : State) (rest : List BusEvent) : (s.takeEvent rest).cmd = s.cmd := rfl
@[simp] theorem State.takeEvent_pending (s : State) (rest : List BusEvent) : (s.takeEvent rest).pending = s.pending := rfl
@[simp] theorem State.takeEvent_cfgOk (s : State) (rest : List BusEvent) : (s.takeEvent rest).cfgOk = s.cfgOk := rfl
@[simp] theorem State.takeEvent_overrun (s : State) (rest : List BusEvent) : (s.takeEvent rest).overrun = s.overrun := rfl
@[simp] theorem State.takeEvent_lastOp (s : State) (rest : List BusEvent) : (s.takeEvent rest).lastOp = s.lastOp := rfl
@[simp] theorem State.takeEvent_result (s : State) (rest : List BusEvent) : (s.takeEvent rest).result = s.result := rfl
@[simp] theorem State.takeEvent_layout (s : State) (rest : List BusEvent) : (s.takeEvent rest).layout = s.layout := rfl
@[simp] theorem State.takeEvent_distMode (s : State) (rest : List BusEvent) : (s.takeEvent rest).distMode = s.distMode := rfl
@[simp] theorem State.takeEvent_siCount (s : State) (rest : List BusEvent) : (s.takeEvent rest).siCount = s.siCount := rfl
@[simp] theorem State.takeEvent_siSel (s : State) (rest : List BusEvent) : (s.takeEvent rest).siSel = s.siSel := rfl
@[simp] theorem State.takeEvent_candSel (s : State) (rest : List BusEvent) : (s.takeEvent rest).candSel = s.candSel := rfl
@[simp] theorem State.takeEvent_row (s : State) (rest : List BusEvent) : (s.takeEvent rest).row = s.row := rfl
@[simp] theorem State.takeEvent_col (s : State) (rest : List BusEvent) : (s.takeEvent rest).col = s.col := rfl
@[simp] theorem State.takeEvent_cw (s : State) (rest : List BusEvent) : (s.takeEvent rest).cw = s.cw := rfl
@[simp] theorem State.takeEvent_si (s : State) (rest : List BusEvent) : (s.takeEvent rest).si = s.si := rfl
@[simp] theorem State.takeEvent_syndrome (s : State) (rest : List BusEvent) : (s.takeEvent rest).syndrome = s.syndrome := rfl
@[simp] theorem State.takeEvent_decInfo (s : State) (rest : List BusEvent) : (s.takeEvent rest).decInfo = s.decInfo := rfl
@[simp] theorem State.takeEvent_corrected (s : State) (rest : List BusEvent) :
    (s.takeEvent rest).corrected = s.corrected := rfl
@[simp] theorem State.takeEvent_msg (s : State) (rest : List BusEvent) : (s.takeEvent rest).msg = s.msg := rfl
@[simp] theorem State.takeEvent_candCount (s : State) (rest : List BusEvent) :
    (s.takeEvent rest).candCount = s.candCount := rfl
@[simp] theorem State.takeEvent_candCw (s : State) (rest : List BusEvent) : (s.takeEvent rest).candCw = s.candCw := rfl
@[simp] theorem State.takeEvent_candScore (s : State) (rest : List BusEvent) :
    (s.takeEvent rest).candScore = s.candScore := rfl
@[simp] theorem State.takeEvent_best (s : State) (rest : List BusEvent) : (s.takeEvent rest).best = s.best := rfl
@[simp] theorem State.takeEvent_bestSum (s : State) (rest : List BusEvent) : (s.takeEvent rest).bestSum = s.bestSum := rfl
@[simp] theorem State.takeEvent_inReset (s : State) (rest : List BusEvent) : (s.takeEvent rest).inReset = s.inReset := rfl
@[simp] theorem State.takeEvent_inbox (s : State) (rest : List BusEvent) : (s.takeEvent rest).inbox = rest := rfl
@[simp] theorem State.takeEvent_response (s : State) (rest : List BusEvent) : (s.takeEvent rest).response = s.response := rfl
@[simp] theorem State.takeEvent_delay (s : State) (rest : List BusEvent) : (s.takeEvent rest).delay = s.delay - 1 := rfl
@[simp] theorem State.takeEvent_delays (s : State) (rest : List BusEvent) : (s.takeEvent rest).delays = s.delays := rfl
@[simp] theorem State.takeEvent_draws (s : State) (rest : List BusEvent) : (s.takeEvent rest).draws = s.draws := rfl
@[simp] theorem State.takeEvent_code (s : State) (rest : List BusEvent) : (s.takeEvent rest).code = s.code := rfl
@[simp] theorem State.takeEvent_candidates (s : State) (rest : List BusEvent) : (s.takeEvent rest).candidates = s.candidates := rfl
@[simp] theorem State.takeEvent_siWords (s : State) (rest : List BusEvent) : (s.takeEvent rest).siWords = s.siWords := rfl
@[simp] theorem State.takeEvent_busy (s : State) (rest : List BusEvent) : (s.takeEvent rest).busy = s.busy := rfl

-- setOverrun
@[simp] theorem State.setOverrun_build (s : State) : (s.setOverrun).build = s.build := rfl
@[simp] theorem State.setOverrun_cmd (s : State) : (s.setOverrun).cmd = s.cmd := rfl
@[simp] theorem State.setOverrun_pending (s : State) : (s.setOverrun).pending = s.pending := rfl
@[simp] theorem State.setOverrun_cfgOk (s : State) : (s.setOverrun).cfgOk = s.cfgOk := rfl
@[simp] theorem State.setOverrun_overrun (s : State) : (s.setOverrun).overrun = true := rfl
@[simp] theorem State.setOverrun_lastOp (s : State) : (s.setOverrun).lastOp = s.lastOp := rfl
@[simp] theorem State.setOverrun_result (s : State) : (s.setOverrun).result = s.result := rfl
@[simp] theorem State.setOverrun_layout (s : State) : (s.setOverrun).layout = s.layout := rfl
@[simp] theorem State.setOverrun_distMode (s : State) : (s.setOverrun).distMode = s.distMode := rfl
@[simp] theorem State.setOverrun_siCount (s : State) : (s.setOverrun).siCount = s.siCount := rfl
@[simp] theorem State.setOverrun_siSel (s : State) : (s.setOverrun).siSel = s.siSel := rfl
@[simp] theorem State.setOverrun_candSel (s : State) : (s.setOverrun).candSel = s.candSel := rfl
@[simp] theorem State.setOverrun_row (s : State) : (s.setOverrun).row = s.row := rfl
@[simp] theorem State.setOverrun_col (s : State) : (s.setOverrun).col = s.col := rfl
@[simp] theorem State.setOverrun_cw (s : State) : (s.setOverrun).cw = s.cw := rfl
@[simp] theorem State.setOverrun_si (s : State) : (s.setOverrun).si = s.si := rfl
@[simp] theorem State.setOverrun_syndrome (s : State) : (s.setOverrun).syndrome = s.syndrome := rfl
@[simp] theorem State.setOverrun_decInfo (s : State) : (s.setOverrun).decInfo = s.decInfo := rfl
@[simp] theorem State.setOverrun_corrected (s : State) : (s.setOverrun).corrected = s.corrected := rfl
@[simp] theorem State.setOverrun_msg (s : State) : (s.setOverrun).msg = s.msg := rfl
@[simp] theorem State.setOverrun_candCount (s : State) : (s.setOverrun).candCount = s.candCount := rfl
@[simp] theorem State.setOverrun_candCw (s : State) : (s.setOverrun).candCw = s.candCw := rfl
@[simp] theorem State.setOverrun_candScore (s : State) : (s.setOverrun).candScore = s.candScore := rfl
@[simp] theorem State.setOverrun_best (s : State) : (s.setOverrun).best = s.best := rfl
@[simp] theorem State.setOverrun_bestSum (s : State) : (s.setOverrun).bestSum = s.bestSum := rfl
@[simp] theorem State.setOverrun_inReset (s : State) : (s.setOverrun).inReset = s.inReset := rfl
@[simp] theorem State.setOverrun_inbox (s : State) : (s.setOverrun).inbox = s.inbox := rfl
@[simp] theorem State.setOverrun_response (s : State) : (s.setOverrun).response = s.response := rfl
@[simp] theorem State.setOverrun_delay (s : State) : (s.setOverrun).delay = s.delay := rfl
@[simp] theorem State.setOverrun_delays (s : State) : (s.setOverrun).delays = s.delays := rfl
@[simp] theorem State.setOverrun_draws (s : State) : (s.setOverrun).draws = s.draws := rfl
@[simp] theorem State.setOverrun_code (s : State) : (s.setOverrun).code = s.code := rfl
@[simp] theorem State.setOverrun_candidates (s : State) : (s.setOverrun).candidates = s.candidates := rfl
@[simp] theorem State.setOverrun_siWords (s : State) : (s.setOverrun).siWords = s.siWords := rfl
@[simp] theorem State.setOverrun_busy (s : State) : (s.setOverrun).busy = s.busy := rfl

-- clearCfgOk
@[simp] theorem State.clearCfgOk_build (s : State) : (s.clearCfgOk).build = s.build := rfl
@[simp] theorem State.clearCfgOk_cmd (s : State) : (s.clearCfgOk).cmd = s.cmd := rfl
@[simp] theorem State.clearCfgOk_pending (s : State) : (s.clearCfgOk).pending = s.pending := rfl
@[simp] theorem State.clearCfgOk_cfgOk (s : State) : (s.clearCfgOk).cfgOk = false := rfl
@[simp] theorem State.clearCfgOk_overrun (s : State) : (s.clearCfgOk).overrun = s.overrun := rfl
@[simp] theorem State.clearCfgOk_lastOp (s : State) : (s.clearCfgOk).lastOp = s.lastOp := rfl
@[simp] theorem State.clearCfgOk_result (s : State) : (s.clearCfgOk).result = s.result := rfl
@[simp] theorem State.clearCfgOk_layout (s : State) : (s.clearCfgOk).layout = s.layout := rfl
@[simp] theorem State.clearCfgOk_distMode (s : State) : (s.clearCfgOk).distMode = s.distMode := rfl
@[simp] theorem State.clearCfgOk_siCount (s : State) : (s.clearCfgOk).siCount = s.siCount := rfl
@[simp] theorem State.clearCfgOk_siSel (s : State) : (s.clearCfgOk).siSel = s.siSel := rfl
@[simp] theorem State.clearCfgOk_candSel (s : State) : (s.clearCfgOk).candSel = s.candSel := rfl
@[simp] theorem State.clearCfgOk_row (s : State) : (s.clearCfgOk).row = s.row := rfl
@[simp] theorem State.clearCfgOk_col (s : State) : (s.clearCfgOk).col = s.col := rfl
@[simp] theorem State.clearCfgOk_cw (s : State) : (s.clearCfgOk).cw = s.cw := rfl
@[simp] theorem State.clearCfgOk_si (s : State) : (s.clearCfgOk).si = s.si := rfl
@[simp] theorem State.clearCfgOk_syndrome (s : State) : (s.clearCfgOk).syndrome = s.syndrome := rfl
@[simp] theorem State.clearCfgOk_decInfo (s : State) : (s.clearCfgOk).decInfo = s.decInfo := rfl
@[simp] theorem State.clearCfgOk_corrected (s : State) : (s.clearCfgOk).corrected = s.corrected := rfl
@[simp] theorem State.clearCfgOk_msg (s : State) : (s.clearCfgOk).msg = s.msg := rfl
@[simp] theorem State.clearCfgOk_candCount (s : State) : (s.clearCfgOk).candCount = s.candCount := rfl
@[simp] theorem State.clearCfgOk_candCw (s : State) : (s.clearCfgOk).candCw = s.candCw := rfl
@[simp] theorem State.clearCfgOk_candScore (s : State) : (s.clearCfgOk).candScore = s.candScore := rfl
@[simp] theorem State.clearCfgOk_best (s : State) : (s.clearCfgOk).best = s.best := rfl
@[simp] theorem State.clearCfgOk_bestSum (s : State) : (s.clearCfgOk).bestSum = s.bestSum := rfl
@[simp] theorem State.clearCfgOk_inReset (s : State) : (s.clearCfgOk).inReset = s.inReset := rfl
@[simp] theorem State.clearCfgOk_inbox (s : State) : (s.clearCfgOk).inbox = s.inbox := rfl
@[simp] theorem State.clearCfgOk_response (s : State) : (s.clearCfgOk).response = s.response := rfl
@[simp] theorem State.clearCfgOk_delay (s : State) : (s.clearCfgOk).delay = s.delay := rfl
@[simp] theorem State.clearCfgOk_delays (s : State) : (s.clearCfgOk).delays = s.delays := rfl
@[simp] theorem State.clearCfgOk_draws (s : State) : (s.clearCfgOk).draws = s.draws := rfl
@[simp] theorem State.clearCfgOk_code (s : State) : (s.clearCfgOk).code = s.code := rfl
@[simp] theorem State.clearCfgOk_candidates (s : State) : (s.clearCfgOk).candidates = s.candidates := rfl
@[simp] theorem State.clearCfgOk_siWords (s : State) : (s.clearCfgOk).siWords = s.siWords := rfl
@[simp] theorem State.clearCfgOk_busy (s : State) : (s.clearCfgOk).busy = s.busy := rfl

-- assertReset
@[simp] theorem State.assertReset_build (s : State) : (s.assertReset).build = s.build := rfl
@[simp] theorem State.assertReset_cmd (s : State) : (s.assertReset).cmd = s.cmd := rfl
@[simp] theorem State.assertReset_pending (s : State) : (s.assertReset).pending = none := rfl
@[simp] theorem State.assertReset_cfgOk (s : State) : (s.assertReset).cfgOk = s.cfgOk := rfl
@[simp] theorem State.assertReset_overrun (s : State) : (s.assertReset).overrun = s.overrun := rfl
@[simp] theorem State.assertReset_lastOp (s : State) : (s.assertReset).lastOp = s.lastOp := rfl
@[simp] theorem State.assertReset_result (s : State) : (s.assertReset).result = s.result := rfl
@[simp] theorem State.assertReset_layout (s : State) : (s.assertReset).layout = s.layout := rfl
@[simp] theorem State.assertReset_distMode (s : State) : (s.assertReset).distMode = s.distMode := rfl
@[simp] theorem State.assertReset_siCount (s : State) : (s.assertReset).siCount = s.siCount := rfl
@[simp] theorem State.assertReset_siSel (s : State) : (s.assertReset).siSel = s.siSel := rfl
@[simp] theorem State.assertReset_candSel (s : State) : (s.assertReset).candSel = s.candSel := rfl
@[simp] theorem State.assertReset_row (s : State) : (s.assertReset).row = s.row := rfl
@[simp] theorem State.assertReset_col (s : State) : (s.assertReset).col = s.col := rfl
@[simp] theorem State.assertReset_cw (s : State) : (s.assertReset).cw = s.cw := rfl
@[simp] theorem State.assertReset_si (s : State) : (s.assertReset).si = s.si := rfl
@[simp] theorem State.assertReset_syndrome (s : State) : (s.assertReset).syndrome = s.syndrome := rfl
@[simp] theorem State.assertReset_decInfo (s : State) : (s.assertReset).decInfo = s.decInfo := rfl
@[simp] theorem State.assertReset_corrected (s : State) : (s.assertReset).corrected = s.corrected := rfl
@[simp] theorem State.assertReset_msg (s : State) : (s.assertReset).msg = s.msg := rfl
@[simp] theorem State.assertReset_candCount (s : State) : (s.assertReset).candCount = s.candCount := rfl
@[simp] theorem State.assertReset_candCw (s : State) : (s.assertReset).candCw = s.candCw := rfl
@[simp] theorem State.assertReset_candScore (s : State) : (s.assertReset).candScore = s.candScore := rfl
@[simp] theorem State.assertReset_best (s : State) : (s.assertReset).best = s.best := rfl
@[simp] theorem State.assertReset_bestSum (s : State) : (s.assertReset).bestSum = s.bestSum := rfl
@[simp] theorem State.assertReset_inReset (s : State) : (s.assertReset).inReset = true := rfl
@[simp] theorem State.assertReset_inbox (s : State) : (s.assertReset).inbox = s.inbox := rfl
@[simp] theorem State.assertReset_response (s : State) : (s.assertReset).response = s.response := rfl
@[simp] theorem State.assertReset_delay (s : State) : (s.assertReset).delay = 0 := rfl
@[simp] theorem State.assertReset_delays (s : State) : (s.assertReset).delays = s.delays := rfl
@[simp] theorem State.assertReset_draws (s : State) : (s.assertReset).draws = s.draws := rfl
@[simp] theorem State.assertReset_code (s : State) : (s.assertReset).code = s.code := rfl
@[simp] theorem State.assertReset_candidates (s : State) : (s.assertReset).candidates = s.candidates := rfl
@[simp] theorem State.assertReset_siWords (s : State) : (s.assertReset).siWords = s.siWords := rfl

-- withPending
@[simp] theorem State.withPending_build (s : State) (w : Word) : (s.withPending w).build = s.build := rfl
@[simp] theorem State.withPending_cmd (s : State) (w : Word) : (s.withPending w).cmd = w := rfl
@[simp] theorem State.withPending_pending (s : State) (w : Word) : (s.withPending w).pending = some w := rfl
@[simp] theorem State.withPending_cfgOk (s : State) (w : Word) : (s.withPending w).cfgOk = s.cfgOk := rfl
@[simp] theorem State.withPending_overrun (s : State) (w : Word) : (s.withPending w).overrun = s.overrun := rfl
@[simp] theorem State.withPending_lastOp (s : State) (w : Word) : (s.withPending w).lastOp = s.lastOp := rfl
@[simp] theorem State.withPending_result (s : State) (w : Word) : (s.withPending w).result = s.result := rfl
@[simp] theorem State.withPending_layout (s : State) (w : Word) : (s.withPending w).layout = s.layout := rfl
@[simp] theorem State.withPending_distMode (s : State) (w : Word) : (s.withPending w).distMode = s.distMode := rfl
@[simp] theorem State.withPending_siCount (s : State) (w : Word) : (s.withPending w).siCount = s.siCount := rfl
@[simp] theorem State.withPending_siSel (s : State) (w : Word) : (s.withPending w).siSel = s.siSel := rfl
@[simp] theorem State.withPending_candSel (s : State) (w : Word) : (s.withPending w).candSel = s.candSel := rfl
@[simp] theorem State.withPending_row (s : State) (w : Word) : (s.withPending w).row = s.row := rfl
@[simp] theorem State.withPending_col (s : State) (w : Word) : (s.withPending w).col = s.col := rfl
@[simp] theorem State.withPending_cw (s : State) (w : Word) : (s.withPending w).cw = s.cw := rfl
@[simp] theorem State.withPending_si (s : State) (w : Word) : (s.withPending w).si = s.si := rfl
@[simp] theorem State.withPending_syndrome (s : State) (w : Word) : (s.withPending w).syndrome = s.syndrome := rfl
@[simp] theorem State.withPending_decInfo (s : State) (w : Word) : (s.withPending w).decInfo = s.decInfo := rfl
@[simp] theorem State.withPending_corrected (s : State) (w : Word) : (s.withPending w).corrected = s.corrected := rfl
@[simp] theorem State.withPending_msg (s : State) (w : Word) : (s.withPending w).msg = s.msg := rfl
@[simp] theorem State.withPending_candCount (s : State) (w : Word) : (s.withPending w).candCount = s.candCount := rfl
@[simp] theorem State.withPending_candCw (s : State) (w : Word) : (s.withPending w).candCw = s.candCw := rfl
@[simp] theorem State.withPending_candScore (s : State) (w : Word) : (s.withPending w).candScore = s.candScore := rfl
@[simp] theorem State.withPending_best (s : State) (w : Word) : (s.withPending w).best = s.best := rfl
@[simp] theorem State.withPending_bestSum (s : State) (w : Word) : (s.withPending w).bestSum = s.bestSum := rfl
@[simp] theorem State.withPending_inReset (s : State) (w : Word) : (s.withPending w).inReset = false := rfl
@[simp] theorem State.withPending_inbox (s : State) (w : Word) : (s.withPending w).inbox = s.inbox := rfl
@[simp] theorem State.withPending_response (s : State) (w : Word) : (s.withPending w).response = s.response := rfl
@[simp] theorem State.withPending_delay (s : State) (w : Word) : (s.withPending w).delay = 0 := rfl
@[simp] theorem State.withPending_delays (s : State) (w : Word) : (s.withPending w).delays = s.delays := rfl
@[simp] theorem State.withPending_draws (s : State) (w : Word) : (s.withPending w).draws = s.draws := rfl
@[simp] theorem State.withPending_code (s : State) (w : Word) : (s.withPending w).code = s.code := rfl
@[simp] theorem State.withPending_candidates (s : State) (w : Word) : (s.withPending w).candidates = s.candidates := rfl
@[simp] theorem State.withPending_siWords (s : State) (w : Word) : (s.withPending w).siWords = s.siWords := rfl

end Sys2Proof.Machine
end

