-- ==== Sys2Proof/Laws/Ops.lean ====
section
/-! SUPPORT. What each meaning can do, said once as its list of outcomes, and the views of the state under the shared operations. -/

namespace Sys2Proof.Machine

@[simp] theorem State.complete_busy (s : State) (op : BitVec 4) (code : ResultCode) :
    (s.complete op code).busy = false := rfl
@[simp] theorem State.accept_busy (s : State) (v : Word) : (s.accept v).busy = true := rfl
@[simp] theorem State.withPending_busy (s : State) (w : Word) : (s.withPending w).busy = true := rfl
@[simp] theorem State.clearCandidates_candidates (s : State) : s.clearCandidates.candidates = [] := rfl

theorem State.length_candidates (s : State) : s.candidates.length = s.candCount.toNat := by simp [State.candidates]
theorem State.length_siWords (s : State) : s.siWords.length = s.siCount.toNat := by simp [State.siWords]

theorem State.getD_candidates (s : State) (c : Nat) (h : c < s.candCount.toNat) :
    s.candidates.getD c 0 = s.candCw.getD c 0 := by
  simp [State.candidates, List.getD_eq_getElem?_getD, h]

/-- A list that fits the counter is read back as the candidates in use. -/
theorem State.storeCandidates_candidates (s : State) (list : List Codeword) (h : list.length < 65536) :
    (s.storeCandidates list).candidates = list := by
  have hc : (BitVec.ofNat 16 list.length).toNat = list.length := by
    rw [BitVec.toNat_ofNat]
    exact Nat.mod_eq_of_lt h
  refine List.ext_getElem (by simp [State.candidates, hc]) fun c h1 h2 => ?_
  simp [State.candidates, List.getElem?_append_left, h2]

theorem withConfig_true {op : BitVec 4} {s : State} {body : Host.Outcome State Fault Refusal} (h : s.cfgOk = true) :
    withConfig op s body = body := by simp [withConfig, h]

theorem withConfig_false {op : BitVec 4} {s : State} {body : Host.Outcome State Fault Refusal}
    (h : s.cfgOk = false) : withConfig op s body = .next (s.complete op .eConfig) := by
  simp [withConfig, h, fail]

theorem unlessMalformed_true {op : BitVec 4} {b : Bool} {s : State} {body : Host.Outcome State Fault Refusal}
    (h : b = true) : unlessMalformed op b s body = .next (s.complete op .eMalformed) := by
  simp [unlessMalformed, h, fail]

theorem unlessMalformed_false {op : BitVec 4} {b : Bool} {s : State} {body : Host.Outcome State Fault Refusal}
    (h : b = false) : unlessMalformed op b s body = body := by simp [unlessMalformed, h]

/-- The outcomes of SYN (40_syndrome.md R135). -/
theorem execSyn_cases (s : State) :
    (s.cfgOk = false ∧ execSyn s = .next (s.complete 0x1 .eConfig)) ∨
    (s.cfgOk = true ∧ execSyn s = .next (s.writeSyndrome.complete 0x1 .ok)) := by
  unfold execSyn
  cases h : s.cfgOk
  · exact .inl ⟨rfl, withConfig_false h⟩
  · exact .inr ⟨rfl, withConfig_true h⟩

/-- The outcomes of DECODE (41_decoder.md R160). -/
theorem execDecode_cases (s : State) :
    (s.cfgOk = false ∧ execDecode s = .next (s.complete 0x2 .eConfig)) ∨
    (s.cfgOk = true ∧ execDecode s =
      .next ((s.writeDecode (s.code.decodeWord s.cw)).complete 0x2 (s.code.decodeWord s.cw).outcome.code)) := by
  unfold execDecode
  cases h : s.cfgOk
  · exact .inl ⟨rfl, withConfig_false h⟩
  · exact .inr ⟨rfl, withConfig_true h⟩

/-- The outcomes of ENUM (42_enumerator.md R185). -/
theorem execEnum_cases (m : Nat) (s : State) :
    (s.cfgOk = false ∧ execEnum m s = .next (s.complete 0x3 .eConfig)) ∨
    (s.cfgOk = true ∧ s.maxcTooLarge m = true ∧ execEnum m s = .next (s.complete 0x3 .eMalformed)) ∨
    (s.cfgOk = true ∧ s.maxcTooLarge m = false ∧ (s.code.decodeWord s.cw).outcome ≠ .due ∧
      execEnum m s = .next ((s.writeDecode (s.code.decodeWord s.cw)).clearCandidates.complete 0x3 .eNotDue)) ∨
    (s.cfgOk = true ∧ s.maxcTooLarge m = false ∧ (s.code.decodeWord s.cw).outcome = .due ∧
      s.code.enumerate s.cw m = .capacity ∧
      execEnum m s = .next ((s.writeDecode (s.code.decodeWord s.cw)).clearCandidates.complete 0x3 .eCapacity)) ∨
    (s.cfgOk = true ∧ s.maxcTooLarge m = false ∧ (s.code.decodeWord s.cw).outcome = .due ∧
      s.code.enumerate s.cw m = .unrecoverable ∧
      execEnum m s =
        .next ((s.writeDecode (s.code.decodeWord s.cw)).clearCandidates.complete 0x3 .eUnrecoverableDue)) ∨
    (s.cfgOk = true ∧ s.maxcTooLarge m = false ∧ (s.code.decodeWord s.cw).outcome = .due ∧
      ∃ list, s.code.enumerate s.cw m = .candidates list ∧
      execEnum m s =
        .next (((s.writeDecode (s.code.decodeWord s.cw)).storeCandidates list).complete 0x3 .candidates)) := by
  unfold execEnum
  cases h : s.cfgOk
  · exact .inl ⟨rfl, withConfig_false h⟩
  right
  rw [withConfig_true h]
  cases hm : s.maxcTooLarge m
  swap
  · exact .inl ⟨rfl, rfl, unlessMalformed_true rfl⟩
  right
  rw [unlessMalformed_false rfl]
  by_cases hd : (s.code.decodeWord s.cw).outcome = .due
  swap
  · exact .inl ⟨rfl, rfl, hd, by rw [if_neg hd]; rfl⟩
  right
  rw [if_pos hd]
  cases he : s.code.enumerate s.cw m with
  | capacity => exact .inl ⟨rfl, rfl, hd, rfl, rfl⟩
  | unrecoverable => exact .inr (.inl ⟨rfl, rfl, hd, rfl, rfl⟩)
  | candidates list => exact .inr (.inr ⟨rfl, rfl, hd, list, rfl, rfl⟩)

/-- The outcomes of CHOOSE (43_scorer.md R220). -/
theorem execChoose_cases (s : State) :
    (s.cfgOk = false ∧ execChoose s = .next (s.complete 0x4 .eConfig)) ∨
    (s.cfgOk = true ∧ s.siCountTooLarge = true ∧ execChoose s = .next (s.complete 0x4 .eMalformed)) ∨
    (s.cfgOk = true ∧ s.siCountTooLarge = false ∧ s.candCount = 0 ∧
      execChoose s = .next (s.complete 0x4 .eAmbiguous)) ∨
    (s.cfgOk = true ∧ s.siCountTooLarge = false ∧ s.candCount ≠ 0 ∧
      execChoose s = .next (s.resolveDue.complete 0x4 .chosen)) := by
  unfold execChoose
  cases h : s.cfgOk
  · exact .inl ⟨rfl, withConfig_false h⟩
  right
  rw [withConfig_true h]
  cases hm : s.siCountTooLarge
  swap
  · exact .inl ⟨rfl, rfl, unlessMalformed_true rfl⟩
  right
  rw [unlessMalformed_false rfl]
  by_cases hc : s.candCount = 0
  · exact .inl ⟨rfl, rfl, hc, by rw [if_pos hc]; rfl⟩
  · exact .inr ⟨rfl, rfl, hc, by rw [if_neg hc]; rfl⟩

/-- The outcomes of RUN (44_pipeline_config.md R240). -/
theorem execRun_cases (m : Nat) (s : State) :
    (s.cfgOk = false ∧ execRun m s = .next (s.complete 0x5 .eConfig)) ∨
    (s.cfgOk = true ∧ (s.maxcTooLarge m = true ∨ s.siCountTooLarge = true) ∧
      execRun m s = .next (s.complete 0x5 .eMalformed)) ∨
    (s.cfgOk = true ∧ s.maxcTooLarge m = false ∧ s.siCountTooLarge = false ∧
      (s.code.decodeWord s.cw).outcome ≠ .due ∧
      execRun m s = .next ((s.writeDecode (s.code.decodeWord s.cw)).clearCandidates.complete 0x5
        (s.code.decodeWord s.cw).outcome.code)) ∨
    (s.cfgOk = true ∧ s.maxcTooLarge m = false ∧ s.siCountTooLarge = false ∧
      (s.code.decodeWord s.cw).outcome = .due ∧ s.code.enumerate s.cw m = .capacity ∧
      execRun m s = .next ((s.writeDecode (s.code.decodeWord s.cw)).clearCandidates.complete 0x5 .eCapacity)) ∨
    (s.cfgOk = true ∧ s.maxcTooLarge m = false ∧ s.siCountTooLarge = false ∧
      (s.code.decodeWord s.cw).outcome = .due ∧ s.code.enumerate s.cw m = .unrecoverable ∧
      execRun m s =
        .next ((s.writeDecode (s.code.decodeWord s.cw)).clearCandidates.complete 0x5 .eUnrecoverableDue)) ∨
    (s.cfgOk = true ∧ s.maxcTooLarge m = false ∧ s.siCountTooLarge = false ∧
      (s.code.decodeWord s.cw).outcome = .due ∧ ∃ list, s.code.enumerate s.cw m = .candidates list ∧
      execRun m s = .next (((s.writeDecode (s.code.decodeWord s.cw)).storeCandidates list).resolveDue.complete
        0x5 .dueResolved)) := by
  unfold execRun
  cases h : s.cfgOk
  · exact .inl ⟨rfl, withConfig_false h⟩
  right
  rw [withConfig_true h]
  cases hm : s.maxcTooLarge m
  swap
  · exact .inl ⟨rfl, .inl rfl, unlessMalformed_true rfl⟩
  rw [unlessMalformed_false rfl]
  cases hs : s.siCountTooLarge
  swap
  · exact .inl ⟨rfl, .inr rfl, unlessMalformed_true rfl⟩
  right
  rw [unlessMalformed_false rfl]
  cases hd : (s.code.decodeWord s.cw).outcome with
  | noError => exact .inl ⟨rfl, rfl, rfl, by simp, rfl⟩
  | corrected => exact .inl ⟨rfl, rfl, rfl, by simp, rfl⟩
  | due =>
    right
    cases he : s.code.enumerate s.cw m with
    | capacity => exact .inl ⟨rfl, rfl, rfl, rfl, rfl, rfl⟩
    | unrecoverable => exact .inr (.inl ⟨rfl, rfl, rfl, rfl, rfl, rfl⟩)
    | candidates list => exact .inr (.inr ⟨rfl, rfl, rfl, rfl, list, rfl, rfl⟩)

/-- The outcomes of COMMIT (44_pipeline_config.md R252). -/
theorem execCommit_cases (s : State) :
    (s.code.commitOk = true ∧ execCommit s = .next ((s.clearCandidates.setCfgOk true).complete 0x6 .ok)) ∨
    (s.code.commitOk = false ∧ execCommit s = .next ((s.clearCandidates.setCfgOk false).complete 0x6 .eConfig)) := by
  unfold execCommit
  cases h : s.code.commitOk
  · exact .inr ⟨rfl, by simp [fail]⟩
  · exact .inl ⟨rfl, by simp [succeed]⟩

/-- What the choice can be: the shortcut, or the earliest minimum of the scores (43_scorer.md R214, R217). -/
theorem Code.choose_cases (c : Code) (cands sis : List Codeword) :
    ((cands.length = 1 ∨ sis.length = 0) ∧ c.choose cands sis = ⟨0, List.replicate cands.length 0⟩) ∨
    (¬ (cands.length = 1 ∨ sis.length = 0) ∧
      c.choose cands sis = ⟨bestIndex (cands.map (c.score sis)), cands.map (c.score sis)⟩) := by
  unfold Code.choose
  split_ifs with h
  · exact .inl ⟨h, rfl⟩
  · exact .inr ⟨h, rfl⟩

/-- A choice has one score for each candidate. -/
theorem Code.length_choose (c : Code) (cands sis : List Codeword) :
    (c.choose cands sis).scores.length = cands.length := by
  rcases c.choose_cases cands sis with ⟨_, h⟩ | ⟨_, h⟩ <;> simp [h]

end Sys2Proof.Machine
end

