-- ==== Sys2Proof/Laws/Window.lean ====
section
/-! SUPPORT. The frame of host writes, what a write to the window can change, and what a read of CMD returns. -/

namespace Sys2Proof.Machine

/-- A host write that is not discarded changes no result register, no handshake with reset, and no build parameter
(20_memory.md R79, R81). -/
theorem State.writeReg_frame (s : State) (v : Word) (r : Reg) :
    (s.writeReg v r).build = s.build ∧ (s.writeReg v r).lastOp = s.lastOp ∧ (s.writeReg v r).result = s.result ∧
    (s.writeReg v r).syndrome = s.syndrome ∧ (s.writeReg v r).decInfo = s.decInfo ∧
    (s.writeReg v r).corrected = s.corrected ∧ (s.writeReg v r).msg = s.msg ∧
    (s.writeReg v r).candCount = s.candCount ∧ (s.writeReg v r).candCw = s.candCw ∧
    (s.writeReg v r).candScore = s.candScore ∧ (s.writeReg v r).best = s.best ∧
    (s.writeReg v r).bestSum = s.bestSum ∧ (s.writeReg v r).inReset = s.inReset ∧
    (s.writeReg v r).inbox = s.inbox ∧ (s.writeReg v r).response = s.response := by
  cases r
  case status =>
    simp only [State.writeReg, State.writeStatus]
    split <;> exact ⟨rfl, rfl, rfl, rfl, rfl, rfl, rfl, rfl, rfl, rfl, rfl, rfl, rfl, rfl, rfl⟩
  case siData =>
    simp only [State.writeReg, State.writeSiData]
    split <;> exact ⟨rfl, rfl, rfl, rfl, rfl, rfl, rfl, rfl, rfl, rfl, rfl, rfl, rfl, rfl, rfl⟩
  case col =>
    simp only [State.writeReg, State.writeCol]
    split <;> exact ⟨rfl, rfl, rfl, rfl, rfl, rfl, rfl, rfl, rfl, rfl, rfl, rfl, rfl, rfl, rfl⟩
  case row =>
    simp only [State.writeReg, State.writeRow]
    split <;> exact ⟨rfl, rfl, rfl, rfl, rfl, rfl, rfl, rfl, rfl, rfl, rfl, rfl, rfl, rfl, rfl⟩
  all_goals exact ⟨rfl, rfl, rfl, rfl, rfl, rfl, rfl, rfl, rfl, rfl, rfl, rfl, rfl, rfl, rfl⟩

/-- A choice between two registers, neither of which is `r`, is not `r`. -/
theorem ite_reg_ne {p : Prop} [Decidable p] {a b r : Reg} (ha : a ≠ r) (hb : b ≠ r) : (if p then a else b) ≠ r := by
  split
  · exact ha
  · exact hb

/-- CMD stands at offset 0x000 alone (10_state.md section 8). -/
theorem regAt_ne_cmd {off : Nat} (h : off ≠ 0x000) : regAt off ≠ .cmd := by
  rw [regAt, if_neg h]
  repeat' apply ite_reg_ne
  all_goals exact Reg.noConfusion

/-- STATUS stands at offset 0x004 alone (10_state.md section 8). -/
theorem regAt_ne_status {off : Nat} (h : off ≠ 0x004) : regAt off ≠ .status := by
  rw [regAt, if_neg h]
  repeat' apply ite_reg_ne
  all_goals exact Reg.noConfusion

/-- A read of CMD returns the word CMD holds, busy or idle (10_state.md R42; log 27). -/
@[simp] theorem State.readWindow_cmd (s : State) : s.readWindow 0x000 = s.cmd := rfl

/-- A STATUS write clears OVERRUN or does nothing (10_state.md R43). -/
theorem State.writeStatus_cases (s : State) (v : Word) :
    (v.getLsbD 2 = true ∧ s.writeStatus v = s.clearOverrun) ∨ (v.getLsbD 2 = false ∧ s.writeStatus v = s) := by
  unfold State.writeStatus
  cases v.getLsbD 2 <;> simp

/-- A COL write stores below N and clears CFG_OK everywhere (10_state.md R37; 20_memory.md R77). -/
theorem State.writeCol_cases (s : State) (j : Nat) (v : Word) :
    (j < s.build.n ∧ s.writeCol j v = s.storeCol j v) ∨ (s.build.n ≤ j ∧ s.writeCol j v = s.clearCfgOk) := by
  unfold State.writeCol
  split_ifs with h
  · exact .inl ⟨h, rfl⟩
  · exact .inr ⟨Nat.not_lt.1 h, rfl⟩

/-- A ROW write stores below R and clears CFG_OK everywhere (10_state.md R37; 20_memory.md R77). -/
theorem State.writeRow_cases (s : State) (i l : Nat) (v : Word) :
    (i < s.build.r ∧ s.writeRow i l v = s.storeRow i l v) ∨ (s.build.r ≤ i ∧ s.writeRow i l v = s.clearCfgOk) := by
  unfold State.writeRow
  split_ifs with h
  · exact .inl ⟨h, rfl⟩
  · exact .inr ⟨Nat.not_lt.1 h, rfl⟩

/-- An SI_DATA write stores into the selected word, or does nothing (10_state.md R40). -/
theorem State.writeSiData_cases (s : State) (l : Nat) (v : Word) :
    (s.siSel.toNat < s.build.siCap ∧ s.writeSiData l v = s.storeSi s.siSel.toNat l v) ∨
    (s.build.siCap ≤ s.siSel.toNat ∧ s.writeSiData l v = s) := by
  unfold State.writeSiData
  split_ifs with h
  · exact .inl ⟨h, rfl⟩
  · exact .inr ⟨Nat.not_lt.1 h, rfl⟩

/-- What one read of POLL does (30_encoding.md R111; log 13). -/
theorem State.pollOnce_cases (s : State) :
    (s.inReset = true ∧ s.pollOnce = s.respond .ignored) ∨
    (s.inReset = false ∧ s.busy = true ∧ s.pollOnce = s.keepPolling.respond (.data s.statusWord)) ∨
    (s.inReset = false ∧ s.busy = false ∧ s.pollOnce = s.respond (.data s.statusWord)) := by
  unfold State.pollOnce
  cases s.inReset <;> cases s.busy <;> simp

/-- The three things a host write to the window does (20_memory.md R87). -/
theorem State.writeWindow_cases (s : State) (off : Nat) (v : Word) :
    (off = 0x004 ∧ s.writeWindow off v = s.writeStatus v) ∨
    (off ≠ 0x004 ∧ s.busy = true ∧ s.writeWindow off v = s.setOverrun) ∨
    (off ≠ 0x004 ∧ s.busy = false ∧ s.writeWindow off v = s.writeReg v (regAt off)) := by
  unfold State.writeWindow
  split_ifs with h1 h2
  · exact .inl ⟨h1, rfl⟩
  · exact .inr (.inl ⟨h1, h2, rfl⟩)
  · exact .inr (.inr ⟨h1, by simpa using h2, rfl⟩)

/-- Everything a host access inside the window does to the block (20_memory.md R75; 70_reset_and_hazards.md R300). -/
theorem State.access_cases (s : State) (off : Nat) (a : Access) :
    (s.inReset = true ∧ s.access off a = s.respond .ignored) ∨
    (s.inReset = false ∧ a.wholeWord off = false ∧ s.access off a = s.respond (.busError off)) ∨
    (s.inReset = false ∧ a.wholeWord off = true ∧ a.kind = .read ∧
      s.access off a = s.respond (.data (s.readWindow off))) ∨
    (s.inReset = false ∧ a.wholeWord off = true ∧ ∃ v, a.kind = .write v ∧
      s.access off a = (s.writeWindow off v).respond .accepted) := by
  unfold State.access
  cases h : s.inReset
  swap
  · exact .inl ⟨rfl, rfl⟩
  right
  cases hw : a.wholeWord off
  · exact .inl ⟨rfl, rfl, rfl⟩
  right
  cases hk : a.kind with
  | read => exact .inl ⟨rfl, rfl, rfl, rfl⟩
  | write v => exact .inr ⟨rfl, rfl, v, rfl, rfl⟩

end Sys2Proof.Machine
end

