-- ==== Sys2Proof/Laws/Step.lean ====
section
/-! SUPPORT. Everything one step can do (spec/20_memory.md R85, R89, R90). -/

namespace Sys2Proof.Machine

/-- When the engine moves next. -/
theorem State.engineTurn_iff (s : State) :
    s.engineTurn = true ↔ s.busy = true ∧ s.inReset = false ∧ (s.delay = 0 ∨ s.inbox = []) := by
  simp [State.engineTurn, and_assoc]

/-- A step of the bus delivers the first waiting event. -/
theorem step_of_event {s : State} {e : BusEvent} {rest : List BusEvent} (h : s.deliversNow e rest) :
    step s = deliver e (s.takeEvent rest) := by
  simp [step, h.1, hostTurn, h.2]

/-- A run of any machine whose first step answers a next state goes on from there. -/
theorem coreRun_of_step (m : Host.Core) {s t : m.State} (n : Nat) (h : m.step s = .next t) :
    m.run (n + 1) s = m.run n t := by
  simp only [Host.Core.run, h]

/-- A run whose first step answers a next state goes on from there. -/
theorem run_of_step {s t : State} (n : Nat) (h : step s = .next t) :
    Sys2Proof.core.run (n + 1) s = Sys2Proof.core.run n t := coreRun_of_step Sys2Proof.core n h

/-- Everything a step that answers a next state can have done: completed the pending command (or an illegal word), stayed
idle, or delivered the first waiting event. -/
theorem step_cases {s t : State} (h : step s = .next t) :
    (s.engineTurn = true ∧ ∃ w, s.pending = some w ∧
      ((∃ i, decodeCmd w = .ok i ∧ exec i s = .next t) ∨
       (∃ e, decodeCmd w = .error e ∧ t = s.complete (cmdOp w) .eIllegalOp))) ∨
    (s.engineTurn = false ∧ s.inbox = [] ∧ t = s) ∨
    (s.engineTurn = false ∧ ∃ e rest, s.inbox = e :: rest ∧
      deliver e (s.takeEvent rest) = .next t) := by
  unfold step at h
  cases he : s.engineTurn
  · right
    rw [he] at h
    simp only [Bool.false_eq_true, if_false, hostTurn] at h
    cases hi : s.inbox with
    | nil =>
      rw [hi] at h
      exact .inl ⟨rfl, rfl, by injection h with h; exact h.symm⟩
    | cons e rest =>
      rw [hi] at h
      exact .inr ⟨rfl, e, rest, rfl, h⟩
  · left
    rw [he] at h
    simp only [if_true, completePending] at h
    have hb := (s.engineTurn_iff.1 he).1
    obtain ⟨w, hw⟩ := Option.isSome_iff_exists.1 hb
    rw [hw] at h
    refine ⟨rfl, w, hw, ?_⟩
    simp only [completeWord] at h
    cases hd : decodeCmd w with
    | ok i =>
      rw [hd] at h
      exact .inl ⟨i, rfl, h⟩
    | error e =>
      rw [hd] at h
      simp only [completeIllegal, fail] at h
      exact .inr ⟨e, rfl, by injection h with h; exact h.symm⟩

/-- Everything the delivery of an event that answers a next state can have done. -/
theorem deliver_cases {e : BusEvent} {s t : State} (h : deliver e s = .next t) :
    (∃ a, e = .access a ∧ s.inWindow a.addr = true ∧ t = s.access (a.addr - s.build.base) a) ∨
    (e = .poll ∧ t = s.pollOnce) ∨ (e = .resetAssert ∧ t = s.assertReset) ∨
    (e = .resetRelease ∧ t = s.releaseReset) := by
  cases e with
  | access a =>
    simp only [deliver] at h
    split_ifs at h with hw
    injection h with h
    exact .inl ⟨a, rfl, hw, h.symm⟩
  | poll => injection h with h; exact .inr (.inl ⟨rfl, h.symm⟩)
  | resetAssert => injection h with h; exact .inr (.inr (.inl ⟨rfl, h.symm⟩))
  | resetRelease => injection h with h; exact .inr (.inr (.inr ⟨rfl, h.symm⟩))

end Sys2Proof.Machine
end

