-- ==== Sys2Proof/Laws/PerInstr.lean ====
section
/-! SUPPORT. A statement about every command as syntax, made per constructor: the command word decodes to the command it was
written for (spec/30_encoding.md R105, R110). -/

namespace Sys2Proof.Laws

open Sys2Proof

/-- Decoding the command word of a well-formed command gives the command back. -/
def RoundTrip.Statement (i : Instr) : Prop :=
  i.wellFormed = true → decodeCmd (encode i) = .ok i

theorem RoundTrip.syn : RoundTrip.Statement .syn := fun _ => by decide

theorem RoundTrip.decode : RoundTrip.Statement .decode := fun _ => by decide

/-- The three fields of a word written as (maxc << 16) | op. -/
theorem fields_of_encoded (maxc : Nat) (op : BitVec 4) (h : maxc < 65536) :
    cmdRsv ((BitVec.ofNat 32 maxc <<< 16) ||| op.setWidth 32) = 0 ∧
    cmdOp ((BitVec.ofNat 32 maxc <<< 16) ||| op.setWidth 32) = op ∧
    cmdMaxc ((BitVec.ofNat 32 maxc <<< 16) ||| op.setWidth 32) = maxc := by
  have hm : maxc = (BitVec.ofNat 16 maxc).toNat := by
    rw [BitVec.toNat_ofNat, Nat.mod_eq_of_lt h]
  have hw : BitVec.ofNat 32 maxc = (BitVec.ofNat 16 maxc).setWidth 32 := by
    refine BitVec.eq_of_toNat_eq ?_
    rw [BitVec.toNat_setWidth, ← hm, BitVec.toNat_ofNat]
  refine ⟨?_, ?_, ?_⟩
  · refine BitVec.eq_of_getLsbD_eq fun i hi => ?_
    simp only [cmdRsv, BitVec.getLsbD_extractLsb', BitVec.getLsbD_or, BitVec.getLsbD_shiftLeft, BitVec.getLsbD_setWidth]
    rw [BitVec.getLsbD_of_ge op (4 + i) (by omega)]
    simp [show 4 + i < 16 by omega]
  · refine BitVec.eq_of_getLsbD_eq fun i hi => ?_
    simp only [cmdOp, BitVec.getLsbD_extractLsb', BitVec.getLsbD_or, BitVec.getLsbD_shiftLeft, BitVec.getLsbD_setWidth]
    rw [show 0 + i = i by omega]
    have h16 : i < 16 := by omega
    have h32 : i < 32 := by omega
    simp [hi, h16, h32]
  · rw [cmdMaxc]
    conv_rhs => rw [hm]
    refine congrArg _ (BitVec.eq_of_getLsbD_eq fun i hi => ?_)
    simp only [hw, BitVec.getLsbD_extractLsb', BitVec.getLsbD_or, BitVec.getLsbD_shiftLeft, BitVec.getLsbD_setWidth]
    rw [BitVec.getLsbD_of_ge op (16 + i) (by omega)]
    have h16 : 16 + i < 32 := by omega
    have h1 : 16 + i - 16 = i := by omega
    simp [hi, h16, h1]
    omega

theorem RoundTrip.enum (maxc : Nat) : RoundTrip.Statement (.enum maxc) := fun h => by
  obtain ⟨hr, ho, hm⟩ := fields_of_encoded maxc (Instr.enum maxc).op (by simpa [Instr.wellFormed] using h)
  simp only [decodeCmd, encode, Instr.maxcField, hr, ho, hm]
  simp [Instr.op]

theorem RoundTrip.choose : RoundTrip.Statement .choose := fun _ => by decide

theorem RoundTrip.run (maxc : Nat) : RoundTrip.Statement (.run maxc) := fun h => by
  obtain ⟨hr, ho, hm⟩ := fields_of_encoded maxc (Instr.run maxc).op (by simpa [Instr.wellFormed] using h)
  simp only [decodeCmd, encode, Instr.maxcField, hr, ho, hm]
  simp [Instr.op]

theorem RoundTrip.commit : RoundTrip.Statement .commit := fun _ => by decide

end Sys2Proof.Laws
end

