-- ==== Sys2Proof/Tests/Slice0.lean ====
section
/-! SUPPORT. Tests: the checks of WellFormed, command words written out from spec/30_encoding.md R100 and R101, single
commands on the vectors of spec/95_test_vectors.md, and for every statement with hypotheses a state and operands that meet them. -/

namespace Sys2Proof.Tests

open Sys2Proof Sys2Proof.Machine

set_option Elab.async false

/-! ## WellFormed -/

theorem test_enum_maxc_65536_refused : (Instr.enum 65536).wellFormed = false := by decide

theorem test_run_maxc_65536_refused : (Instr.run 65536).wellFormed = false := by decide

theorem test_maxc_65535_accepted : (Instr.enum 65535).wellFormed = true ∧ (Instr.run 65535).wellFormed = true := by
  decide

theorem test_assembler_refuses : assemble "ENUM" (some ['6', '5', '5', '3', '6']) = none ∧
    assemble "SYN" (some ['1']) = none ∧ assemble "RUN" none = none := by decide

/-- "ENUM 0x40" is 0x00400003 (95_test_vectors.md EN1). -/
theorem test_assembler_emits : assemble "ENUM" (some ['0', 'x', '4', '0']) = some 0x00400003 := by decide

/-- N below 4, above 256 or no multiple of 4 (00_scope.md R5). -/
theorem test_build_n_refused : Build.wellFormed ⟨0, 1, 1, 1, 0⟩ = false ∧ Build.wellFormed ⟨260, 8, 1, 1, 0⟩ = false ∧
    Build.wellFormed ⟨35, 3, 1, 1, 0⟩ = false := by decide

/-- R zero, above 32 or not below N (00_scope.md R6). -/
theorem test_build_r_refused : Build.wellFormed ⟨16, 0, 1, 1, 0⟩ = false ∧ Build.wellFormed ⟨64, 33, 1, 1, 0⟩ = false ∧
    Build.wellFormed ⟨8, 8, 1, 1, 0⟩ = false := by decide

/-- CAND_CAP and SI_CAP out of range (00_scope.md R8, R9). -/
theorem test_build_caps_refused : Build.wellFormed ⟨16, 8, 0, 1, 0⟩ = false ∧
    Build.wellFormed ⟨16, 8, 65536, 1, 0⟩ = false ∧ Build.wellFormed ⟨16, 8, 1, 0, 0⟩ = false ∧
    Build.wellFormed ⟨16, 8, 1, 256, 0⟩ = false := by decide

/-! ## Decode: OP in bits 3:0, RSV in bits 15:4, MAXC in bits 31:16, written bit by bit -/

theorem test_decode_syn : decodeCmd 0b0000000000000000_000000000000_0001#32 = .ok .syn := by decide

theorem test_decode_decode : decodeCmd 0b0000000000000000_000000000000_0010#32 = .ok .decode := by decide

theorem test_decode_enum : decodeCmd 0b0000000001000000_000000000000_0011#32 = .ok (.enum 64) := by decide

theorem test_decode_choose : decodeCmd 0b1000000000000001_000000000000_0100#32 = .ok .choose := by decide

theorem test_decode_run : decodeCmd 0b1111111111111110_000000000000_0101#32 = .ok (.run 65534) := by decide

theorem test_decode_commit : decodeCmd 0b0000000000000000_000000000000_0110#32 = .ok .commit := by decide

/-- OP 0 and OP 7, RSV bit 4 and RSV bit 15 (30_encoding.md R104). -/
theorem test_decode_illegal : decodeCmd 0b0000000000000000_000000000000_0000#32 = .error .reservedOp ∧
    decodeCmd 0b0000000000000000_000000000000_0111#32 = .error .reservedOp ∧
    decodeCmd 0b0000000000000000_000000000001_0001#32 = .error .reservedBits ∧
    decodeCmd 0b0000000000000000_100000000000_0001#32 = .error .reservedBits := by decide

/-- The word of EN6 on the byte lanes, lane 0 first (20_memory.md R73). -/
theorem test_decode_bytes : decode [0x03, 0x00, 0x41, 0x00, 0xFF] = .ok (.enum 65, [0xFF]) ∧
    decode [0x03, 0x00, 0x41] = .error .tooShort ∧ decodeTableWord 32 0x00410003 = some (.enum 65) := by decide

/-! ## States of the test configurations (95_test_vectors.md section 2) -/

/-- A committed block of a configuration, with CW written. -/
def committed (n r candCap : Nat) (row : List Codeword) (col : List Syndrome) (cw : Codeword) : State :=
  { State.fresh ⟨n, r, candCap, 4, 0x4000⟩ row col (List.replicate 4 0) (List.replicate candCap 0)
      (List.replicate candCap 0) with cfgOk := true, cw := cw }

def toyRow : List Codeword := [0x88, 0x64, 0x52, 0xB1]
def toyCol : List Syndrome := [0x1, 0x2, 0x4, 0x8, 0x3, 0x5, 0x6, 0x9]
def sscRow : List Codeword := [0x8888, 0x4444, 0x2222, 0x1111, 0x9248, 0xC924, 0x6C92, 0x2481]
def sscCol : List Syndrome :=
  [0x11, 0x22, 0x44, 0x88, 0x12, 0x24, 0x48, 0x83, 0x14, 0x28, 0x43, 0x86, 0x18, 0x23, 0x46, 0x8C]
def u12Row : List Codeword := [0xC00, 0xA00, 0x900, 0x880, 0x840, 0x820, 0x810, 0x808, 0x804, 0x802, 0x801]
def u12Col : List Syndrome :=
  [0x1, 0x2, 0x4, 0x8, 0x10, 0x20, 0x40, 0x80, 0x100, 0x200, 0x400, 0x7FF]

def toy (cw : Codeword) : State := committed 8 4 8 toyRow toyCol cw
def ssc (cw : Codeword) : State := committed 16 8 64 sscRow sscCol cw
def u12 (cw : Codeword) : State := committed 12 11 64 u12Row u12Col cw

/-- The candidate list of EN1. -/
def en1 : List Codeword := [0xA5C3, 0xC5D4, 0xABDC, 0xD5A2, 0xAC42, 0x78D2]

/-- SSC16 with the EN1 list in the buffer and side-information words in use (95_test_vectors.md section 6). -/
def chooser (sis : List Codeword) : State :=
  { (ssc 0xA5D2).storeCandidates en1 with
    si := sis ++ List.replicate (4 - sis.length) 0, siCount := BitVec.ofNat 8 sis.length }

/-- One field of the next state of a command. -/
def after {α : Type} (i : Instr) (s : State) (f : State → α) : Option α :=
  match exec i s with
  | .next t => some (f t)
  | .fault _ => none
  | .refused _ => none

/-- A host access at a window offset. -/
def wordAt (off : Nat) (kind : AccessKind) : BusEvent := .access ⟨0x4000 + off, 32, 0xF, kind⟩

/-! ## Single commands on the spec's vectors -/

/-- SY5, SY10. -/
theorem test_syn : after .syn (toy 0x0C) (fun t => (t.syndrome, t.statusWord)) = some (0xC, 0x00010102) ∧
    after .syn (u12 0x111) (fun t => (t.syndrome, t.decInfo)) = some (0x111, 0) := by decide +kernel

/-- DC7: tier 3 before tier 4. -/
theorem test_decode_tier3 : after .decode (toy 0x0C) (fun t => (t.decInfo, t.corrected, t.msg, t.statusWord)) =
    some (0x000D0103, 0xDC, 0xD, 0x00030202) := by decide +kernel

/-- DS11. -/
theorem test_decode_due : after .decode (ssc 0xA5D2) (fun t => (t.syndrome, t.corrected, t.msg, t.statusWord)) =
    some (0x03, 0xA5D2, 0, 0x00040202) := by decide +kernel

/-- EN2. -/
theorem test_enum_full : after (.enum 6) (ssc 0xA5D2) (fun t => (t.candidates, t.statusWord)) =
    some (en1, 0x00050302) := by decide +kernel

/-- EN3. -/
theorem test_enum_capacity : after (.enum 5) (ssc 0xA5D2) (fun t => (t.candCount, t.corrected, t.statusWord)) =
    some (0, 0xA5D2, 0x00090302) := by decide +kernel

/-- CH4: a three-way tie, the earliest wins. -/
theorem test_choose_tie : after .choose (chooser [0xA500, 0x7800]) (fun t => (t.candScore.take 6, t.best, t.bestSum)) =
    some ([6, 8, 8, 8, 6, 6], 0, 6) := by decide +kernel

/-- CH3. -/
theorem test_choose_later : after .choose (chooser [0xD000]) (fun t => (t.best, t.bestSum, t.corrected, t.msg)) =
    some (3, 2, 0xD5A2, 0xD5) := by decide +kernel

/-- RUN on DS2: the result of its DECODE, under LAST_OP 5. -/
theorem test_run_corrected : after (.run 16) (ssc 0xA5C2) (fun t => (t.corrected, t.msg, t.statusWord)) =
    some (0xA5C3, 0xA5, 0x00030502) := by decide +kernel

/-- E_UNRECOVERABLE_DUE on EN13's word. -/
theorem test_run_unrecoverable : after (.run 16) (u12 0x111) (fun t => (t.corrected, t.msg, t.statusWord)) =
    some (0x111, 0, 0x000A0502) := by decide +kernel

/-- TOY8 commits (95_test_vectors.md section 2.1). -/
theorem test_commit_ok : after .commit { toy 0 with cfgOk := false, candCount := 3 }
    (fun t => (t.cfgOk, t.candCount, t.statusWord)) = some (true, 0, 0x00010602) := by decide +kernel

/-- A repeated column: E_CONFIG and CFG_OK cleared (44_pipeline_config.md R250, R252). -/
theorem test_commit_repeated : after .commit { toy 0 with row := [0x88, 0x64, 0x52, 0xB3], col := 0x1 :: 0x1 :: toyCol.drop 2 }
    (fun t => (t.cfgOk, t.statusWord)) = some (false, 0x000D0600) := by decide +kernel

/-! ## Witnesses: states and operands that meet the hypotheses of the statements -/

theorem toy_committed : (toy 0).code.Committed := by constructor <;> decide +kernel

theorem ssc_committed : (ssc 0).code.Committed := by constructor <;> decide +kernel

/-- Checking a list for width, one entry after the other. -/
theorem fits_all {m w : Nat} {l : List (BitVec m)} (h : (l.all fun x => decide (fits w x)) = true) :
    ∀ x ∈ l, fits w x := by simpa using h

theorem ssc_widths : (ssc 0xA5D2).Widths := by constructor <;> first | exact fits_all (by decide +kernel) | decide +kernel

theorem chooser_widths : (chooser [0xA500, 0x7800]).Widths := by
  constructor <;> first | exact fits_all (by decide +kernel) | decide +kernel

theorem chooser_results : ((chooser [0xA500, 0x7800]).withPending 0x4).ResultsLegal :=
  ⟨by decide, by decide, 0, 0, 0, by decide, by decide, by decide, fun _ => ⟨rfl, rfl⟩⟩

theorem chooser_codewords : ∀ x ∈ (chooser [0xA500, 0x7800]).candidates, (chooser [0xA500, 0x7800]).code.syn x = 0 := by
  have : ((chooser [0xA500, 0x7800]).candidates.all fun x =>
      decide ((chooser [0xA500, 0x7800]).code.syn x = 0)) = true := by decide +kernel
  simpa using this

theorem ssc_due : ((ssc 0).code.decodeWord 0xA5D2).outcome = .due := by decide +kernel

theorem ssc_enumerates_64 : (ssc 0).code.enumerate 0xA5D2 64 = .candidates en1 := by decide +kernel

theorem ssc_enumerates_6 : (ssc 0).code.enumerate 0xA5D2 6 = .candidates en1 := by decide +kernel

theorem ssc_enumerates_5 : (ssc 0).code.enumerate 0xA5D2 5 = .capacity := by decide +kernel

theorem u12_enumerates : (u12 0).code.enumerate 0x111 64 = .unrecoverable := by decide +kernel

theorem witness_EncodedCommandDecodesToItself : (Instr.run 65535).wellFormed = true := by decide

theorem witness_DecoderFollowsTheCommandFormat :
    (0x00008001#32).toNat / 16 % 4096 ≠ 0 ∧ (0xFFFF0003#32).toNat / 16 % 4096 = 0 ∧ (0xFFFF0003#32).toNat % 16 = 3 ∧
    7 ≤ (0x0000000F#32).toNat % 16 := by decide

theorem witness_ReencodingGivesTheWordBack :
    decodeCmd 0xFFFF0005 = .ok (.run 65535) ∧ decodeCmd 0x12340006 = .ok .commit := by decide

theorem witness_EngineTurnRunsTheDecodedCommand :
    ((ssc 0xA5D2).withPending 0x00060003).completesNow 0x00060003 ∧
    decodeCmd 0x00060003 = .ok (.enum 6) ∧ (Instr.enum 6).wellFormed = true := by decide +kernel

theorem witness_IllegalWordCompletesWithIllegalOp :
    ((toy 0).withPending 0x00000013).completesNow 0x00000013 ∧ (0x00000013#32).toNat / 16 % 4096 ≠ 0 ∧
    ((toy 0).withPending 0x00000000).completesNow 0x00000000 ∧ (0x00000000#32).toNat % 16 = 0 ∧
    ((toy 0).withPending 0x00000007).completesNow 0x00000007 ∧ 7 ≤ (0x00000007#32).toNat % 16 := by decide +kernel

theorem witness_SynWritesTheRowParities : (toy 0x0C).cfgOk = true := by decide

theorem witness_CommittedColumnsGiveSyndromes :
    (toy 0).code.Committed ∧ 7 < (toy 0).code.n ∧ (∀ j ∈ [0, 7], j < (toy 0).code.n) ∧ 1 < (toy 0).code.n / 4 :=
  ⟨toy_committed, by decide, by decide, by decide⟩

/-- DC1: a zero syndrome. -/
theorem witness_DecodeTakesTheFirstExplanation_noError :
    (toy 0x13).cfgOk = true ∧ (toy 0x13).build.n % 4 = 0 ∧ (toy 0x13).code.syn (toy 0x13).cw = 0 := by decide +kernel

/-- DC7: syndrome 0xC, explained in tier 3 by 0xD of symbol 1 and in tier 4 by 0xC of symbol 0. -/
theorem witness_DecodeTakesTheFirstExplanation_corrected :
    (toy 0x0C).cfgOk = true ∧ (toy 0x0C).build.n % 4 = 0 ∧ (toy 0x0C).code.syn (toy 0x0C).cw ≠ 0 ∧
    (toy 0x0C).code.Explains ((toy 0x0C).code.syn (toy 0x0C).cw) 3 1 0xD ∧
    (toy 0x0C).code.Explains ((toy 0x0C).code.syn (toy 0x0C).cw) 4 0 0xC ∧
    ∀ tier k p, (toy 0x0C).code.Explains ((toy 0x0C).code.syn (toy 0x0C).cw) tier k p → ¬ triedBefore tier k p 3 1 0xD := by
  unfold Code.Explains triedBefore
  refine ⟨by decide, by decide, by decide +kernel, by decide +kernel, by decide +kernel, ?_⟩
  have early : ∀ tier, tier < 3 → ∀ k, k < 2 → ∀ p ∈ tierMasks tier,
      (toy 0x0C).code.columnsOf k p ≠ (toy 0x0C).code.syn (toy 0x0C).cw := by decide +kernel
  have before : ∀ k, k < 1 → ∀ p ∈ tierMasks 3,
      (toy 0x0C).code.columnsOf k p ≠ (toy 0x0C).code.syn (toy 0x0C).cw := by decide +kernel
  have first : ∀ p ∈ (tierMasks 3).take 2, (toy 0x0C).code.columnsOf 1 p ≠ (toy 0x0C).code.syn (toy 0x0C).cw := by
    decide +kernel
  have place : ∀ p ∈ tierMasks 3, (tierMasks 3).idxOf p < (tierMasks 3).idxOf 0xD → p ∈ (tierMasks 3).take 2 := by
    decide +kernel
  rintro tier k p ⟨hk, hp, hs⟩ (hb | ⟨rfl, hb | ⟨rfl, hb⟩⟩)
  · exact early tier hb k hk p hp hs
  · exact before k hb p hp hs
  · exact first p (place p hp hb) hs

/-- DS11: nothing explains syndrome 0x03. -/
theorem witness_DecodeTakesTheFirstExplanation_due :
    (ssc 0xA5D2).cfgOk = true ∧ (ssc 0xA5D2).build.n % 4 = 0 ∧ (ssc 0xA5D2).code.syn (ssc 0xA5D2).cw ≠ 0 ∧
    ∀ tier k p, ¬ (ssc 0xA5D2).code.Explains ((ssc 0xA5D2).code.syn (ssc 0xA5D2).cw) tier k p := by
  unfold Code.Explains
  refine ⟨by decide, by decide, by decide +kernel, ?_⟩
  have none : ∀ tier, tier < 5 → ∀ k, k < 4 → ∀ p ∈ tierMasks tier,
      (ssc 0xA5D2).code.columnsOf k p ≠ (ssc 0xA5D2).code.syn (ssc 0xA5D2).cw := by decide +kernel
  rintro tier k p ⟨hk, hp, hs⟩
  match tier, hp with
  | 1, hp => exact none 1 (by decide) k hk p hp hs
  | 2, hp => exact none 2 (by decide) k hk p hp hs
  | 3, hp => exact none 3 (by decide) k hk p hp hs
  | 4, hp => exact none 4 (by decide) k hk p hp hs

/-- DS10 is corrected, DS1 is a codeword, DS11 is DUE. -/
theorem witness_OneSymbolErrorsAreExactlyTheCorrectedOnes :
    (ssc 0).code.Committed ∧ ((ssc 0).code.decodeWord 0xA0C3).outcome = .corrected ∧
    ((ssc 0).code.decodeWord 0xA5C3).outcome = .noError ∧ ((ssc 0).code.decodeWord 0xA5D2).outcome = .due :=
  ⟨ssc_committed, by decide +kernel, by decide +kernel, by decide +kernel⟩

theorem witness_CorrectedValueIsACodeword :
    (ssc 0).code.Committed ∧ ((ssc 0).code.decodeWord 0xA0C3).outcome = .corrected :=
  ⟨ssc_committed, by decide +kernel⟩

theorem witness_SingleBitErrorsAreCorrected :
    (ssc 0).code.Committed ∧ (ssc 0).code.syn 0xA5C3 = 0 ∧ 0 < (ssc 0).code.n ∧ 15 < (ssc 0).code.n :=
  ⟨ssc_committed, by decide +kernel, by decide, by decide⟩

/-- E5: SSC16 meets the condition for its last symbol, TOY8 does not for symbol 1. -/
theorem witness_WholeSymbolErrorsNeedTheirCondition :
    ((ssc 0).code.Committed ∧ (ssc 0).code.syn 0xA5C3 = 0 ∧ 3 < (ssc 0).code.n / 4 ∧
      (ssc 0).code.decodeWord (0xA5C3 ^^^ patternAt 0xF 3) = ⟨.corrected, 0xA5C3, 2, 3, 0xF⟩) ∧
    ((toy 0).code.Committed ∧ (toy 0).code.syn 0x13 = 0 ∧ 1 < (toy 0).code.n / 4 ∧
      (toy 0).code.decodeWord (0x13 ^^^ patternAt 0xF 1) ≠ ⟨.corrected, 0x13, 2, 1, 0xF⟩) :=
  ⟨⟨ssc_committed, by decide +kernel⟩, ⟨toy_committed, by decide +kernel⟩⟩

theorem witness_EveryPatternIsTriedOnce :
    (toy 0).code.n % 4 = 0 ∧ 1 < (toy 0).code.n / 4 ∧ (0xF : Pattern) ≠ 0 ∧ (0x1 : Pattern) ≠ 0 := by decide

/-- EN1 and EN2: MAXC at CAND_CAP and at the number of candidates. -/
theorem witness_EnumStoresTheCandidateList :
    (ssc 0xA5D2).Widths ∧ (ssc 0xA5D2).cfgOk = true ∧ 64 ≤ (ssc 0xA5D2).build.candCap ∧
    ((ssc 0xA5D2).code.decodeWord (ssc 0xA5D2).cw).outcome = .due ∧
    (ssc 0xA5D2).code.enumerate (ssc 0xA5D2).cw 64 = .candidates en1 ∧
    (ssc 0xA5D2).code.enumerate (ssc 0xA5D2).cw 6 = .candidates en1 :=
  ⟨ssc_widths, rfl, by decide, ssc_due, ssc_enumerates_64, ssc_enumerates_6⟩

/-- EN9, EN3 and EN13. -/
theorem witness_EnumWithoutCandidatesClearsTheBuffer :
    ((ssc 0xA5C2).cfgOk = true ∧ 64 ≤ (ssc 0xA5C2).build.candCap ∧
      ((ssc 0xA5C2).code.decodeWord (ssc 0xA5C2).cw).outcome ≠ .due) ∧
    ((ssc 0xA5D2).cfgOk = true ∧ 5 ≤ (ssc 0xA5D2).build.candCap ∧
      ((ssc 0xA5D2).code.decodeWord (ssc 0xA5D2).cw).outcome = .due ∧
      (ssc 0xA5D2).code.enumerate (ssc 0xA5D2).cw 5 = .capacity) ∧
    ((u12 0x111).cfgOk = true ∧ 64 ≤ (u12 0x111).build.candCap ∧
      ((u12 0x111).code.decodeWord (u12 0x111).cw).outcome = .due ∧
      (u12 0x111).code.enumerate (u12 0x111).cw 64 = .unrecoverable) :=
  ⟨⟨rfl, by decide, by decide +kernel⟩, ⟨rfl, by decide, ssc_due, ssc_enumerates_5⟩,
    ⟨rfl, by decide, by decide +kernel, u12_enumerates⟩⟩

theorem witness_CandidateListIsCompleteDistinctAndOrdered :
    (ssc 0).code.enumerate 0xA5D2 6 = .candidates en1 := ssc_enumerates_6

/-- EN5 and EN13: MAXC 0 with a candidate, and a word without candidates. -/
theorem witness_CapacityErrorExactlyWhenTooManyCandidates :
    (ssc 0).code.enumerate 0xA5D2 0 = .capacity ∧ (u12 0).code.enumerate 0x111 64 = .unrecoverable :=
  ⟨by decide +kernel, u12_enumerates⟩

theorem witness_CandidatesAreCodewordsNearTheWord :
    (ssc 0).code.Committed ∧ (ssc 0).code.enumerate 0xA5D2 6 = .candidates en1 :=
  ⟨ssc_committed, ssc_enumerates_6⟩

theorem witness_TrialsOfADueWord :
    (ssc 0).code.Committed ∧ ((ssc 0).code.decodeWord 0xA5D2).outcome = .due ∧ 3 < (ssc 0).code.n / 4 ∧
    (ssc 0).code.enumerate 0xA5D2 64 = .candidates en1 :=
  ⟨ssc_committed, ssc_due, by decide, ssc_enumerates_64⟩

theorem witness_DistanceCountsDifferingBits :
    ({ ssc 0 with distMode := true } : State).code.distMode = true ∧ (ssc 0).code.distMode = false := by decide

/-- SI_COUNT at SI_CAP, and the two shortcuts. -/
theorem witness_ChooseTakesTheEarliestMinimum :
    ((chooser [0, 0xFF00, 0xA500, 0x7800]).cfgOk = true ∧
      (chooser [0, 0xFF00, 0xA500, 0x7800]).siCount.toNat ≤ (chooser [0, 0xFF00, 0xA500, 0x7800]).build.siCap ∧
      (chooser [0, 0xFF00, 0xA500, 0x7800]).candCount ≠ 0) ∧
    ((chooser []).cfgOk = true ∧ (chooser []).siCount.toNat = 0 ∧ (chooser []).candCount ≠ 0) ∧
    (({ chooser [0xA500] with candCount := 1 } : State).cfgOk = true ∧
      ({ chooser [0xA500] with candCount := 1 } : State).siCount.toNat ≤ 4 ∧
      ({ chooser [0xA500] with candCount := 1 } : State).candCount ≠ 0) := by decide +kernel

theorem witness_ScoresNeverOverflow :
    (chooser [0xA500, 0x7800]).Widths ∧
    (chooser [0xA500, 0x7800]).siCount.toNat ≤ (chooser [0xA500, 0x7800]).build.siCap :=
  ⟨chooser_widths, by decide⟩

/-- The three cases of R244: not DUE, DUE without candidates, DUE with candidates. -/
theorem witness_RunEqualsTheSplitCommands :
    ((ssc 0xA5D2).Widths ∧ (ssc 0xA5D2).cfgOk = true ∧ 64 ≤ (ssc 0xA5D2).build.candCap ∧
      (ssc 0xA5D2).siCount.toNat ≤ (ssc 0xA5D2).build.siCap ∧
      ((ssc 0xA5D2).code.decodeWord (ssc 0xA5D2).cw).outcome = .due ∧
      (ssc 0xA5D2).code.enumerate (ssc 0xA5D2).cw 64 = .candidates en1 ∧
      (ssc 0xA5D2).code.enumerate (ssc 0xA5D2).cw 5 = .capacity) ∧
    ((ssc 0xA5C2).Widths ∧ ((ssc 0xA5C2).code.decodeWord (ssc 0xA5C2).cw).outcome ≠ .due) :=
  ⟨⟨ssc_widths, rfl, by decide, by decide, ssc_due, ssc_enumerates_64, ssc_enumerates_5⟩,
    { ssc_widths with cwFits := by decide +kernel }, by decide +kernel⟩

theorem witness_RunRecoversCodewordsAndOneBitErrors :
    (ssc 0xA5C3).code.Committed ∧ (ssc 0xA5C3).cfgOk = true ∧ 0 ≤ (ssc 0xA5C3).build.candCap ∧
    (ssc 0xA5C3).siCount.toNat ≤ (ssc 0xA5C3).build.siCap ∧ (ssc 0xA5C3).code.syn (ssc 0xA5C3).cw = 0 ∧
    (ssc 0x25C3).code.syn 0xA5C3 = 0 ∧ 15 < (ssc 0x25C3).build.n ∧ (ssc 0x25C3).cw = 0xA5C3 ^^^ oneBit 15 :=
  ⟨ssc_committed, by decide +kernel⟩

theorem witness_PreChecksWriteNothingElse :
    State.reset.cfgOk = false ∧ Instr.choose ≠ .commit ∧ (ssc 0).cfgOk = true ∧ (ssc 0).build.candCap < 65 ∧
    (ssc 0).build.siCap < ({ ssc 0 with siCount := 5 } : State).siCount.toNat ∧
    ({ ssc 0 with siCount := 4 } : State).siCount.toNat ≤ (ssc 0).build.siCap ∧ (ssc 0).candCount = 0 := by
  decide +kernel

/-- A build with the largest N and R beside an ordinary one. -/
theorem witness_CommitChecksEveryColumn :
    (toy 0).build.n ≤ 256 ∧ (toy 0).build.r ≤ 32 ∧
    (committed 256 32 1 [] [] 0).build.n ≤ 256 ∧ (committed 256 32 1 [] [] 0).build.r ≤ 32 := by decide

/-- Every error comes up: E_ILLEGAL_OP, E_CONFIG (of SYN and of COMMIT), E_MALFORMED, E_AMBIGUOUS, E_CAPACITY,
E_UNRECOVERABLE_DUE, E_NOT_DUE. -/
theorem witness_ErrorsLeaveNoComputedMessage :
    completeWord 0x0 (toy 0) = .next ((toy 0).onlyResult 0x0 .eIllegalOp) ∧
    completeWord 0x1 { toy 0 with cfgOk := false } = .next (({ toy 0 with cfgOk := false } : State).onlyResult 0x1 .eConfig) ∧
    completeWord 0x00410003 (ssc 0) = .next ((ssc 0).onlyResult 0x3 .eMalformed) ∧
    completeWord 0x4 (ssc 0) = .next ((ssc 0).onlyResult 0x4 .eAmbiguous) ∧
    after .commit { toy 0 with col := [] } (·.result) = some .eConfig ∧
    after (.enum 5) (ssc 0xA5D2) (·.result) = some .eCapacity ∧
    after (.run 64) (u12 0x111) (·.result) = some .eUnrecoverableDue ∧
    after (.enum 64) (ssc 0xA5C2) (·.result) = some .eNotDue := by
  refine ⟨rfl, rfl, rfl, rfl, ?_⟩
  decide +kernel

theorem witness_RunNeverReportsAmbiguous : exec .choose (ssc 0) = .next ((ssc 0).onlyResult 0x4 .eAmbiguous) := rfl

/-- The errors of the table, the error completions of RUN among them. -/
theorem witness_ErrorsLeaveTheStateOfTheTable :
    decodeCmd 0x0 = .error .reservedOp ∧ decodeCmd 0x6 = .ok .commit ∧
    after (.run 65) (ssc 0) (·.result) = some .eMalformed ∧ after .choose (ssc 0) (·.result) = some .eAmbiguous ∧
    after .commit { toy 0 with col := [] } (·.result) = some .eConfig ∧
    after (.enum 64) (ssc 0xA5C3) (·.result) = some .eNotDue := by decide +kernel

/-- For every command two states that differ in what is not its operand, and agree on what is (30_encoding.md R109). -/
theorem witness_CommandsReadOnlyTheirOperands :
    SameOperands .syn (ssc 0xA5D2) { ssc 0xA5D2 with col := [], layout := true, distMode := true, siCount := 9, msg := 5 } ∧
    SameOperands .decode (ssc 0xA5D2) { ssc 0xA5D2 with distMode := true, siCount := 9, si := [], candCount := 3, decInfo := 7 } ∧
    SameOperands (.enum 6) (ssc 0xA5D2) { ssc 0xA5D2 with distMode := true, siCount := 9, si := [], best := 5 } ∧
    SameOperands .choose (chooser [0xA500])
      { chooser [0xA500] with cw := 3, row := [], col := [], si := [0xA500, 1, 2, 3], candSel := 7, msg := 9 } ∧
    SameOperands (.run 6) (chooser [0xA500]) { chooser [0xA500] with si := [0xA500, 1, 2, 3], candCount := 0, candCw := [] } ∧
    SameOperands .commit (ssc 0xA5D2) { ssc 0 with cfgOk := false, layout := true, distMode := true, siCount := 9 } := by
  have used : ∀ m, m < (chooser [0xA500]).siCount.toNat →
      (chooser [0xA500]).si.getD m 0 = [0xA500, 1, 2, 3].getD m (0 : Codeword) := by decide +kernel
  refine ⟨⟨rfl, ?_⟩, ⟨rfl, ?_⟩, ⟨rfl, ?_⟩, ⟨rfl, ?_⟩, ⟨rfl, ?_⟩, ⟨rfl, ?_⟩⟩ <;> intro o ho <;> cases o <;>
    first | exact used | exact fun _ _ => rfl | rfl | exact absurd ho (by decide)

/-- Misaligned, a byte access, a missing lane; the first while a command is pending. -/
theorem witness_MisshapenAccessIsABusError :
    (({ toy 0 with pending := some 1, cmd := 1, delay := 2, inbox := [.access ⟨0x4FFF, 32, 0xF, .write 3⟩] } : State).deliversNow
      (.access ⟨0x4FFF, 32, 0xF, .write 3⟩) [] ∧ (0x4FFF - 0x4000) % 4 ≠ 0) ∧
    ({ toy 0 with inbox := [.access ⟨0x4000, 8, 0xF, .read⟩] } : State).deliversNow (.access ⟨0x4000, 8, 0xF, .read⟩) [] ∧
    ({ toy 0 with inbox := [.access ⟨0x4000, 32, 0x7, .read⟩] } : State).deliversNow (.access ⟨0x4000, 32, 0x7, .read⟩) [] ∧
    (toy 0).inReset = false := by decide +kernel

theorem witness_OverrunIsSetAndCleared :
    (({ toy 0 with pending := some 1, cmd := 1, delay := 1, inbox := [wordAt 0xFFC (.write 3)] } : State).deliversNow
      (wordAt ((toy 0).build.base - 0x4000 + 0xFFC) (.write 3)) [] ∧ (0xFFC : Nat) < 4096 ∧ 0xFFC % 4 = 0) ∧
    ({ toy 0 with overrun := true, inbox := [wordAt 0x004 (.write 4)] } : State).deliversNow (wordAt 0x004 (.write 4)) [] ∧
    (toy 0).inReset = false := by decide +kernel

/-- The first, an ordinary and the last word of the window, written while idle; CMD with a reserved word. -/
theorem witness_IdleCommandWriteIsAccepted :
    (∀ off ∈ [0x000, 0x040, 0xFFC], off < 4096 ∧ off % 4 = 0 ∧
      ({ toy 0 with inbox := [wordAt off (.write 0x13)] } : State).deliversNow
        (.access ⟨(toy 0).build.base + off, 32, 0xF, .write 0x13⟩) []) ∧
    (toy 0).inReset = false ∧ (toy 0).busy = false := by decide +kernel

/-- A read while idle and one while busy, and a poll in each state. -/
theorem witness_ReadsChangeNothing :
    ({ toy 0 with inbox := [wordAt 0xFFC .read] } : State).deliversNow (wordAt 0xFFC .read) [] ∧
    ({ toy 0 with pending := some 1, cmd := 1, delay := 1, inbox := [wordAt 0 .read] } : State).deliversNow (wordAt 0 .read) [] ∧
    ({ toy 0 with inbox := [.poll] } : State).deliversNow .poll [] ∧
    ({ toy 0 with pending := some 1, cmd := 1, delay := 2, inbox := [.poll] } : State).deliversNow .poll [] ∧
    (toy 0).inReset = false := by decide +kernel

/-- POLL reads STATUS 0x00000003 while busy and stays; it reads 0x00000002 while idle and ends (30_encoding.md R111). -/
theorem test_poll :
    step { toy 0 with pending := some 1, cmd := 1, delay := 2, inbox := [.poll] } =
      .next { toy 0 with pending := some 1, cmd := 1, delay := 1, inbox := [.poll], response := .data 0x00000003 } ∧
    step { toy 0 with inbox := [.poll] } = .next { toy 0 with response := .data 0x00000002 } := ⟨rfl, rfl⟩

/-- The ends of the configuration ranges, and the offsets just outside them. -/
theorem witness_ConfigurationWritesClearCfgOk :
    ({ toy 0 with pending := some 1 } : State).busy = true ∧ (toy 0).busy = false ∧
    (∀ off ∈ [0x010, 0x100, 0x8FC], off < 4096 ∧ off % 4 = 0 ∧ (off = 0x010 ∨ 0x100 ≤ off ∧ off < 0x900)) ∧
    (∀ off ∈ [0x00C, 0x014, 0x0FC, 0x900, 0xFFC],
      off < 4096 ∧ off % 4 = 0 ∧ ¬ (off = 0x010 ∨ 0x100 ≤ off ∧ off < 0x900)) := by decide +kernel

/-- The ends of the ranges of the register map; DC7's DEC_INFO, SYNDROME, CORRECTED and MSG as a host reads them. -/
theorem witness_RegisterMapFollowsTheTable :
    regAt 0x03C = .reserved ∧ regAt 0x05C = .cw 7 ∧ regAt 0x0FC = .candMsg 7 ∧ regAt 0x4FC = .col 255 ∧
    regAt 0x8FC = .row 31 7 ∧ regAt 0x900 = .reserved ∧ regAt 0xFFC = .reserved ∧
    after .decode (toy 0x0C) (fun t => [0x020, 0x024, 0x060, 0x064, 0x080].map t.readWindow) =
      some [0xC, 0x000D0103, 0xDC, 0, 0xD] := by decide +kernel

/-- A read of CMD returns the last word accepted: before the next is accepted, while it is pending, and after it (10_state.md R42). -/
theorem test_read_of_cmd :
    ({ toy 0 with cmd := 0x13 } : State).readWindow 0x000 = 0x13 ∧
    (({ toy 0 with cmd := 0x13 } : State).accept 0x2).readWindow 0x000 = 0x2 ∧
    after .decode (({ toy 0 with cmd := 0x13 } : State).accept 0x2) (·.readWindow 0x000) = some 0x2 := by decide +kernel

/-- A limb the build has in full, in part and not at all, written while idle. -/
theorem witness_CwLimbsReadBackMasked :
    (ssc 0).busy = false ∧
    ((ssc 0).writeWindow 0x040 0xFFFFFFFF).readWindow 0x040 = 0xFFFF ∧
    ((ssc 0).writeWindow 0x05C 0xFFFFFFFF).readWindow 0x05C = 0 := by decide +kernel

/-- The last slots the build has and the first it has not. -/
theorem witness_TablesReadBackMasked :
    (ssc 0xA5D2).Widths ∧ (ssc 0xA5D2).busy = false ∧
    ((ssc 0xA5D2).writeWindow 0x13C 0xFFFFFFFF).readWindow 0x13C = 0xFF ∧
    ((ssc 0xA5D2).writeWindow 0x140 0xFFFFFFFF).readWindow 0x140 = 0 ∧
    ((ssc 0xA5D2).writeWindow 0x5E0 0xFFFFFFFF).readWindow 0x5E0 = 0xFFFF ∧
    ((ssc 0xA5D2).writeWindow 0x600 0xFFFFFFFF).readWindow 0x600 = 0 :=
  ⟨ssc_widths, by decide +kernel⟩

/-- SI_SEL at the last slot, with the last limb beside the first, and SI_SEL at SI_CAP. -/
theorem witness_SiDataReachesTheSelectedWord :
    (({ ssc 0xA5D2 with siSel := 3 } : State).Widths ∧ (ssc 0xA5D2).busy = false ∧ (7 : Nat) < 8 ∧
      ({ ssc 0xA5D2 with siSel := 3 } : State).siSel.toNat < (ssc 0xA5D2).build.siCap) ∧
    (({ ssc 0xA5D2 with siSel := 4 } : State).Widths ∧
      (ssc 0xA5D2).build.siCap ≤ ({ ssc 0xA5D2 with siSel := 4 } : State).siSel.toNat) :=
  ⟨⟨{ ssc_widths with }, by decide +kernel⟩, { ssc_widths with }, by decide +kernel⟩

theorem witness_CandidateWindowsShowTheSelectedEntry :
    ({ chooser [] with candSel := 5 } : State).candSel.toNat < (chooser []).candCount.toNat ∧
    (chooser []).candCount.toNat ≤ ({ chooser [] with candSel := 6 } : State).candSel.toNat := by decide +kernel

theorem witness_ReadOnlyAndReservedOffsetsIgnoreWrites :
    (toy 0).busy = false ∧
    ∀ off ∈ [0x008, 0x00C, 0x020, 0x03C, 0x060, 0x09C, 0x0C0, 0x0FC, 0x900, 0xFFC], off < 4096 ∧ off % 4 = 0 ∧
      (off = 0x008 ∨ off = 0x00C ∨ 0x020 ≤ off ∧ off < 0x040 ∨ 0x060 ≤ off ∧ off < 0x0A0 ∨
        0x0C0 ≤ off ∧ off < 0x100 ∨ 0x900 ≤ off) := by decide +kernel

/-- PARAM0 of SSC16, which the step of an idle block keeps. -/
theorem witness_IdentificationRegistersAreConstant :
    (ssc 0).build.wellFormed = true ∧ (ssc 0).readWindow 0x008 = 0x04080010 ∧ step (ssc 0) = .next (ssc 0) :=
  ⟨by decide, by decide +kernel, rfl⟩

/-- STATUS with every field at its largest value the spec names. -/
theorem witness_StatusWordHasItsFields :
    ({ toy 0 with pending := some 1, cmd := 1, overrun := true, lastOp := 0xF, result := .eIllegalOp } : State).readWindow 0x004 =
      0x000E0F07 ∧ (31 : Nat) < 32 := by decide +kernel

/-- The largest build. -/
theorem witness_IdentificationRegistersAreConstant_largest :
    Build.wellFormed ⟨256, 32, 65535, 255, 0⟩ = true ∧
    param0 ⟨256, 32, 65535, 255, 0⟩ = 0x04200100 ∧ param1 ⟨256, 32, 65535, 255, 0⟩ = 0x00FFFFFF := by decide +kernel

/-- A pending command with three bus events to wait for: a discarded write, a misshapen access, a poll. -/
def waiting : State :=
  { ssc 0xA5D2 with
    cmd := 0x00060003, pending := some 0x00060003, delay := 3
    inbox := [wordAt 0x040 (.write 3), .access ⟨0x4041, 32, 0xF, .read⟩, .poll, wordAt 0x004 .read] }

theorem witness_PendingCommandFreezesTheRegisters :
    waiting.busy = true ∧ waiting.inReset = false ∧ waiting.engineTurn = false ∧
    (∀ rest, waiting.inbox ≠ .resetAssert :: rest) ∧ (∃ t, step waiting = .next t) :=
  ⟨by decide, by decide, by decide, fun _ h => by simp [waiting, wordAt] at h, _, rfl⟩

theorem witness_PendingCommandCompletes :
    waiting.busy = true ∧ waiting.inReset = false ∧ ∀ e ∈ waiting.inbox, e.plain waiting.build = true := by
  decide +kernel

theorem witness_IdleBlockDoesNothing : State.reset.busy = false ∧ State.reset.inbox = [] := by decide

/-- The last byte address of the window and the ones before and after the window. -/
theorem witness_OnlyAccessesOutsideTheWindowFault :
    waiting.SafeInbox ∧
    step { toy 0 with inbox := [.access ⟨0x3FFF, 32, 0xF, .read⟩] } = .fault (.outsideWindow 0x3FFF) ∧
    step { toy 0 with inbox := [.access ⟨0x5000, 32, 0xF, .read⟩] } = .fault (.outsideWindow 0x5000) := by
  refine ⟨fun a ha => ?_, rfl, rfl⟩
  simp only [waiting, wordAt, List.mem_cons, BusEvent.access.injEq, List.not_mem_nil, or_false, reduceCtorEq, false_or] at ha
  rcases ha with rfl | rfl | rfl <;> decide

theorem witness_ReleaseOfResetGivesTheResetValues :
    ({ toy 0x55 with inReset := true, inbox := [.resetRelease] } : State).deliversNow .resetRelease [] := by decide +kernel

/-- The assertion delivered to an idle block and to a busy one, with the release next and with a write, a misshapen read and a poll
before it. -/
theorem witness_ResetAbandonsThePendingCommand :
    ({ toy 0x55 with inbox := [.resetAssert, .resetRelease] } : State).deliversNow .resetAssert ([] ++ .resetRelease :: []) ∧
    (toy 0x55).busy = false ∧
    ({ waiting with inbox := .resetAssert :: (waiting.inbox.take 3 ++ [.resetRelease, .poll]) } : State).deliversNow .resetAssert
      (waiting.inbox.take 3 ++ .resetRelease :: [.poll]) ∧
    waiting.busy = true ∧ ∀ e ∈ waiting.inbox.take 3, e.plain waiting.build = true := by decide +kernel

/-- An idle block takes the assertion of reset (70_reset_and_hazards.md R300). -/
theorem test_reset_of_an_idle_block :
    step { toy 0x55 with inbox := [.resetAssert] } = .next { toy 0x55 with inReset := true } := rfl

theorem witness_AccessesDuringResetAreIgnored :
    (({ toy 0 with inReset := true, inbox := [wordAt 0xFFC .read] } : State).deliversNow (wordAt 0xFFC .read) [] ∧
      (wordAt 0xFFC .read).plain (toy 0).build = true) ∧
    (({ toy 0 with inReset := true, inbox := [.poll] } : State).deliversNow .poll [] ∧
      BusEvent.poll.plain (toy 0).build = true) := by decide +kernel

/-- The invariants hold before a step that completes CHOOSE. -/
theorem witness_EveryStepKeepsWidthsAndResults :
    ((chooser [0xA500, 0x7800]).withPending 0x4).Widths ∧ ((chooser [0xA500, 0x7800]).withPending 0x4).ResultsLegal ∧
    ∃ t, step ((chooser [0xA500, 0x7800]).withPending 0x4) = .next t ∧ t.result = .chosen := by
  exact ⟨{ chooser_widths with }, chooser_results, _, rfl, rfl⟩

theorem witness_EveryStepKeepsTheHandshake :
    waiting.Protocol ∧ ∃ t, step waiting = .next t :=
  ⟨⟨by rintro w h; simpa [waiting, ssc, committed] using h, by decide, by decide⟩, _, rfl⟩

theorem witness_EveryStepKeepsTheCommittedConfiguration :
    ((chooser [0xA500, 0x7800]).withPending 0x4).Widths ∧
    ((chooser [0xA500, 0x7800]).withPending 0x4).CommittedState ∧
    ∃ t, step ((chooser [0xA500, 0x7800]).withPending 0x4) = .next t ∧ t.cfgOk = true :=
  ⟨{ chooser_widths with }, ⟨by decide +kernel, fun _ => chooser_codewords, by decide +kernel⟩, _, rfl, rfl⟩

theorem witness_InvariantsHoldAfterReset :
    (toy 0).build.wellFormed = true ∧ toyRow.length = (toy 0).build.r ∧ (∀ x ∈ toyRow, fits (toy 0).build.n x) ∧
    toyCol.length = (toy 0).build.n ∧ (∀ x ∈ toyCol, fits (toy 0).build.r x) ∧ (toy 0).si.length = (toy 0).build.siCap ∧
    (∀ x ∈ (toy 0).si, fits (toy 0).build.n x) ∧ (toy 0).candCw.length = (toy 0).build.candCap ∧
    (∀ x ∈ (toy 0).candCw, fits (toy 0).build.n x) ∧ (toy 0).candScore.length = (toy 0).build.candCap :=
  ⟨by decide, by decide, fits_all (by decide +kernel), by decide, fits_all (by decide +kernel), by decide,
    fits_all (by decide +kernel), by decide, fits_all (by decide +kernel), by decide⟩

/-- BU12, SI_SEL likewise, BU16 and BU18. -/
theorem witness_ControlRegistersReadBackMasked :
    (toy 0).busy = false ∧ ((toy 0).writeWindow 0x014 0x1FF).readWindow 0x014 = 0xFF ∧
    ((toy 0).writeWindow 0x018 0x1FF).readWindow 0x018 = 0xFF ∧
    ((toy 0).writeWindow 0x01C 0x10006).readWindow 0x01C = 0x6 ∧
    ((toy 0).writeWindow 0x010 0xFFFFFFFF).readWindow 0x010 = 0x3 ∧
    ((toy 0).writeWindow 0x010 0xFFFFFFFF).cfgOk = false := by decide +kernel

end Sys2Proof.Tests
end

section
/-! SUPPORT. The family 00_scope.md: the row parities SYN writes (spec/40_syndrome.md R130, R135). -/

namespace Sys2Proof.Machine

/-- Settles O7: the bits of `Code.syn` (R130), with a parity read as an odd number of set bits (R15, R16). -/
theorem synWritesTheRowParities : Obligations.SynWritesTheRowParities := by
  intro s hcfg
  refine ⟨s.code.syn s.cw, ?_, fun k hk => ?_⟩
  · exact (withConfig_true hcfg : execSyn s = .next (s.writeSyndrome.complete 0x1 .ok))
  · rw [s.code.syn_getLsbD s.cw k hk, parity_eq_popcount]
    rfl

end Sys2Proof.Machine
end

section
/-! SUPPORT. The family 00_scope.md: every step keeps the register widths, the array sizes and the legal results (spec/00_scope.md
R13, spec/10_state.md R48, R52, R54, spec/20_memory.md R76). -/

namespace Sys2Proof.Machine

/-! ## Widths of values -/

/-- An array read out of range gives 0, which has every width. -/
theorem fits_getD {m w : Nat} {l : List (BitVec m)} (h : ∀ x ∈ l, fits w x) (i : Nat) : fits w (l.getD i 0) := by
  rcases Nat.lt_or_ge i l.length with hi | hi
  · rw [List.getD_eq_getElem _ _ hi]
    exact h _ (List.getElem_mem hi)
  · rw [List.getD_eq_default _ _ hi]
    exact fits_zero w

theorem fits_set {m w : Nat} {l : List (BitVec m)} (h : ∀ x ∈ l, fits w x) (i : Nat) {a : BitVec m} (ha : fits w a) :
    ∀ x ∈ l.set i a, fits w x := by
  intro x hx
  rcases List.mem_or_eq_of_mem_set hx with hmem | rfl
  · exact h x hmem
  · exact ha

theorem fits_append_drop {m w : Nat} {l list : List (BitVec m)} (hlist : ∀ x ∈ list, fits w x) (h : ∀ x ∈ l, fits w x)
    (n : Nat) : ∀ x ∈ list ++ l.drop n, fits w x := by
  intro x hx
  rcases List.mem_append.1 hx with hnew | hold
  · exact hlist x hnew
  · exact h x (List.mem_of_mem_drop hold)

/-- Writing the first entries of an array keeps its size. -/
theorem length_append_drop {α : Type} {new old : List α} {size : Nat} (hold : old.length = size) (hnew : new.length ≤ size) :
    (new ++ old.drop new.length).length = size := by
  rw [List.length_append, List.length_drop]
  omega

theorem Build.limits {b : Build} (h : b.wellFormed = true) : b.n % 4 = 0 ∧ 0 < b.nsym ∧ b.candCap < 65536 := by
  simp only [Build.wellFormed, Bool.and_eq_true, decide_eq_true_eq] at h
  simp only [Build.nsym]
  omega

/-- BEST = 0 is legal whatever CAND_COUNT is (10_state.md R54). -/
theorem zero_best_lt (count : Nat) : (0 : BitVec 16).toNat < max 1 count :=
  Nat.lt_of_lt_of_le Nat.zero_lt_one (Nat.le_max_left 1 count)

/-! ## What the decoder, the enumerator and the choice answer -/

/-- Only tiers 1 to 4 have masks (41_decoder.md R152 to R155). -/
theorem tier_bounds_of_mem_tierMasks {tier : Nat} {p : Pattern} (h : p ∈ tierMasks tier) : 1 ≤ tier ∧ tier ≤ 4 := by
  match tier, h with
  | 1, _ | 2, _ | 3, _ | 4, _ => decide

/-- A correction flips bits of one symbol of the codeword (41_decoder.md R150). -/
theorem Code.fits_decode (c : Code) {v : Codeword} (s : Syndrome) (hn : c.n % 4 = 0) (hv : fits c.n v) :
    fits c.n (c.decode v s).cw := by
  rcases c.decode_cases v s with ⟨-, hdec⟩ | ⟨-, t, ht, hdec⟩ | ⟨-, -, hdec⟩
  · rwa [hdec]
  · obtain ⟨hsym, -⟩ := (c.mem_trials hn t).1 (List.mem_of_find?_eq_some ht)
    rw [hdec]
    exact fits_xor hv (fits_patternAt t.mask hn hsym)
  · rwa [hdec]

/-- The record of a decode names a tier and a symbol of the code, and with tier 0 no bit at all (10_state.md R48). -/
theorem Code.decode_record_legal (c : Code) (v : Codeword) (s : Syndrome) (hn : c.n % 4 = 0) (hsyms : 0 < c.nsym) :
    (c.decode v s).tier ≤ 4 ∧ (c.decode v s).sym < c.nsym ∧
      ((c.decode v s).tier = 0 → (c.decode v s).sym = 0 ∧ (c.decode v s).mask = 0) := by
  rcases c.decode_cases v s with ⟨-, hdec⟩ | ⟨-, t, ht, hdec⟩ | ⟨-, -, hdec⟩
  · rw [hdec]
    exact ⟨Nat.zero_le 4, hsyms, fun _ => ⟨rfl, rfl⟩⟩
  · obtain ⟨hsym, hmask⟩ := (c.mem_trials hn t).1 (List.mem_of_find?_eq_some ht)
    obtain ⟨hpos, hle⟩ := tier_bounds_of_mem_tierMasks hmask
    rw [hdec]
    exact ⟨hle, hsym, fun hzero => absurd hzero (Nat.ne_of_gt hpos)⟩
  · rw [hdec]
    exact ⟨Nat.zero_le 4, hsyms, fun _ => ⟨rfl, rfl⟩⟩

theorem Code.fits_candidateOf (c : Code) {t x : Codeword} (hn : c.n % 4 = 0) (ht : fits c.n t)
    (hx : c.candidateOf t = some x) : fits c.n x := by
  unfold Code.candidateOf at hx
  split_ifs at hx
  injection hx with hx
  rw [← hx]
  exact c.fits_decode _ hn ht

/-- An enumeration fills at most `maxc` entries, at least one, each a codeword-shaped value (42_enumerator.md R180). -/
theorem Code.enumerate_list_legal (c : Code) {v : Codeword} {maxc : Nat} {list : List Codeword} (hn : c.n % 4 = 0)
    (hv : fits c.n v) (h : c.enumerate v maxc = .candidates list) :
    list ≠ [] ∧ list.length ≤ maxc ∧ ∀ x ∈ list, fits c.n x := by
  obtain ⟨hne, hsweep⟩ := c.enumerate_candidates v maxc list h
  obtain ⟨-, hlen, hmem⟩ := c.sweep_some maxc _ [] list hsweep List.nodup_nil (Nat.zero_le _)
  refine ⟨hne, hlen, fun x hx => ?_⟩
  rcases (hmem x).1 hx with hnil | ⟨t, ht, htx⟩
  · exact absurd hnil List.not_mem_nil
  · obtain ⟨k, p, hk, -, rfl⟩ := (c.mem_trialStrings v t).1 ht
    exact c.fits_candidateOf hn (fits_xor hv (fits_patternAt _ hn hk)) htx

/-- The choice is one of the candidates (43_scorer.md R213, R214). -/
theorem Code.best_choose_lt (c : Code) {cands : List Codeword} (sis : List Codeword) (h : cands ≠ []) :
    (c.choose cands sis).best < cands.length := by
  rcases c.choose_cases cands sis with ⟨-, hchoose⟩ | ⟨-, hchoose⟩
  · rw [hchoose]
    exact List.length_pos_iff.2 h
  · obtain ⟨hlt, -, -⟩ := bestIndex_spec (cands.map (c.score sis)) (by simpa using h)
    rw [hchoose]
    simpa using hlt

/-! ## The invariant under each operation on the state -/

/-- The invariant of the step: widths and sizes, and legal results. -/
structure State.Legal (s : State) : Prop where
  widths : s.Widths
  results : s.ResultsLegal

/-- `s` with every register the invariant does not speak of at 0: what an operation must keep to keep the invariant for free. -/
def State.sized (s : State) : State :=
  { State.fresh s.build s.row s.col s.si s.candCw s.candScore with
    cw := s.cw
    syndrome := s.syndrome
    decInfo := s.decInfo
    corrected := s.corrected
    msg := s.msg
    candCount := s.candCount
    best := s.best }

theorem State.legal_sized_iff {s : State} : s.sized.Legal ↔ s.Legal :=
  ⟨fun h => ⟨{ h.widths with }, { h.results with }⟩, fun h => ⟨{ h.widths with }, { h.results with }⟩⟩

/-- The frame rule of the invariant. -/
theorem State.Legal.of_sized_eq {s t : State} (h : s.Legal) (heq : t.sized = s.sized) : t.Legal :=
  State.legal_sized_iff.1 (heq ▸ State.legal_sized_iff.2 h)

namespace State.Legal

variable {s : State}

theorem complete (h : s.Legal) (op : BitVec 4) (code : ResultCode) : (s.complete op code).Legal := h.of_sized_eq rfl

theorem respond (h : s.Legal) (r : BusResponse) : (s.respond r).Legal := h.of_sized_eq rfl

theorem takeEvent (h : s.Legal) (rest : List BusEvent) : (s.takeEvent rest).Legal := h.of_sized_eq rfl

theorem writeSyndrome (h : s.Legal) : s.writeSyndrome.Legal where
  widths := { h.widths with syndromeFits := s.code.fits_syn s.cw }
  results := { h.results with }

theorem writeDecode (h : s.Legal) : (s.writeDecode (s.code.decodeWord s.cw)).Legal := by
  obtain ⟨hn, hsyms, -⟩ := Build.limits h.widths.build
  refine ⟨{ h.widths with
    syndromeFits := s.code.fits_syn s.cw
    correctedFits := s.code.fits_decode _ hn h.widths.cwFits
    msgFits := ?_ }, { h.results with decInfo := ⟨_, _, _, rfl, s.code.decode_record_legal _ _ hn hsyms⟩ }⟩
  simp only [State.writeDecode_msg, State.writeDecode_build]
  split
  · exact fits_zero _
  · exact s.code.fits_msg _

theorem clearCandidates (h : s.Legal) : s.clearCandidates.Legal where
  widths := { h.widths with }
  results := { h.results with
    count := Nat.zero_le _
    best := zero_best_lt _ }

theorem storeCandidates (h : s.Legal) {list : List Codeword} (hlen : list.length ≤ s.build.candCap)
    (hfits : ∀ x ∈ list, fits s.build.n x) : (s.storeCandidates list).Legal := by
  obtain ⟨-, -, hcap⟩ := Build.limits h.widths.build
  have hcount : (s.storeCandidates list).candCount.toNat = list.length := by
    rw [State.storeCandidates_candCount, BitVec.toNat_ofNat, Nat.mod_eq_of_lt (by omega)]
  refine ⟨{ h.widths with
    candCwSize := length_append_drop h.widths.candCwSize hlen
    candCwFits := fits_append_drop hfits h.widths.candCwFits _
    candScoreSize := ?_ }, { h.results with count := hcount.trans_le hlen, best := ?_ }⟩
  · have hsize := length_append_drop (new := List.replicate list.length (0 : Word)) h.widths.candScoreSize (by simpa using hlen)
    simpa using hsize
  · rw [hcount]
    exact zero_best_lt _

/-- Choosing among a nonempty candidate buffer (43_scorer.md R217). -/
theorem resolveDue (h : s.Legal) (hne : s.candCount ≠ 0) : s.resolveDue.Legal := by
  obtain ⟨-, -, hcap⟩ := Build.limits h.widths.build
  have hcount := h.results.count
  have hpos : 0 < s.candidates.length := by
    rw [s.length_candidates]
    exact Nat.pos_of_ne_zero fun hzero => hne (BitVec.eq_of_toNat_eq hzero)
  have hbest := s.code.best_choose_lt s.siWords (List.length_pos_iff.1 hpos)
  have hscores := s.code.length_choose s.candidates s.siWords
  rw [s.length_candidates] at hbest hscores
  refine ⟨{ h.widths with
    correctedFits := fits_getD h.widths.candCwFits _
    msgFits := s.code.fits_msg _
    candScoreSize := ?_ }, { h.results with best := ?_ }⟩
  · have hsize := length_append_drop (new := (s.code.choose s.candidates s.siWords).scores.map (BitVec.ofNat 32))
      h.widths.candScoreSize (by simpa [hscores] using hcount)
    simpa [State.resolveDue] using hsize
  · simp only [State.resolveDue, State.writeChoice_best, State.writeChoice_candCount, BitVec.toNat_ofNat]
    omega

theorem writeCw (h : s.Legal) (l : Nat) (v : Word) : (s.writeCw l v).Legal where
  widths := { h.widths with cwFits := fits_setLimb h.widths.cwFits }
  results := { h.results with }

theorem storeCol (h : s.Legal) (j : Nat) (v : Word) : (s.storeCol j v).Legal where
  widths := { h.widths with
    colSize := List.length_set.trans h.widths.colSize
    colFits := fits_set h.widths.colFits j (fits_lowBits _ v) }
  results := { h.results with }

theorem storeRow (h : s.Legal) (i l : Nat) (v : Word) : (s.storeRow i l v).Legal where
  widths := { h.widths with
    rowSize := List.length_set.trans h.widths.rowSize
    rowFits := fits_set h.widths.rowFits i (fits_setLimb (fits_getD h.widths.rowFits i)) }
  results := { h.results with }

theorem storeSi (h : s.Legal) (m l : Nat) (v : Word) : (s.storeSi m l v).Legal where
  widths := { h.widths with
    siSize := List.length_set.trans h.widths.siSize
    siFits := fits_set h.widths.siFits m (fits_setLimb (fits_getD h.widths.siFits m)) }
  results := { h.results with }

end State.Legal

/-- The values a reset draws for an array have the array's width (70_reset_and_hazards.md R302). -/
theorem fits_of_mem_map_lowBits {m w size : Nat} {draw : Nat → BitVec m} :
    ∀ x ∈ (List.range size).map fun i => lowBits w (draw i), fits w x := by
  intro x hx
  obtain ⟨i, -, rfl⟩ := List.mem_map.1 hx
  exact fits_lowBits w (draw i)

theorem State.legal_afterReset {s : State} (h : s.Widths) : s.afterReset.Legal where
  widths := {
    build := h.build
    rowSize := by simp [State.afterReset, State.fresh]
    rowFits := fits_of_mem_map_lowBits
    colSize := by simp [State.afterReset, State.fresh]
    colFits := fits_of_mem_map_lowBits
    cwFits := fits_zero _
    siSize := by simp [State.afterReset, State.fresh]
    siFits := fits_of_mem_map_lowBits
    syndromeFits := fits_zero _
    correctedFits := fits_zero _
    msgFits := fits_zero _
    candCwSize := by simp [State.afterReset, State.fresh]
    candCwFits := fits_of_mem_map_lowBits
    candScoreSize := by simp [State.afterReset, State.fresh] }
  results := {
    count := Nat.zero_le _
    best := zero_best_lt _
    decInfo :=
      have ⟨_, hsyms, _⟩ := Build.limits h.build
      ⟨0, 0, 0, (by decide : (0 : Word) = packDecInfo 0 0 0), Nat.zero_le 4, hsyms, fun _ => ⟨rfl, rfl⟩⟩ }

/-! ## The invariant under the commands -/

section Commands

variable {s : State}

/-- What ENUM and RUN store when MAXC is within the buffer (42_enumerator.md R181, R185). -/
theorem State.Legal.storeEnumerated (h : s.Legal) {maxc : Nat} {list : List Codeword} (hmaxc : s.maxcTooLarge maxc = false)
    (henum : s.code.enumerate s.cw maxc = .candidates list) :
    ((s.writeDecode (s.code.decodeWord s.cw)).storeCandidates list).Legal ∧
      ((s.writeDecode (s.code.decodeWord s.cw)).storeCandidates list).candCount ≠ 0 := by
  obtain ⟨hn, -, hcap⟩ := Build.limits h.widths.build
  obtain ⟨hne, hlen, hfits⟩ := s.code.enumerate_list_legal hn h.widths.cwFits henum
  have hle : maxc ≤ s.build.candCap := by simpa [State.maxcTooLarge] using hmaxc
  have hpos := List.length_pos_iff.2 hne
  refine ⟨h.writeDecode.storeCandidates (hlen.trans hle) hfits, fun hzero => ?_⟩
  have hmod := congrArg BitVec.toNat hzero
  rw [State.storeCandidates_candCount, BitVec.toNat_ofNat, Nat.mod_eq_of_lt (by omega)] at hmod
  exact Nat.ne_of_gt hpos hmod

theorem execSyn_keeps_legal (h : s.Legal) : ∃ t, execSyn s = .next t ∧ t.Legal := by
  rcases execSyn_cases s with ⟨-, hexec⟩ | ⟨-, hexec⟩
  · exact ⟨_, hexec, h.complete _ _⟩
  · exact ⟨_, hexec, h.writeSyndrome.complete _ _⟩

theorem execDecode_keeps_legal (h : s.Legal) : ∃ t, execDecode s = .next t ∧ t.Legal := by
  rcases execDecode_cases s with ⟨-, hexec⟩ | ⟨-, hexec⟩
  · exact ⟨_, hexec, h.complete _ _⟩
  · exact ⟨_, hexec, h.writeDecode.complete _ _⟩

theorem execEnum_keeps_legal (h : s.Legal) (maxc : Nat) : ∃ t, execEnum maxc s = .next t ∧ t.Legal := by
  rcases execEnum_cases maxc s with ⟨-, hexec⟩ | ⟨-, -, hexec⟩ | ⟨-, -, -, hexec⟩ | ⟨-, -, -, -, hexec⟩ |
    ⟨-, -, -, -, hexec⟩ | ⟨-, hmaxc, -, list, henum, hexec⟩
  · exact ⟨_, hexec, h.complete _ _⟩
  · exact ⟨_, hexec, h.complete _ _⟩
  · exact ⟨_, hexec, h.writeDecode.clearCandidates.complete _ _⟩
  · exact ⟨_, hexec, h.writeDecode.clearCandidates.complete _ _⟩
  · exact ⟨_, hexec, h.writeDecode.clearCandidates.complete _ _⟩
  · exact ⟨_, hexec, (h.storeEnumerated hmaxc henum).1.complete _ _⟩

theorem execChoose_keeps_legal (h : s.Legal) : ∃ t, execChoose s = .next t ∧ t.Legal := by
  rcases execChoose_cases s with ⟨-, hexec⟩ | ⟨-, -, hexec⟩ | ⟨-, -, -, hexec⟩ | ⟨-, -, hne, hexec⟩
  · exact ⟨_, hexec, h.complete _ _⟩
  · exact ⟨_, hexec, h.complete _ _⟩
  · exact ⟨_, hexec, h.complete _ _⟩
  · exact ⟨_, hexec, (h.resolveDue hne).complete _ _⟩

theorem execRun_keeps_legal (h : s.Legal) (maxc : Nat) : ∃ t, execRun maxc s = .next t ∧ t.Legal := by
  rcases execRun_cases maxc s with ⟨-, hexec⟩ | ⟨-, -, hexec⟩ | ⟨-, -, -, -, hexec⟩ | ⟨-, -, -, -, -, hexec⟩ |
    ⟨-, -, -, -, -, hexec⟩ | ⟨-, hmaxc, -, -, list, henum, hexec⟩
  · exact ⟨_, hexec, h.complete _ _⟩
  · exact ⟨_, hexec, h.complete _ _⟩
  · exact ⟨_, hexec, h.writeDecode.clearCandidates.complete _ _⟩
  · exact ⟨_, hexec, h.writeDecode.clearCandidates.complete _ _⟩
  · exact ⟨_, hexec, h.writeDecode.clearCandidates.complete _ _⟩
  · obtain ⟨hstored, hne⟩ := h.storeEnumerated hmaxc henum
    exact ⟨_, hexec, (hstored.resolveDue hne).complete _ _⟩

theorem execCommit_keeps_legal (h : s.Legal) : ∃ t, execCommit s = .next t ∧ t.Legal := by
  rcases execCommit_cases s with ⟨-, hexec⟩ | ⟨-, hexec⟩
  · exact ⟨_, hexec, h.clearCandidates.of_sized_eq rfl⟩
  · exact ⟨_, hexec, h.clearCandidates.of_sized_eq rfl⟩

theorem exec_keeps_legal (h : s.Legal) (i : Instr) : ∃ t, exec i s = .next t ∧ t.Legal := by
  cases i with
  | syn => exact execSyn_keeps_legal h
  | decode => exact execDecode_keeps_legal h
  | enum maxc => exact execEnum_keeps_legal h maxc
  | choose => exact execChoose_keeps_legal h
  | run maxc => exact execRun_keeps_legal h maxc
  | commit => exact execCommit_keeps_legal h

end Commands

/-! ## The invariant under the bus -/

section Bus

variable {s : State}

theorem State.Legal.writeStatus (h : s.Legal) (v : Word) : (s.writeStatus v).Legal := by
  rcases s.writeStatus_cases v with ⟨-, hwrite⟩ | ⟨-, hwrite⟩ <;> rw [hwrite]
  · exact h.of_sized_eq rfl
  · exact h

theorem State.Legal.writeCol (h : s.Legal) (j : Nat) (v : Word) : (s.writeCol j v).Legal := by
  rcases s.writeCol_cases j v with ⟨-, hwrite⟩ | ⟨-, hwrite⟩ <;> rw [hwrite]
  · exact h.storeCol j v
  · exact h.of_sized_eq rfl

theorem State.Legal.writeRow (h : s.Legal) (i l : Nat) (v : Word) : (s.writeRow i l v).Legal := by
  rcases s.writeRow_cases i l v with ⟨-, hwrite⟩ | ⟨-, hwrite⟩ <;> rw [hwrite]
  · exact h.storeRow i l v
  · exact h.of_sized_eq rfl

theorem State.Legal.writeSiData (h : s.Legal) (l : Nat) (v : Word) : (s.writeSiData l v).Legal := by
  rcases s.writeSiData_cases l v with ⟨-, hwrite⟩ | ⟨-, hwrite⟩ <;> rw [hwrite]
  · exact h.storeSi _ l v
  · exact h

theorem State.Legal.writeReg (h : s.Legal) (v : Word) (r : Reg) : (s.writeReg v r).Legal := by
  cases r
  case status => exact h.writeStatus v
  case cw l => exact h.writeCw l v
  case siData l => exact h.writeSiData l v
  case col j => exact h.writeCol j v
  case row i l => exact h.writeRow i l v
  all_goals exact h.of_sized_eq rfl

theorem State.Legal.writeWindow (h : s.Legal) (off : Nat) (v : Word) : (s.writeWindow off v).Legal := by
  rcases s.writeWindow_cases off v with ⟨-, hwrite⟩ | ⟨-, -, hwrite⟩ | ⟨-, -, hwrite⟩ <;> rw [hwrite]
  · exact h.writeStatus v
  · exact h.of_sized_eq rfl
  · exact h.writeReg v _

theorem State.Legal.access (h : s.Legal) (off : Nat) (a : Access) : (s.access off a).Legal := by
  rcases s.access_cases off a with ⟨-, hacc⟩ | ⟨-, -, hacc⟩ | ⟨-, -, -, hacc⟩ | ⟨-, -, v, -, hacc⟩ <;> rw [hacc]
  · exact h.respond _
  · exact h.respond _
  · exact h.respond _
  · exact (h.writeWindow off v).respond _

theorem State.Legal.pollOnce (h : s.Legal) : s.pollOnce.Legal := by
  rcases s.pollOnce_cases with ⟨-, hpoll⟩ | ⟨-, -, hpoll⟩ | ⟨-, -, hpoll⟩ <;> rw [hpoll] <;> exact h.of_sized_eq rfl

theorem State.Legal.releaseReset (h : s.Legal) : s.releaseReset.Legal := by
  unfold State.releaseReset
  split
  · exact State.legal_afterReset h.widths
  · exact h

theorem deliver_keeps_legal {t : State} {e : BusEvent} (h : s.Legal) (hdel : deliver e s = .next t) : t.Legal := by
  rcases deliver_cases hdel with ⟨a, -, -, rfl⟩ | ⟨-, rfl⟩ | ⟨-, rfl⟩ | ⟨-, rfl⟩
  · exact h.access _ a
  · exact h.pollOnce
  · exact h.of_sized_eq rfl
  · exact h.releaseReset

end Bus

theorem step_keeps_legal {s t : State} (h : s.Legal) (hstep : step s = .next t) : t.Legal := by
  rcases step_cases hstep with ⟨-, w, -, ⟨i, -, hexec⟩ | ⟨e, -, rfl⟩⟩ | ⟨-, -, rfl⟩ | ⟨-, e, rest, -, hdel⟩
  · obtain ⟨u, hu, hlegal⟩ := exec_keeps_legal h i
    obtain rfl : t = u := by simpa [hexec] using hu
    exact hlegal
  · exact h.complete _ _
  · exact h
  · exact deliver_keeps_legal (h.takeEvent rest) hdel

/-- Settles O56: the invariant `State.Legal` is kept by every command and by every delivery. -/
theorem everyStepKeepsWidthsAndResults : Obligations.EveryStepKeepsWidthsAndResults := by
  intro s t hwidths hresults hstep
  obtain ⟨hw, hr⟩ := step_keeps_legal ⟨hwidths, hresults⟩ hstep
  exact ⟨hw, hr⟩

end Sys2Proof.Machine
end

section
/-! SUPPORT. The family 10_state.md: the commands as writes. What a command writes depends on its operands alone
(spec/30_encoding.md R109), and a command writes none of its own operands; completion (O31), idempotence (O34) and
noninterference (O35) follow from these two facts. -/

namespace Sys2Proof.Machine

/-! ## Writing the first entries of a buffer -/

/-- `old` with its first entries replaced by `new`: how a command fills the candidate buffer (30_encoding.md R108). -/
def overwrite {α : Type} (new old : List α) : List α := new ++ old.drop new.length

theorem getD_overwrite {α : Type} (new old : List α) (c : Nat) (d : α) :
    (overwrite new old).getD c d = if c < new.length then new.getD c d else old.getD c d := by
  unfold overwrite
  split_ifs with h
  · rw [List.getD_append _ _ _ _ h]
  · rw [List.getD_append_right _ _ _ _ (Nat.not_lt.1 h), List.getD_eq_getElem?_getD, List.getElem?_drop,
      Nat.add_sub_cancel' (Nat.not_lt.1 h), ← List.getD_eq_getElem?_getD]

theorem overwrite_again {α : Type} (new old : List α) : overwrite new (overwrite new old) = overwrite new old := by
  simp [overwrite]

theorem overwrite_overwrite {α : Type} (new first old : List α) :
    overwrite new (overwrite first old) = overwrite (overwrite new first) old := by
  have hlen : first.length + (new.length - first.length) = new.length + (first.length - new.length) := by omega
  simp [overwrite, List.drop_append, hlen]

/-! ## The writes of a command -/

/-- What a command writes beside LAST_OP, RESULT and PENDING (30_encoding.md R108): the new value of each register it writes, and
the first entries of the two arrays of the candidate buffer. -/
structure Writes where
  cfgOk : Option Bool := none
  syndrome : Option Syndrome := none
  decInfo : Option Word := none
  corrected : Option Codeword := none
  msg : Option Codeword := none
  candCount : Option (BitVec 16) := none
  best : Option (BitVec 16) := none
  bestSum : Option Word := none
  candCw : List Codeword := []
  candScore : List Word := []

/-- The state with the writes made. -/
def State.write (w : Writes) (s : State) : State :=
  { s with
    cfgOk := w.cfgOk.getD s.cfgOk
    syndrome := w.syndrome.getD s.syndrome
    decInfo := w.decInfo.getD s.decInfo
    corrected := w.corrected.getD s.corrected
    msg := w.msg.getD s.msg
    candCount := w.candCount.getD s.candCount
    best := w.best.getD s.best
    bestSum := w.bestSum.getD s.bestSum
    candCw := overwrite w.candCw s.candCw
    candScore := overwrite w.candScore s.candScore }

/-- The writes `a`, then the writes `b` over them. -/
def Writes.andThen (a b : Writes) : Writes where
  cfgOk := b.cfgOk.or a.cfgOk
  syndrome := b.syndrome.or a.syndrome
  decInfo := b.decInfo.or a.decInfo
  corrected := b.corrected.or a.corrected
  msg := b.msg.or a.msg
  candCount := b.candCount.or a.candCount
  best := b.best.or a.best
  bestSum := b.bestSum.or a.bestSum
  candCw := overwrite b.candCw a.candCw
  candScore := overwrite b.candScore a.candScore

/-- Group D of 30_encoding.md R108, for the word `v`. -/
def Code.decodeWrites (c : Code) (v : Codeword) : Writes where
  syndrome := some (c.syn v)
  decInfo := some (packDecInfo (c.decodeWord v).tier (c.decodeWord v).sym (c.decodeWord v).mask)
  corrected := some (c.decodeWord v).cw
  msg := some (if (c.decodeWord v).outcome = .due then 0 else c.msg (c.decodeWord v).cw)

/-- Group Z of 30_encoding.md R108. -/
def clearWrites : Writes where
  candCount := some 0
  best := some 0
  bestSum := some 0

/-- The ENUM CANDIDATES row of 30_encoding.md R108. -/
def storeWrites (list : List Codeword) : Writes where
  candCount := some (BitVec.ofNat 16 list.length)
  best := some 0
  bestSum := some 0
  candCw := list
  candScore := List.replicate list.length 0

/-- The CHOSEN writes of 30_encoding.md R108, for the choice `r` of the candidate `x`. -/
def Code.choiceWrites (c : Code) (r : Choice) (x : Codeword) : Writes where
  corrected := some x
  msg := some (c.msg x)
  best := some (BitVec.ofNat 16 r.best)
  bestSum := some (BitVec.ofNat 32 (r.scores.getD r.best 0))
  candScore := r.scores.map (BitVec.ofNat 32)

/-- The candidates in use after the list of an enumeration is stored: CAND_COUNT keeps 16 bits of its length. -/
def storedCandidates (list : List Codeword) : List Codeword := list.take (BitVec.ofNat 16 list.length).toNat

/-- What RUN writes when it resolves a DUE word among the candidates of `list` (44_pipeline_config.md R240). -/
def Code.resolveWrites (c : Code) (v : Codeword) (list sis : List Codeword) : Writes :=
  (c.decodeWrites v).andThen ((storeWrites list).andThen
    (c.choiceWrites (c.choose (storedCandidates list) sis) (list.getD (c.choose (storedCandidates list) sis).best 0)))

/-- The writes spare every operand of the command. -/
structure Writes.Spares (w : Writes) (i : Instr) : Prop where
  cfgOk : Operand.cfgOk ∈ operandsOf i → w.cfgOk = none
  candCount : Operand.candCount ∈ operandsOf i → w.candCount = none
  candCw : Operand.candCw ∈ operandsOf i → w.candCw = []

theorem State.write_write (s : State) (a b : Writes) : (s.write a).write b = s.write (a.andThen b) := by
  simp only [State.write, Writes.andThen, overwrite_overwrite, Option.getD_or]

theorem State.write_again (s : State) (w : Writes) : (s.write w).write w = s.write w := by
  simp only [State.write, overwrite_again, ← Option.getD_or, Option.or_self]

/-- Completing once more with the same writes changes nothing. -/
theorem State.complete_write_again (s : State) (w : Writes) (op : BitVec 4) (code : ResultCode) :
    (((s.write w).complete op code).write w).complete op code = (s.write w).complete op code := by
  change ((s.write w).write w).complete op code = _
  rw [s.write_again]

/-- A state and what a command's completion makes of it agree on the operands the writes spare. -/
theorem sameOperands_write {i : Instr} {s : State} {w : Writes} (h : w.Spares i) (op : BitVec 4) (code : ResultCode) :
    SameOperands i s ((s.write w).complete op code) := by
  refine ⟨rfl, fun o ho => ?_⟩
  cases o with
  | cfgOk => simp [Operand.same, State.write, h.cfgOk ho]
  | candCount => simp [Operand.same, State.write, h.candCount ho]
  | candCw => intro c _; simp [State.write, h.candCw ho, overwrite]
  | si => exact fun _ _ => rfl
  | cw | row | col | layout | distMode | siCount => rfl

/-! ## The model's write groups as writes -/

theorem State.writeDecode_eq_write (s : State) :
    s.writeDecode (s.code.decodeWord s.cw) = s.write (s.code.decodeWrites s.cw) := rfl

theorem State.clearCandidates_eq_write (s : State) : s.clearCandidates = s.write clearWrites := by
  simp [State.clearCandidates, State.write, clearWrites, overwrite]

theorem State.storeCandidates_eq_write (s : State) (list : List Codeword) :
    s.storeCandidates list = s.write (storeWrites list) := by
  simp [State.storeCandidates, State.write, storeWrites, overwrite]

theorem State.resolveDue_eq_write (s : State) :
    s.resolveDue = s.write (s.code.choiceWrites (s.code.choose s.candidates s.siWords)
      (s.candCw.getD (s.code.choose s.candidates s.siWords).best 0)) := by
  simp [State.resolveDue, State.writeChoice, State.write, Code.choiceWrites, overwrite]

theorem State.storeCandidates_candidates_eq (s : State) (list : List Codeword) :
    (s.storeCandidates list).candidates = storedCandidates list := by
  have hle : (BitVec.ofNat 16 list.length).toNat ≤ list.length := by
    rw [BitVec.toNat_ofNat]
    exact Nat.mod_le _ _
  refine List.ext_getElem (by simp [State.candidates, storedCandidates, Nat.mod_le]) fun c h1 h2 => ?_
  have hc : c < list.length := by
    simp only [storedCandidates, List.length_take] at h2
    omega
  simp [State.candidates, storedCandidates, List.getElem?_append_left, hc]

/-- The choice among the stored candidates is an entry of the list (43_scorer.md R213, R214). -/
theorem Code.best_storedCandidates_lt (c : Code) {list : List Codeword} (sis : List Codeword) (h : list ≠ []) :
    (c.choose (storedCandidates list) sis).best < list.length := by
  have hpos := List.length_pos_iff.2 h
  by_cases hs : storedCandidates list = []
  · rw [hs]
    rcases c.choose_cases [] sis with ⟨-, hc⟩ | ⟨-, hc⟩ <;> rw [hc] <;> exact hpos
  · exact Nat.lt_of_lt_of_le (c.best_choose_lt sis hs) (List.length_take_le' _ _)

theorem State.resolveDue_stored (s : State) {list : List Codeword} (h : list ≠ []) :
    ((s.writeDecode (s.code.decodeWord s.cw)).storeCandidates list).resolveDue =
      s.write (s.code.resolveWrites s.cw list s.siWords) := by
  have hentry : (overwrite list s.candCw).getD (s.code.choose (storedCandidates list) s.siWords).best 0 =
      list.getD (s.code.choose (storedCandidates list) s.siWords).best 0 := by
    rw [getD_overwrite, if_pos (s.code.best_storedCandidates_lt s.siWords h)]
  rw [State.resolveDue_eq_write, State.storeCandidates_candidates_eq]
  simp only [State.storeCandidates_code, State.storeCandidates_siWords, State.storeCandidates_candCw, State.writeDecode_code,
    State.writeDecode_siWords, State.writeDecode_candCw]
  rw [← overwrite, hentry, State.storeCandidates_eq_write, State.writeDecode_eq_write, State.write_write, State.write_write]
  rfl

/-! ## What the pure functions read of the configuration -/

/-- `syn` reads N, R and ROW (40_syndrome.md R130). -/
theorem Code.syn_of_tables (c : Code) (col : List Syndrome) (layout distMode : Bool) :
    ({ c with col := col, layout := layout, distMode := distMode } : Code).syn = c.syn := rfl

/-- The COMMIT check reads N, R and the tables (44_pipeline_config.md R250). -/
theorem Code.commitOk_of_tables (c : Code) (layout distMode : Bool) :
    ({ c with layout := layout, distMode := distMode } : Code).commitOk = c.commitOk := rfl

/-- A decode does not read DIST_MODE (41_decoder.md R150). -/
theorem Code.decodeWrites_distMode (c : Code) (d : Bool) :
    ({ c with distMode := d } : Code).decodeWrites = c.decodeWrites := rfl

theorem Code.decodeWord_distMode (c : Code) (d : Bool) :
    ({ c with distMode := d } : Code).decodeWord = c.decodeWord := rfl

theorem Code.sweep_distMode (c : Code) (d : Bool) (maxc : Nat) (ts : List Codeword) :
    ∀ list, ({ c with distMode := d } : Code).sweep maxc ts list = c.sweep maxc ts list := by
  have hcand : ({ c with distMode := d } : Code).candidateOf = c.candidateOf := rfl
  induction ts with
  | nil => exact fun _ => rfl
  | cons t ts ih => exact fun list => by simp only [Code.sweep, hcand, ih]

/-- An enumeration does not read DIST_MODE (42_enumerator.md R180). -/
theorem Code.enumerate_distMode (c : Code) (d : Bool) (v : Codeword) (maxc : Nat) :
    ({ c with distMode := d } : Code).enumerate v maxc = c.enumerate v maxc := by
  have htrials : ({ c with distMode := d } : Code).trialStrings v = c.trialStrings v := rfl
  simp only [Code.enumerate, Code.sweep_distMode, htrials]

/-- A choice does not read the tables (43_scorer.md R217). -/
theorem Code.choose_of_layout (c : Code) (row : List Codeword) (col : List Syndrome) :
    ({ c with row := row, col := col } : Code).choose = c.choose := rfl

theorem Code.choiceWrites_of_layout (c : Code) (row : List Codeword) (col : List Syndrome) :
    ({ c with row := row, col := col } : Code).choiceWrites = c.choiceWrites := rfl

/-! ## A command's writes depend on its operands alone -/

/-- Two completions of the command `i`, in `s` and in `s'`, that make the same writes, spare the operands of `i` and report the
same code, not NONE. -/
def CompleteAlike (i : Instr) (s s' : State) (out out' : Host.Outcome State Fault Refusal) : Prop :=
  ∃ (w : Writes) (code : ResultCode), w.Spares i ∧ code ≠ .none ∧
    out = .next ((s.write w).complete i.op code) ∧ out' = .next ((s'.write w).complete i.op code)

section Alike

variable {i : Instr} {s s' : State} {out out' : Host.Outcome State Fault Refusal}

theorem CompleteAlike.of_writes {w : Writes} {code : ResultCode} {t t' : State} (hw : w.Spares i) (hcode : code ≠ .none)
    (ht : t = s.write w) (ht' : t' = s'.write w) :
    CompleteAlike i s s' (.next (t.complete i.op code)) (.next (t'.complete i.op code)) :=
  ⟨w, code, hw, hcode, by rw [ht], by rw [ht']⟩

theorem fail_alike {code : ResultCode} (hcode : code ≠ .none) :
    CompleteAlike i s s' (fail i.op code s) (fail i.op code s') :=
  .of_writes (w := {}) ⟨fun _ => rfl, fun _ => rfl, fun _ => rfl⟩ hcode rfl rfl

theorem withConfig_alike (hcfg : s.cfgOk = s'.cfgOk) (h : CompleteAlike i s s' out out') :
    CompleteAlike i s s' (withConfig i.op s out) (withConfig i.op s' out') := by
  cases hok : s.cfgOk
  · rw [withConfig_false hok, withConfig_false (hcfg ▸ hok)]
    exact fail_alike (by decide)
  · rwa [withConfig_true hok, withConfig_true (hcfg ▸ hok)]

theorem unlessMalformed_alike {b b' : Bool} (hb : b = b') (h : CompleteAlike i s s' out out') :
    CompleteAlike i s s' (unlessMalformed i.op b s out) (unlessMalformed i.op b' s' out') := by
  subst hb
  cases b
  · exact h
  · exact fail_alike (by decide)

theorem DecodeOutcome.code_ne_none (o : DecodeOutcome) : o.code ≠ .none := by cases o <;> decide

theorem execSyn_alike (h : SameOperands .syn s s') : CompleteAlike .syn s s' (execSyn s) (execSyn s') := by
  obtain ⟨hbuild, hsame⟩ := h
  have hcw : s.cw = s'.cw := hsame .cw (by decide)
  have hrow : s.row = s'.row := hsame .row (by decide)
  have hcode : s'.code = { s.code with col := s'.col, layout := s'.layout, distMode := s'.distMode } := by
    simp [State.code, hbuild, hrow]
  have hsyn : s'.code.syn s'.cw = s.code.syn s.cw := by rw [hcode, Code.syn_of_tables, hcw]
  exact withConfig_alike (hsame .cfgOk (by decide)) (.of_writes (w := { syndrome := some (s.code.syn s.cw) })
    ⟨fun _ => rfl, fun _ => rfl, fun _ => rfl⟩ (by decide) rfl (by rw [← hsyn]; rfl))

/-- What DECODE, ENUM and RUN read alike: the decode of CW. -/
structure SameDecode (s s' : State) : Prop where
  build : s.build = s'.build
  cfgOk : s.cfgOk = s'.cfgOk
  cw : s.cw = s'.cw
  code : s'.code = { s.code with distMode := s'.distMode }

theorem SameDecode.of_operands (h : SameOperands i s s') (hi : ∀ o ∈ operandsOf .decode, o ∈ operandsOf i) :
    SameDecode s s' := by
  obtain ⟨hbuild, hsame⟩ := h
  have hrow : s.row = s'.row := hsame .row (hi _ (by decide))
  have hcol : s.col = s'.col := hsame .col (hi _ (by decide))
  have hlayout : s.layout = s'.layout := hsame .layout (hi _ (by decide))
  exact ⟨hbuild, hsame .cfgOk (hi _ (by decide)), hsame .cw (hi _ (by decide)), by
    simp [State.code, hbuild, hrow, hcol, hlayout]⟩

namespace SameDecode

theorem writes_eq (h : SameDecode s s') : s'.code.decodeWrites s'.cw = s.code.decodeWrites s.cw := by
  rw [h.code, Code.decodeWrites_distMode, h.cw]

theorem word_eq (h : SameDecode s s') : s'.code.decodeWord s'.cw = s.code.decodeWord s.cw := by
  rw [h.code, Code.decodeWord_distMode, h.cw]

theorem enumerate_eq (h : SameDecode s s') (maxc : Nat) : s'.code.enumerate s'.cw maxc = s.code.enumerate s.cw maxc := by
  rw [h.code, Code.enumerate_distMode, h.cw]

end SameDecode

theorem execDecode_alike (h : SameOperands .decode s s') :
    CompleteAlike .decode s s' (execDecode s) (execDecode s') := by
  have hdec := SameDecode.of_operands h fun _ ho => ho
  refine withConfig_alike hdec.cfgOk ?_
  rw [s.writeDecode_eq_write, s'.writeDecode_eq_write, hdec.writes_eq, hdec.word_eq]
  exact .of_writes ⟨fun _ => rfl, fun _ => rfl, fun _ => rfl⟩ (DecodeOutcome.code_ne_none _) rfl rfl

/-- A decode, then Group Z (30_encoding.md R108): how ENUM and RUN end without candidates. -/
theorem decodeAndClear_alike (hdec : SameDecode s s') {code : ResultCode} (hcode : code ≠ .none)
    (hcount : Operand.candCount ∉ operandsOf i) :
    CompleteAlike i s s' (.next ((s.writeDecode (s.code.decodeWord s.cw)).clearCandidates.complete i.op code))
      (.next ((s'.writeDecode (s.code.decodeWord s.cw)).clearCandidates.complete i.op code)) := by
  refine .of_writes (w := (s.code.decodeWrites s.cw).andThen clearWrites)
    ⟨fun _ => rfl, fun hmem => absurd hmem hcount, fun _ => rfl⟩ hcode ?_ ?_
  · rw [s.writeDecode_eq_write, State.clearCandidates_eq_write, State.write_write]
  · rw [← hdec.word_eq, s'.writeDecode_eq_write, State.clearCandidates_eq_write, State.write_write, hdec.writes_eq]

theorem execEnum_alike {maxc : Nat} (h : SameOperands (.enum maxc) s s') :
    CompleteAlike (.enum maxc) s s' (execEnum maxc s) (execEnum maxc s') := by
  have hdec := SameDecode.of_operands h fun _ ho => ho
  have hcount : Operand.candCount ∉ operandsOf (.enum maxc) := by simp [operandsOf]
  have hbuffer : Operand.candCw ∉ operandsOf (.enum maxc) := by simp [operandsOf]
  refine withConfig_alike hdec.cfgOk (unlessMalformed_alike (by rw [State.maxcTooLarge, hdec.build]; rfl) ?_)
  rw [hdec.word_eq, hdec.enumerate_eq]
  split
  next =>
    cases s.code.enumerate s.cw maxc with
    | capacity => exact decodeAndClear_alike hdec (by decide) hcount
    | unrecoverable => exact decodeAndClear_alike hdec (by decide) hcount
    | candidates list =>
      refine .of_writes (w := (s.code.decodeWrites s.cw).andThen (storeWrites list))
        ⟨fun _ => rfl, fun hmem => absurd hmem hcount, fun hmem => absurd hmem hbuffer⟩ (by decide) ?_ ?_
      · rw [s.writeDecode_eq_write, State.storeCandidates_eq_write, State.write_write]
      · rw [← hdec.word_eq, s'.writeDecode_eq_write, State.storeCandidates_eq_write, State.write_write, hdec.writes_eq]
  next =>
    exact decodeAndClear_alike hdec (by decide) hcount

/-- The side-information words in use are operands together with SI_COUNT (43_scorer.md R220). -/
theorem siWords_eq_of_operands (hcount : s.siCount = s'.siCount)
    (hsi : ∀ m, m < s.siCount.toNat → s.si.getD m 0 = s'.si.getD m 0) : s'.siWords = s.siWords := by
  rw [State.siWords, State.siWords, ← hcount]
  exact List.map_congr_left fun m hm => (hsi m (List.mem_range.1 hm)).symm

/-- The candidates in use are operands together with CAND_COUNT (43_scorer.md R220). -/
theorem candidates_eq_of_operands (hcount : s.candCount = s'.candCount)
    (hcw : ∀ c, c < s.candCount.toNat → s.candCw.getD c 0 = s'.candCw.getD c 0) : s'.candidates = s.candidates := by
  rw [State.candidates, State.candidates, ← hcount]
  exact List.map_congr_left fun c hc => (hcw c (List.mem_range.1 hc)).symm

/-- CHOOSE on a nonempty buffer picks an entry in use (43_scorer.md R213, R214). -/
theorem State.best_choose_lt (s : State) (c : Code) (h : s.candCount ≠ 0) :
    (c.choose s.candidates s.siWords).best < s.candCount.toNat := by
  rw [← s.length_candidates]
  refine c.best_choose_lt s.siWords fun hnil => h (BitVec.eq_of_toNat_eq ?_)
  rw [← s.length_candidates, hnil]
  rfl

theorem execChoose_alike (h : SameOperands .choose s s') :
    CompleteAlike .choose s s' (execChoose s) (execChoose s') := by
  obtain ⟨hbuild, hsame⟩ := h
  have hlayout : s.layout = s'.layout := hsame .layout (by decide)
  have hdist : s.distMode = s'.distMode := hsame .distMode (by decide)
  have hcode : s'.code = { s.code with row := s'.row, col := s'.col } := by simp [State.code, hbuild, hlayout, hdist]
  have hcount : s.candCount = s'.candCount := hsame .candCount (by decide)
  have hentries : ∀ c, c < s.candCount.toNat → s.candCw.getD c 0 = s'.candCw.getD c 0 := hsame .candCw (by decide)
  have hsiCount : s.siCount = s'.siCount := hsame .siCount (by decide)
  have hchoice : s'.code.choose s'.candidates s'.siWords = s.code.choose s.candidates s.siWords := by
    rw [hcode, Code.choose_of_layout, candidates_eq_of_operands hcount hentries,
      siWords_eq_of_operands hsiCount (hsame .si (by decide))]
  have hwrites : s'.code.choiceWrites = s.code.choiceWrites := by rw [hcode, Code.choiceWrites_of_layout]
  refine withConfig_alike (hsame .cfgOk (by decide))
    (unlessMalformed_alike (by rw [State.siCountTooLarge, hbuild, hsiCount]; rfl) ?_)
  by_cases hzero : s.candCount = 0
  · rw [if_pos hzero, if_pos (hcount ▸ hzero)]
    exact fail_alike (by decide)
  · rw [if_neg hzero, if_neg (hcount ▸ hzero)]
    refine .of_writes (w := s.code.choiceWrites (s.code.choose s.candidates s.siWords)
      (s.candCw.getD (s.code.choose s.candidates s.siWords).best 0)) ⟨fun _ => rfl, fun _ => rfl, fun _ => rfl⟩ (by decide)
      s.resolveDue_eq_write ?_
    rw [hentries _ (s.best_choose_lt s.code hzero), ← hchoice, ← hwrites]
    exact s'.resolveDue_eq_write

theorem execRun_alike {maxc : Nat} (h : SameOperands (.run maxc) s s') :
    CompleteAlike (.run maxc) s s' (execRun maxc s) (execRun maxc s') := by
  have hdec := SameDecode.of_operands h (by simp [operandsOf])
  have hsame := h.2
  have hcount : Operand.candCount ∉ operandsOf (.run maxc) := by simp [operandsOf]
  have hbuffer : Operand.candCw ∉ operandsOf (.run maxc) := by simp [operandsOf]
  have hsiCount : s.siCount = s'.siCount := hsame .siCount (by simp [operandsOf])
  have hdist : s.distMode = s'.distMode := hsame .distMode (by simp [operandsOf])
  have hcode : s'.code = s.code := by rw [hdec.code, ← hdist]; rfl
  have hwords := siWords_eq_of_operands hsiCount (hsame .si (by simp [operandsOf]))
  refine withConfig_alike hdec.cfgOk (unlessMalformed_alike (by rw [State.maxcTooLarge, hdec.build]; rfl)
    (unlessMalformed_alike (by rw [State.siCountTooLarge, hdec.build, hsiCount]; rfl) ?_))
  rw [hdec.word_eq, hdec.enumerate_eq]
  cases (s.code.decodeWord s.cw).outcome with
  | noError => exact decodeAndClear_alike hdec (by decide) hcount
  | corrected => exact decodeAndClear_alike hdec (by decide) hcount
  | due =>
    cases henum : s.code.enumerate s.cw maxc with
    | capacity => exact decodeAndClear_alike hdec (by decide) hcount
    | unrecoverable => exact decodeAndClear_alike hdec (by decide) hcount
    | candidates list =>
      obtain ⟨hne, -⟩ := s.code.enumerate_candidates _ _ _ henum
      refine .of_writes (w := s.code.resolveWrites s.cw list s.siWords)
        ⟨fun _ => rfl, fun hmem => absurd hmem hcount, fun hmem => absurd hmem hbuffer⟩ (by decide)
        (s.resolveDue_stored hne) ?_
      rw [← hdec.word_eq, ← hcode, hdec.cw, ← hwords]
      exact s'.resolveDue_stored hne

theorem commitOk_eq_of_operands (h : SameOperands .commit s s') : s'.code.commitOk = s.code.commitOk := by
  obtain ⟨hbuild, hsame⟩ := h
  have hrow : s.row = s'.row := hsame .row (by decide)
  have hcol : s.col = s'.col := hsame .col (by decide)
  have hcode : s'.code = { s.code with layout := s'.layout, distMode := s'.distMode } := by
    simp [State.code, hbuild, hrow, hcol]
  rw [hcode, Code.commitOk_of_tables]

theorem execCommit_alike (h : SameOperands .commit s s') :
    CompleteAlike .commit s s' (execCommit s) (execCommit s') := by
  have hspares (ok : Bool) : Writes.Spares { clearWrites with cfgOk := some ok } .commit :=
    ⟨fun hmem => absurd hmem (by decide), fun hmem => absurd hmem (by decide), fun _ => rfl⟩
  rw [execCommit, execCommit, commitOk_eq_of_operands h]
  cases s.code.commitOk
  · exact .of_writes (hspares false) (by decide) rfl rfl
  · exact .of_writes (hspares true) (by decide) rfl rfl

/-- COMMIT leaves the verdict of its check in CFG_OK (44_pipeline_config.md R251). -/
theorem execCommit_cfgOk {t : State} (h : execCommit s = .next t) : t.cfgOk = s.code.commitOk := by
  rcases execCommit_cases s with ⟨hcheck, hexec⟩ | ⟨hcheck, hexec⟩ <;>
  · obtain rfl := Host.Outcome.next.inj (hexec.symm.trans h)
    exact hcheck.symm

/-- What a command writes, and the code it reports, are functions of its operands, none of which it writes (30_encoding.md R109). -/
theorem exec_alike (i : Instr) (h : SameOperands i s s') : CompleteAlike i s s' (exec i s) (exec i s') := by
  cases i with
  | syn => exact execSyn_alike h
  | decode => exact execDecode_alike h
  | enum maxc => exact execEnum_alike h
  | choose => exact execChoose_alike h
  | run maxc => exact execRun_alike h
  | commit => exact execCommit_alike h

end Alike

theorem SameOperands.refl (i : Instr) (s : State) : SameOperands i s s := by
  refine ⟨rfl, fun o _ => ?_⟩
  cases o with
  | si | candCw => exact fun _ _ => rfl
  | cfgOk | cw | row | col | layout | distMode | siCount | candCount => rfl

/-- A command completes, with writes that spare its operands. -/
theorem exec_writes (i : Instr) (s : State) :
    ∃ w code, Writes.Spares w i ∧ code ≠ .none ∧ exec i s = .next ((s.write w).complete i.op code) := by
  obtain ⟨w, code, hspares, hcode, hexec, -⟩ := exec_alike i (SameOperands.refl i s)
  exact ⟨w, code, hspares, hcode, hexec⟩

/-- CFG_OK is an operand of every command but COMMIT (60_exceptions.md R272). -/
theorem cfgOk_mem_operandsOf {i : Instr} (h : i ≠ .commit) : Operand.cfgOk ∈ operandsOf i := by
  cases i with
  | commit => exact absurd rfl h
  | syn | decode | enum _ | choose | run _ => simp [operandsOf]

/-- Settles O31: the writes of a command touch result registers only, and CFG_OK is an operand of every command but COMMIT. -/
theorem everyCommandCompletesAndKeepsTheHostsRegisters : Obligations.EveryCommandCompletesAndKeepsTheHostsRegisters := by
  intro i s
  obtain ⟨w, code, hspares, hcode, hexec⟩ := exec_writes i s
  refine ⟨_, hexec, rfl, hcode, rfl, rfl, rfl, rfl, rfl, rfl, rfl, rfl, rfl, rfl, rfl, rfl, rfl, rfl, rfl, rfl, rfl, rfl,
    fun hi => ?_⟩
  simp [State.write, hspares.cfgOk (cfgOk_mem_operandsOf hi)]

/-- Settles O34: a command that spares its operands makes the same writes when it is issued again (R57). -/
theorem commandsAreIdempotent : Obligations.CommandsAreIdempotent := by
  intro i s
  obtain ⟨w, code, hspares, -, hexec⟩ := exec_writes i s
  obtain ⟨w', code', -, -, hfirst, hagain⟩ := exec_alike i (sameOperands_write (s := s) hspares i.op code)
  have hsame : (s.write w).complete i.op code = (s.write w').complete i.op code' := by simpa [hexec] using hfirst
  refine ⟨_, hfirst, ?_⟩
  rw [← hsame, hagain, hsame, s.complete_write_again]

theorem keptOrEqual_getD {α : Type} (o : Option α) (a b : α) : keptOrEqual a (o.getD a) b (o.getD b) := by
  cases o with
  | none => exact .inl ⟨rfl, rfl⟩
  | some _ => exact .inr rfl

theorem keptOrEqual_overwrite {α : Type} (new a b : List α) (c : Nat) (d : α) :
    keptOrEqual (a.getD c d) ((overwrite new a).getD c d) (b.getD c d) ((overwrite new b).getD c d) := by
  rw [getD_overwrite, getD_overwrite]
  split
  · exact .inr rfl
  · exact .inl ⟨rfl, rfl⟩

/-- Settles O35: states that agree on the operands get the same writes, and a write keeps a register or sets it. -/
theorem commandsReadOnlyTheirOperands : Obligations.CommandsReadOnlyTheirOperands := by
  intro i s s' hsame
  obtain ⟨w, code, -, -, hexec, hexec'⟩ := exec_alike i hsame
  refine ⟨_, _, hexec, hexec', rfl, rfl, ?_, keptOrEqual_getD _ _ _, keptOrEqual_getD _ _ _, keptOrEqual_getD _ _ _,
    keptOrEqual_getD _ _ _, keptOrEqual_getD _ _ _, keptOrEqual_getD _ _ _, keptOrEqual_getD _ _ _,
    fun c => ⟨keptOrEqual_overwrite _ _ _ c 0, keptOrEqual_overwrite _ _ _ c 0⟩⟩
  by_cases hi : i = .commit
  · subst hi
    exact (execCommit_cfgOk hexec).trans ((commitOk_eq_of_operands hsame).symm.trans (execCommit_cfgOk hexec').symm)
  · have hcfg : s.cfgOk = s'.cfgOk := hsame.2 .cfgOk (cfgOk_mem_operandsOf hi)
    exact congrArg w.cfgOk.getD hcfg

end Sys2Proof.Machine
end

section
/-! SUPPORT. The family 10_state.md: every step keeps the command handshake and the build (spec/10_state.md R42, R44, R55,
spec/20_memory.md R88, R89). -/

namespace Sys2Proof.Machine

/-! ## The handshake -/

section Handshake

variable {s t : State}

/-- The handshake speaks of four fields. -/
theorem State.Protocol.of_same (h : s.Protocol) (hcmd : t.cmd = s.cmd) (hpending : t.pending = s.pending)
    (hdelay : t.delay = s.delay) (hreset : t.inReset = s.inReset) : t.Protocol where
  cmdIsPending := by rw [hpending, hcmd]; exact h.cmdIsPending
  idleDelay := by rw [hpending, hdelay]; exact h.idleDelay
  resetIdle := by rw [hreset, hpending]; exact h.resetIdle

/-- A state with nothing pending and nothing to wait for meets the handshake. -/
theorem State.protocol_of_idle (hpending : t.pending = none) (hdelay : t.delay = 0) : t.Protocol where
  cmdIsPending w hw := by simp [hpending] at hw
  idleDelay _ := hdelay
  resetIdle _ := hpending

theorem State.Protocol.takeEvent (h : s.Protocol) (rest : List BusEvent) : (s.takeEvent rest).Protocol :=
  { h with idleDelay := fun hp => by simp [h.idleDelay hp] }

/-- Acceptance happens out of reset only (70_reset_and_hazards.md R300). -/
theorem State.protocol_accept (hreset : s.inReset = false) (v : Word) : (s.accept v).Protocol where
  cmdIsPending w hw := Option.some.inj hw
  idleDelay hp := nomatch hp
  resetIdle hr := by simp [hreset] at hr

/-- A host write to a register other than CMD leaves the handshake alone. -/
theorem State.writeReg_handshake (s : State) (v : Word) {r : Reg} (hr : r ≠ .cmd) :
    (s.writeReg v r).cmd = s.cmd ∧ (s.writeReg v r).pending = s.pending ∧ (s.writeReg v r).delay = s.delay := by
  cases r
  case cmd => exact absurd rfl hr
  case status => rcases s.writeStatus_cases v with ⟨-, hw⟩ | ⟨-, hw⟩ <;> simp [State.writeReg, hw]
  case siData l => rcases s.writeSiData_cases l v with ⟨-, hw⟩ | ⟨-, hw⟩ <;> simp [State.writeReg, hw]
  case col j => rcases s.writeCol_cases j v with ⟨-, hw⟩ | ⟨-, hw⟩ <;> simp [State.writeReg, hw]
  case row i l => rcases s.writeRow_cases i l v with ⟨-, hw⟩ | ⟨-, hw⟩ <;> simp [State.writeReg, hw]
  all_goals exact ⟨rfl, rfl, rfl⟩

theorem State.Protocol.writeReg (h : s.Protocol) (hreset : s.inReset = false) (v : Word) (r : Reg) :
    (s.writeReg v r).Protocol := by
  by_cases hr : r = .cmd
  · rw [hr]
    exact State.protocol_accept hreset v
  · obtain ⟨hcmd, hpending, hdelay⟩ := s.writeReg_handshake v hr
    obtain ⟨-, -, -, -, -, -, -, -, -, -, -, -, hin, -⟩ := s.writeReg_frame v r
    exact h.of_same hcmd hpending hdelay hin

theorem State.Protocol.writeWindow (h : s.Protocol) (hreset : s.inReset = false) (off : Nat) (v : Word) :
    (s.writeWindow off v).Protocol := by
  rcases s.writeWindow_cases off v with ⟨-, hwrite⟩ | ⟨-, -, hwrite⟩ | ⟨-, -, hwrite⟩ <;> rw [hwrite]
  · exact h.writeReg hreset v .status
  · exact h.of_same rfl rfl rfl rfl
  · exact h.writeReg hreset v _

theorem State.Protocol.access (h : s.Protocol) (off : Nat) (a : Access) : (s.access off a).Protocol := by
  rcases s.access_cases off a with ⟨-, hacc⟩ | ⟨-, -, hacc⟩ | ⟨-, -, -, hacc⟩ | ⟨hreset, -, v, -, hacc⟩ <;> rw [hacc]
  · exact h.of_same rfl rfl rfl rfl
  · exact h.of_same rfl rfl rfl rfl
  · exact h.of_same rfl rfl rfl rfl
  · exact (h.writeWindow hreset off v).of_same rfl rfl rfl rfl

theorem State.Protocol.pollOnce (h : s.Protocol) : s.pollOnce.Protocol := by
  rcases s.pollOnce_cases with ⟨-, hpoll⟩ | ⟨-, -, hpoll⟩ | ⟨-, -, hpoll⟩ <;> rw [hpoll] <;>
    exact h.of_same rfl rfl rfl rfl

theorem State.Protocol.releaseReset (h : s.Protocol) : s.releaseReset.Protocol := by
  unfold State.releaseReset
  split
  · exact State.protocol_of_idle rfl rfl
  · exact h

theorem deliver_keeps_protocol {e : BusEvent} (h : s.Protocol) (hdel : deliver e s = .next t) : t.Protocol := by
  rcases deliver_cases hdel with ⟨a, -, -, rfl⟩ | ⟨-, rfl⟩ | ⟨-, rfl⟩ | ⟨-, rfl⟩
  · exact h.access _ a
  · exact h.pollOnce
  · exact State.protocol_of_idle rfl rfl
  · exact h.releaseReset

/-- A completion leaves the engine idle (20_memory.md R89). -/
theorem exec_gives_protocol {i : Instr} (hexec : exec i s = .next t) : t.Protocol := by
  obtain ⟨w, code, -, -, hwrites⟩ := exec_writes i s
  obtain rfl := Host.Outcome.next.inj (hwrites.symm.trans hexec)
  exact State.protocol_of_idle rfl rfl

theorem step_keeps_protocol (h : s.Protocol) (hstep : step s = .next t) : t.Protocol := by
  rcases step_cases hstep with ⟨-, w, -, ⟨i, -, hexec⟩ | ⟨e, -, rfl⟩⟩ | ⟨-, -, rfl⟩ | ⟨-, e, rest, -, hdel⟩
  · exact exec_gives_protocol hexec
  · exact State.protocol_of_idle rfl rfl
  · exact h
  · exact deliver_keeps_protocol (h.takeEvent rest) hdel

end Handshake

/-- Settles O57: the handshake is kept by every step, and a read of CMD returns CMD. -/
theorem everyStepKeepsTheHandshake : Obligations.EveryStepKeepsTheHandshake := by
  intro s t h hstep
  have ht := step_keeps_protocol h hstep
  exact ⟨ht, fun w hw => t.readWindow_cmd.trans (ht.cmdIsPending w hw)⟩

/-! ## The build -/

section BuildParameters

variable {s t : State}

theorem State.writeWindow_build (s : State) (off : Nat) (v : Word) : (s.writeWindow off v).build = s.build := by
  rcases s.writeWindow_cases off v with ⟨-, hwrite⟩ | ⟨-, -, hwrite⟩ | ⟨-, -, hwrite⟩ <;> rw [hwrite]
  · exact (s.writeReg_frame v .status).1
  · rfl
  · exact (s.writeReg_frame v _).1

theorem State.access_build (s : State) (off : Nat) (a : Access) : (s.access off a).build = s.build := by
  rcases s.access_cases off a with ⟨-, hacc⟩ | ⟨-, -, hacc⟩ | ⟨-, -, -, hacc⟩ | ⟨-, -, v, -, hacc⟩ <;> rw [hacc]
  · rfl
  · rfl
  · rfl
  · exact s.writeWindow_build off v

theorem deliver_keeps_build {e : BusEvent} (hdel : deliver e s = .next t) : t.build = s.build := by
  rcases deliver_cases hdel with ⟨a, -, -, rfl⟩ | ⟨-, rfl⟩ | ⟨-, rfl⟩ | ⟨-, rfl⟩
  · exact s.access_build _ a
  · rcases s.pollOnce_cases with ⟨-, hpoll⟩ | ⟨-, -, hpoll⟩ | ⟨-, -, hpoll⟩ <;> rw [hpoll] <;> rfl
  · rfl
  · unfold State.releaseReset
    split <;> rfl

/-- The build parameters are constant (10_state.md R44). -/
theorem step_keeps_build (hstep : step s = .next t) : t.build = s.build := by
  rcases step_cases hstep with ⟨-, w, -, ⟨i, -, hexec⟩ | ⟨e, -, rfl⟩⟩ | ⟨-, -, rfl⟩ | ⟨-, e, rest, -, hdel⟩
  · obtain ⟨w, code, -, -, hwrites⟩ := exec_writes i s
    obtain rfl := Host.Outcome.next.inj (hwrites.symm.trans hexec)
    rfl
  · rfl
  · rfl
  · exact (deliver_keeps_build hdel).trans (s.takeEvent_build rest)

end BuildParameters

/-- Two fields of a word that do not overlap add up. -/
theorem toNat_or_shiftLeft {x y : Word} {k : Nat} (hx : x.toNat < 2 ^ k) (hy : y.toNat * 2 ^ k < 2 ^ 32) :
    (x ||| y <<< k).toNat = x.toNat + y.toNat * 2 ^ k := by
  rw [BitVec.toNat_or, BitVec.toNat_shiftLeft, Nat.shiftLeft_eq, Nat.mod_eq_of_lt hy, Nat.or_comm, Nat.mul_comm,
    ← Nat.two_pow_add_eq_or_of_lt hx, Nat.add_comm]

theorem toNat_ofNat_word {n : Nat} (h : n < 2 ^ 32) : (BitVec.ofNat 32 n).toNat = n := by
  rw [BitVec.toNat_ofNat, Nat.mod_eq_of_lt h]

/-- PARAM0 as a number: its three fields do not overlap (10_state.md R44). -/
theorem toNat_param0 {b : Build} (h : b.wellFormed = true) :
    (param0 b).toNat = b.n + b.r * 2 ^ 16 + 4 * 2 ^ 24 := by
  simp only [Build.wellFormed, Bool.and_eq_true, decide_eq_true_eq] at h
  have hn := toNat_ofNat_word (n := b.n) (by omega)
  have hr := toNat_ofNat_word (n := b.r) (by omega)
  have hlow := toNat_or_shiftLeft (x := BitVec.ofNat 32 b.n) (y := BitVec.ofNat 32 b.r) (k := 16) (by omega) (by omega)
  rw [param0, toNat_or_shiftLeft (by omega) (by decide), hlow, hn, hr]
  rfl

/-- PARAM1 as a number: its two fields do not overlap (10_state.md R44). -/
theorem toNat_param1 {b : Build} (h : b.wellFormed = true) :
    (param1 b).toNat = b.candCap + b.siCap * 2 ^ 16 := by
  simp only [Build.wellFormed, Bool.and_eq_true, decide_eq_true_eq] at h
  have hcand := toNat_ofNat_word (n := b.candCap) (by omega)
  have hsi := toNat_ofNat_word (n := b.siCap) (by omega)
  rw [param1, toNat_or_shiftLeft (by omega) (by omega), hcand, hsi]

@[simp] theorem State.readWindow_param0 (s : State) : s.readWindow 0x008 = param0 s.build := rfl
@[simp] theorem State.readWindow_param1 (s : State) : s.readWindow 0x00C = param1 s.build := rfl

/-- Settles O48: the two words from the widths of their fields, and their constancy from that of the build. -/
theorem identificationRegistersAreConstant : Obligations.IdentificationRegistersAreConstant := by
  intro s hb
  refine ⟨toNat_param0 hb, toNat_param1 hb, fun t hstep => ?_⟩
  simp [step_keeps_build hstep]

end Sys2Proof.Machine
end

section
/-! SUPPORT. The family 10_state.md: while CFG_OK = 1 the configuration passes the COMMIT check and the candidates in use
are distinct codewords of it (spec/10_state.md R36, spec/42_enumerator.md R193). -/

namespace Sys2Proof.Machine

/-! ## Syndromes under a committed configuration -/

/-- `syn` is linear over XOR (40_syndrome.md R132). -/
theorem Code.syn_xor (c : Code) (a b : Codeword) : c.syn (a ^^^ b) = c.syn a ^^^ c.syn b := by
  refine BitVec.eq_of_getLsbD_eq fun i hi => ?_
  have hand (row : Codeword) : row &&& (a ^^^ b) = (row &&& a) ^^^ (row &&& b) := by
    ext j
    simp [Bool.and_xor_distrib_left]
  rw [BitVec.getLsbD_xor, c.syn_getLsbD _ i hi, c.syn_getLsbD _ i hi, c.syn_getLsbD _ i hi, hand, parity_xor,
    Bool.and_xor_distrib_left]

theorem Code.syn_zero (c : Code) : c.syn 0 = 0 := by
  simpa using c.syn_xor 0 0

/-- The check compares every column with the syndrome of its bit (44_pipeline_config.md R250). -/
theorem Code.syn_oneBit {c : Code} (h : c.commitOk = true) {j : Nat} (hj : j < c.n) : c.syn (oneBit j) = c.colAt j := by
  simp only [Code.commitOk, Code.columnOk, Bool.and_eq_true, List.all_eq_true, List.mem_range, decide_eq_true_eq] at h
  exact (h.1 j hj).1.symm

/-- Bit `b` of a pattern, standing in symbol `k`. -/
def patternBit (p : Pattern) (k b : Nat) : Codeword := if p.getLsbD b then oneBit (4 * k + b) else 0

/-- A pattern of a symbol is the XOR of its bits. -/
theorem patternAt_eq_xor (p : Pattern) (k : Nat) :
    patternAt p k = patternBit p k 0 ^^^ patternBit p k 1 ^^^ patternBit p k 2 ^^^ patternBit p k 3 := by
  have hbit : ∀ b i, i < 256 → (patternBit p k b).getLsbD i = (p.getLsbD b && decide (i = 4 * k + b)) := by
    intro b i hi
    unfold patternBit
    split
    next hp => rw [getLsbD_oneBit, hp, decide_eq_true hi]
    next hp => simp [hp]
  refine BitVec.eq_of_getLsbD_eq fun i hi => ?_
  simp only [BitVec.getLsbD_xor, hbit _ i hi, getLsbD_patternAt, decide_eq_true hi, Bool.true_and]
  by_cases hin : 4 * k ≤ i ∧ i < 4 * k + 4
  · obtain ⟨b, hb, rfl⟩ : ∃ b, b < 4 ∧ i = 4 * k + b := ⟨i - 4 * k, by omega, by omega⟩
    match b, hb with
    | 0, _ | 1, _ | 2, _ | 3, _ => simp
  · have hne : ∀ b, b < 4 → decide (i = 4 * k + b) = false := fun b hb => decide_eq_false (by omega)
    simp only [hne 0 (by decide), hne 1 (by decide), hne 2 (by decide), hne 3 (by decide), Bool.and_false, Bool.xor_false]
    by_cases hle : 4 * k ≤ i
    · rw [BitVec.getLsbD_of_ge p _ (by omega), Bool.and_false]
    · rw [decide_eq_false hle, Bool.false_and]

/-- Under a committed configuration the columns give the syndrome of a pattern (40_syndrome.md R133). -/
theorem Code.syn_patternAt {c : Code} (h : c.commitOk = true) {k : Nat} (hk : k < c.nsym) (p : Pattern) :
    c.syn (patternAt p k) = c.colSum k p := by
  have hbit : ∀ b, b < 4 → c.syn (patternBit p k b) = c.maskedCol k p b := by
    intro b hb
    unfold patternBit Code.maskedCol
    split
    · exact Code.syn_oneBit h (by simp only [Code.nsym] at hk; omega)
    · exact c.syn_zero
  simp only [patternAt_eq_xor, c.syn_xor, Code.colSum, hbit 0 (by decide), hbit 1 (by decide), hbit 2 (by decide),
    hbit 3 (by decide)]

/-- Under a committed configuration a corrected word is a codeword (41_decoder.md R163). -/
theorem Code.syn_decodeWord_of_corrected {c : Code} (h : c.commitOk = true) (hn : c.n % 4 = 0) {v : Codeword}
    (hout : (c.decodeWord v).outcome = .corrected) : c.syn (c.decodeWord v).cw = 0 := by
  rcases c.decode_cases v (c.syn v) with ⟨-, hdec⟩ | ⟨-, t, ht, hdec⟩ | ⟨-, -, hdec⟩
  · simp [Code.decodeWord, hdec] at hout
  · have hsum : c.colSum t.sym t.mask = c.syn v := by simpa using List.find?_some ht
    obtain ⟨hsym, -⟩ := (c.mem_trials hn t).1 (List.mem_of_find?_eq_some ht)
    rw [Code.decodeWord, hdec, c.syn_xor, Code.syn_patternAt h hsym, hsum]
    exact BitVec.xor_self
  · simp [Code.decodeWord, hdec] at hout

/-- What an enumeration answers under a committed configuration: distinct codewords (42_enumerator.md R193). -/
theorem Code.enumerate_distinct_codewords {c : Code} (h : c.commitOk = true) (hn : c.n % 4 = 0) {v : Codeword} {maxc : Nat}
    {list : List Codeword} (henum : c.enumerate v maxc = .candidates list) :
    list.Nodup ∧ ∀ x ∈ list, c.syn x = 0 := by
  obtain ⟨-, hsweep⟩ := c.enumerate_candidates v maxc list henum
  obtain ⟨hnodup, -, hmem⟩ := c.sweep_some maxc _ [] list hsweep List.nodup_nil (Nat.zero_le _)
  refine ⟨hnodup, fun x hx => ?_⟩
  rcases (hmem x).1 hx with hnil | ⟨t, -, htx⟩
  · exact absurd hnil List.not_mem_nil
  · unfold Code.candidateOf at htx
    split_ifs at htx with hout
    injection htx with htx
    rw [← htx]
    exact Code.syn_decodeWord_of_corrected h hn hout

/-! ## The invariant under each operation on the state -/

section Committed

variable {s t : State}

/-- The invariant speaks of CFG_OK, the configuration and the candidates in use. -/
theorem State.CommittedState.of_same (h : s.CommittedState) (hcfg : t.cfgOk = s.cfgOk) (hcode : t.code = s.code)
    (hcand : t.candidates = s.candidates) : t.CommittedState where
  check := by rw [hcfg, hcode]; exact h.check
  codewords := by rw [hcfg, hcode, hcand]; exact h.codewords
  distinct := by rw [hcfg, hcand]; exact h.distinct

/-- The invariant says nothing while CFG_OK = 0. -/
theorem State.committedState_of_cfgOk_false (hcfg : t.cfgOk = false) : t.CommittedState := by
  constructor <;> simp [hcfg]

/-- With no candidate in use the check is all the invariant says. -/
theorem State.committedState_of_check (hcheck : t.cfgOk = true → t.code.commitOk = true) (hcand : t.candidates = []) :
    t.CommittedState where
  check := hcheck
  codewords _ x hx := by simp [hcand] at hx
  distinct _ := by simp [hcand]

theorem State.CommittedState.complete (h : s.CommittedState) (op : BitVec 4) (code : ResultCode) :
    (s.complete op code).CommittedState := h.of_same rfl rfl rfl

/-- Group Z after a decode (30_encoding.md R108). -/
theorem State.CommittedState.decodeAndClear (h : s.CommittedState) (dec : DecodeResult) :
    (s.writeDecode dec).clearCandidates.CommittedState := State.committedState_of_check h.check rfl

/-- What ENUM and RUN store when MAXC is within the buffer (42_enumerator.md R181, R185). -/
theorem State.CommittedState.storeEnumerated (h : s.CommittedState) (hwidths : s.Widths) {maxc : Nat} {list : List Codeword}
    (hmaxc : s.maxcTooLarge maxc = false) (henum : s.code.enumerate s.cw maxc = .candidates list) :
    ((s.writeDecode (s.code.decodeWord s.cw)).storeCandidates list).CommittedState := by
  obtain ⟨hn, -, hcap⟩ := Build.limits hwidths.build
  obtain ⟨-, hlen, -⟩ := s.code.enumerate_list_legal hn hwidths.cwFits henum
  have hle : maxc ≤ s.build.candCap := by simpa [State.maxcTooLarge] using hmaxc
  have hcand := (s.writeDecode (s.code.decodeWord s.cw)).storeCandidates_candidates list (by omega)
  constructor
  · exact h.check
  · intro hcfg
    rw [hcand]
    exact (Code.enumerate_distinct_codewords (h.check hcfg) hn henum).2
  · intro hcfg
    rw [hcand]
    exact (Code.enumerate_distinct_codewords (h.check hcfg) hn henum).1

/-! ## The invariant under the commands -/

theorem execSyn_keeps_committed (h : s.CommittedState) : ∃ t, execSyn s = .next t ∧ t.CommittedState := by
  rcases execSyn_cases s with ⟨-, hexec⟩ | ⟨-, hexec⟩
  · exact ⟨_, hexec, h.complete _ _⟩
  · exact ⟨_, hexec, h.of_same rfl rfl rfl⟩

theorem execDecode_keeps_committed (h : s.CommittedState) : ∃ t, execDecode s = .next t ∧ t.CommittedState := by
  rcases execDecode_cases s with ⟨-, hexec⟩ | ⟨-, hexec⟩
  · exact ⟨_, hexec, h.complete _ _⟩
  · exact ⟨_, hexec, h.of_same rfl rfl rfl⟩

theorem execEnum_keeps_committed (h : s.CommittedState) (hwidths : s.Widths) (maxc : Nat) :
    ∃ t, execEnum maxc s = .next t ∧ t.CommittedState := by
  rcases execEnum_cases maxc s with ⟨-, hexec⟩ | ⟨-, -, hexec⟩ | ⟨-, -, -, hexec⟩ | ⟨-, -, -, -, hexec⟩ |
    ⟨-, -, -, -, hexec⟩ | ⟨-, hmaxc, -, list, henum, hexec⟩
  · exact ⟨_, hexec, h.complete _ _⟩
  · exact ⟨_, hexec, h.complete _ _⟩
  · exact ⟨_, hexec, (h.decodeAndClear _).complete _ _⟩
  · exact ⟨_, hexec, (h.decodeAndClear _).complete _ _⟩
  · exact ⟨_, hexec, (h.decodeAndClear _).complete _ _⟩
  · exact ⟨_, hexec, (h.storeEnumerated hwidths hmaxc henum).complete _ _⟩

theorem execChoose_keeps_committed (h : s.CommittedState) : ∃ t, execChoose s = .next t ∧ t.CommittedState := by
  rcases execChoose_cases s with ⟨-, hexec⟩ | ⟨-, -, hexec⟩ | ⟨-, -, -, hexec⟩ | ⟨-, -, -, hexec⟩
  · exact ⟨_, hexec, h.complete _ _⟩
  · exact ⟨_, hexec, h.complete _ _⟩
  · exact ⟨_, hexec, h.complete _ _⟩
  · exact ⟨_, hexec, h.of_same rfl rfl rfl⟩

theorem execRun_keeps_committed (h : s.CommittedState) (hwidths : s.Widths) (maxc : Nat) :
    ∃ t, execRun maxc s = .next t ∧ t.CommittedState := by
  rcases execRun_cases maxc s with ⟨-, hexec⟩ | ⟨-, -, hexec⟩ | ⟨-, -, -, -, hexec⟩ | ⟨-, -, -, -, -, hexec⟩ |
    ⟨-, -, -, -, -, hexec⟩ | ⟨-, hmaxc, -, -, list, henum, hexec⟩
  · exact ⟨_, hexec, h.complete _ _⟩
  · exact ⟨_, hexec, h.complete _ _⟩
  · exact ⟨_, hexec, (h.decodeAndClear _).complete _ _⟩
  · exact ⟨_, hexec, (h.decodeAndClear _).complete _ _⟩
  · exact ⟨_, hexec, (h.decodeAndClear _).complete _ _⟩
  · exact ⟨_, hexec, (h.storeEnumerated hwidths hmaxc henum).of_same rfl rfl rfl⟩

/-- COMMIT establishes the invariant from any state (44_pipeline_config.md R251, R253). -/
theorem execCommit_gives_committed (s : State) : ∃ t, execCommit s = .next t ∧ t.CommittedState := by
  rcases execCommit_cases s with ⟨hcheck, hexec⟩ | ⟨-, hexec⟩
  · exact ⟨_, hexec, State.committedState_of_check (fun _ => hcheck) rfl⟩
  · exact ⟨_, hexec, State.committedState_of_cfgOk_false rfl⟩

theorem exec_keeps_committed (h : s.CommittedState) (hwidths : s.Widths) (i : Instr) :
    ∃ t, exec i s = .next t ∧ t.CommittedState := by
  cases i with
  | syn => exact execSyn_keeps_committed h
  | decode => exact execDecode_keeps_committed h
  | enum maxc => exact execEnum_keeps_committed h hwidths maxc
  | choose => exact execChoose_keeps_committed h
  | run maxc => exact execRun_keeps_committed h hwidths maxc
  | commit => exact execCommit_gives_committed s

/-! ## The invariant under the bus -/

theorem State.CommittedState.writeReg (h : s.CommittedState) (v : Word) (r : Reg) : (s.writeReg v r).CommittedState := by
  cases r
  case cfg => exact State.committedState_of_cfgOk_false rfl
  case status =>
    rcases s.writeStatus_cases v with ⟨-, hw⟩ | ⟨-, hw⟩ <;> rw [State.writeReg, hw]
    · exact h.of_same rfl rfl rfl
    · exact h
  case siData l =>
    rcases s.writeSiData_cases l v with ⟨-, hw⟩ | ⟨-, hw⟩ <;> rw [State.writeReg, hw]
    · exact h.of_same rfl rfl rfl
    · exact h
  case col j =>
    rcases s.writeCol_cases j v with ⟨-, hw⟩ | ⟨-, hw⟩ <;> rw [State.writeReg, hw] <;>
      exact State.committedState_of_cfgOk_false rfl
  case row i l =>
    rcases s.writeRow_cases i l v with ⟨-, hw⟩ | ⟨-, hw⟩ <;> rw [State.writeReg, hw] <;>
      exact State.committedState_of_cfgOk_false rfl
  all_goals exact h.of_same rfl rfl rfl

theorem State.CommittedState.writeWindow (h : s.CommittedState) (off : Nat) (v : Word) :
    (s.writeWindow off v).CommittedState := by
  rcases s.writeWindow_cases off v with ⟨-, hwrite⟩ | ⟨-, -, hwrite⟩ | ⟨-, -, hwrite⟩ <;> rw [hwrite]
  · exact h.writeReg v .status
  · exact h.of_same rfl rfl rfl
  · exact h.writeReg v _

theorem State.CommittedState.access (h : s.CommittedState) (off : Nat) (a : Access) : (s.access off a).CommittedState := by
  rcases s.access_cases off a with ⟨-, hacc⟩ | ⟨-, -, hacc⟩ | ⟨-, -, -, hacc⟩ | ⟨-, -, v, -, hacc⟩ <;> rw [hacc]
  · exact h.of_same rfl rfl rfl
  · exact h.of_same rfl rfl rfl
  · exact h.of_same rfl rfl rfl
  · exact (h.writeWindow off v).of_same rfl rfl rfl

theorem State.CommittedState.pollOnce (h : s.CommittedState) : s.pollOnce.CommittedState := by
  rcases s.pollOnce_cases with ⟨-, hpoll⟩ | ⟨-, -, hpoll⟩ | ⟨-, -, hpoll⟩ <;> rw [hpoll] <;> exact h.of_same rfl rfl rfl

theorem State.CommittedState.releaseReset (h : s.CommittedState) : s.releaseReset.CommittedState := by
  unfold State.releaseReset
  split
  · exact State.committedState_of_cfgOk_false rfl
  · exact h

theorem deliver_keeps_committed {e : BusEvent} (h : s.CommittedState) (hdel : deliver e s = .next t) : t.CommittedState := by
  rcases deliver_cases hdel with ⟨a, -, -, rfl⟩ | ⟨-, rfl⟩ | ⟨-, rfl⟩ | ⟨-, rfl⟩
  · exact h.access _ a
  · exact h.pollOnce
  · exact h.of_same rfl rfl rfl
  · exact h.releaseReset

end Committed

/-- Settles O58: the invariant is kept by every command, by every write that leaves CFG_OK set, and by reset. -/
theorem everyStepKeepsTheCommittedConfiguration : Obligations.EveryStepKeepsTheCommittedConfiguration := by
  intro s t hwidths h hstep
  rcases step_cases hstep with ⟨-, w, -, ⟨i, -, hexec⟩ | ⟨e, -, rfl⟩⟩ | ⟨-, -, rfl⟩ | ⟨-, e, rest, -, hdel⟩
  · obtain ⟨u, hu, hcommitted⟩ := exec_keeps_committed h hwidths i
    obtain rfl := Host.Outcome.next.inj (hexec.symm.trans hu)
    exact hcommitted
  · exact h.complete _ _
  · exact h
  · exact deliver_keeps_committed (h.of_same rfl rfl rfl : (s.takeEvent rest).CommittedState) hdel

end Sys2Proof.Machine
end

section
/-! SUPPORT. The family 10_state.md: the register map and what a host reads (spec/10_state.md section 8,
spec/20_memory.md R72, R76). -/

namespace Sys2Proof.Machine

/-! ## The register map -/

/-- The six windows of limbs (10_state.md section 8). -/
theorem regAt_limbs {l : Nat} (h : l < 8) :
    regAt (0x040 + 4 * l) = .cw l ∧ regAt (0x060 + 4 * l) = .corrected l ∧ regAt (0x080 + 4 * l) = .msg l ∧
    regAt (0x0A0 + 4 * l) = .siData l ∧ regAt (0x0C0 + 4 * l) = .candCw l ∧ regAt (0x0E0 + 4 * l) = .candMsg l := by
  have hlimb (base : Nat) : (base + 4 * l - base) / 4 = l := by omega
  simp (disch := omega) only [regAt, if_neg, if_pos, hlimb, and_self]

theorem regAt_col {j : Nat} (hj : j < 256) : regAt (0x100 + 4 * j) = .col j := by
  have hslot : (0x100 + 4 * j - 0x100) / 4 = j := by omega
  simp (disch := omega) only [regAt, if_neg, if_pos, hslot]

theorem regAt_row {i l : Nat} (hi : i < 32) (hl : l < 8) : regAt (0x500 + 32 * i + 4 * l) = .row i l := by
  have hrow : (0x500 + 32 * i + 4 * l - 0x500) / 32 = i := by omega
  have hlimb : (0x500 + 32 * i + 4 * l - 0x500) % 32 / 4 = l := by omega
  simp (disch := omega) only [regAt, if_neg, if_pos, hrow, hlimb]

theorem regAt_reserved {off : Nat} (h : 0x038 ≤ off ∧ off < 0x040 ∨ 0x900 ≤ off) : regAt off = .reserved := by
  rcases h with ⟨hlow, hhigh⟩ | hhigh
  · simp (disch := omega) only [regAt, if_neg, if_pos]
  · simp (disch := omega) only [regAt, if_neg]

/-- The registers whose writes clear CFG_OK (10_state.md R37). -/
def Reg.isConfig : Reg → Bool
  | .cfg | .col _ | .row _ _ => true
  | _ => false

/-- Where the configuration registers stand (10_state.md R37). -/
theorem isConfig_regAt_of_mem {off : Nat} (h : off = 0x010 ∨ 0x100 ≤ off ∧ off < 0x900) (haligned : off % 4 = 0) :
    (regAt off).isConfig = true := by
  rcases h with rfl | ⟨hlow, hhigh⟩
  · rfl
  · rcases Nat.lt_or_ge off 0x500 with hcol | hrow
    · obtain ⟨j, hj, rfl⟩ : ∃ j, j < 256 ∧ off = 0x100 + 4 * j := ⟨(off - 0x100) / 4, by omega, by omega⟩
      rw [regAt_col hj]
      rfl
    · obtain ⟨i, l, hi, hl, rfl⟩ : ∃ i l, i < 32 ∧ l < 8 ∧ off = 0x500 + 32 * i + 4 * l :=
        ⟨(off - 0x500) / 32, (off - 0x500) % 32 / 4, by omega, by omega, by omega⟩
      rw [regAt_row hi hl]
      rfl

/-- A choice between two registers, neither of which is of the configuration, is not of the configuration. -/
theorem isConfig_ite {p : Prop} [Decidable p] {a b : Reg} (ha : a.isConfig = false) (hb : b.isConfig = false) :
    (if p then a else b).isConfig = false := by
  split
  · exact ha
  · exact hb

theorem isConfig_regAt_of_not_mem {off : Nat} (h : ¬ (off = 0x010 ∨ 0x100 ≤ off ∧ off < 0x900)) :
    (regAt off).isConfig = false := by
  rcases Nat.lt_or_ge off 0x100 with hlow | hhigh
  · have hcfg : off ≠ 0x010 := fun heq => h (.inl heq)
    rw [regAt, if_neg hcfg, if_pos hlow]
    repeat' apply isConfig_ite
    all_goals rfl
  · rw [regAt_reserved (.inr (by omega))]
    rfl

/-! ## What a host reads, bit by bit -/

/-- A limb read: the bits of the value below the register's width (20_memory.md R72, R76). -/
theorem getLsbD_readLimb (width l : Nat) (v : Codeword) {b : Nat} (hb : b < 32) :
    (readLimb width l v).getLsbD b = (decide (32 * l + b < width) && v.getLsbD (32 * l + b)) := by
  rw [readLimb, getLsbD_limb, getLsbD_lowBits, decide_eq_true hb, Bool.true_and]

@[simp] theorem readLimb_zero (width l : Nat) : readLimb width l 0 = 0 := by
  refine BitVec.eq_of_getLsbD_eq fun b hb => ?_
  rw [getLsbD_readLimb width l 0 hb]
  simp

theorem getLsbD_flagBit (i : Nat) (v : Bool) {b : Nat} (hb : b < 32) :
    (flagBit i v).getLsbD b = (decide (b = i) && v) := by
  rw [Bool.eq_iff_iff]
  cases v <;> simp [flagBit, hb]
  omega

/-- A 4-bit field of a word, placed at bit `k`. -/
theorem getLsbD_fieldAt (x : BitVec 4) (k : Nat) {b : Nat} (hb : b < 32) :
    (x.setWidth 32 <<< k).getLsbD b = (decide (k ≤ b ∧ b < k + 4) && x.getLsbD (b - k)) := by
  rcases Nat.lt_or_ge b k with hlow | hk
  · simp [hlow, Nat.not_le.2 hlow]
  · rcases Nat.lt_or_ge b (k + 4) with hin | hhigh
    · simp [hb, hk, hin, Nat.not_lt.2 hk]
    · rw [BitVec.getLsbD_shiftLeft, BitVec.getLsbD_setWidth, BitVec.getLsbD_of_ge x _ (by omega)]
      simp

namespace State

variable (s : State) {l b : Nat}

theorem readWindow_cw (hl : l < 8) : s.readWindow (0x040 + 4 * l) = readLimb s.build.n l s.cw := by
  obtain ⟨hreg, -⟩ := regAt_limbs hl
  rw [readWindow, hreg, readReg]

theorem readWindow_corrected (hl : l < 8) : s.readWindow (0x060 + 4 * l) = readLimb s.build.n l s.corrected := by
  obtain ⟨-, hreg, -⟩ := regAt_limbs hl
  rw [readWindow, hreg, readReg]

theorem readWindow_msg (hl : l < 8) : s.readWindow (0x080 + 4 * l) = readLimb s.build.k l s.msg := by
  obtain ⟨-, -, hreg, -⟩ := regAt_limbs hl
  rw [readWindow, hreg, readReg]

theorem readWindow_siData (hl : l < 8) : s.readWindow (0x0A0 + 4 * l) = readLimb s.build.n l s.siShown := by
  obtain ⟨-, -, -, hreg, -⟩ := regAt_limbs hl
  rw [readWindow, hreg, readReg]

theorem readWindow_candCw (hl : l < 8) : s.readWindow (0x0C0 + 4 * l) = readLimb s.build.n l s.candCwShown := by
  obtain ⟨-, -, -, -, hreg, -⟩ := regAt_limbs hl
  rw [readWindow, hreg, readReg]

theorem readWindow_candMsg (hl : l < 8) : s.readWindow (0x0E0 + 4 * l) = readLimb s.build.k l s.candMsgShown := by
  obtain ⟨-, -, -, -, -, hreg⟩ := regAt_limbs hl
  rw [readWindow, hreg, readReg]

/-- The bits of a COL slot (10_state.md R32; 20_memory.md R76, R77). -/
theorem getLsbD_readWindow_col {j : Nat} (hj : j < 256) (b : Nat) : (s.readWindow (0x100 + 4 * j)).getLsbD b =
    (decide (j < s.build.n) && decide (b < s.build.r) && (s.col.getD j 0).getLsbD b) := by
  rw [readWindow, regAt_col hj, readReg]
  split
  next h => simp only [getLsbD_lowBits, h, decide_true, Bool.true_and]
  next h => simp [h]

/-- The bits of a ROW limb (10_state.md R31; 20_memory.md R76, R77). -/
theorem getLsbD_readWindow_row {i : Nat} (hi : i < 32) (hl : l < 8) (hb : b < 32) :
    (s.readWindow (0x500 + 32 * i + 4 * l)).getLsbD b =
      (decide (i < s.build.r) && decide (32 * l + b < s.build.n) && (s.row.getD i 0).getLsbD (32 * l + b)) := by
  rw [readWindow, regAt_row hi hl, readReg]
  split
  next h => simp only [getLsbD_readLimb _ _ _ hb, h, decide_true, Bool.true_and]
  next h => simp [h]

theorem siShown_of_lt (h : s.siSel.toNat < s.build.siCap) : s.siShown = s.si.getD s.siSel.toNat 0 := if_pos h

theorem siShown_of_ge (h : s.build.siCap ≤ s.siSel.toNat) : s.siShown = 0 := if_neg (Nat.not_lt.2 h)

/-- The bits of a limb of the SI word SI_SEL selects (10_state.md R40). -/
theorem getLsbD_readWindow_siData (hl : l < 8) (hb : b < 32) : (s.readWindow (0x0A0 + 4 * l)).getLsbD b =
    (decide (s.siSel.toNat < s.build.siCap) && decide (32 * l + b < s.build.n) &&
      (s.si.getD s.siSel.toNat 0).getLsbD (32 * l + b)) := by
  rw [s.readWindow_siData hl, getLsbD_readLimb _ _ _ hb]
  rcases Nat.lt_or_ge s.siSel.toNat s.build.siCap with h | h
  · simp only [s.siShown_of_lt h, h, decide_true, Bool.true_and]
  · simp [s.siShown_of_ge h, Nat.not_lt.2 h]

theorem getLsbD_cfgWord (hb : b < 32) :
    s.cfgWord.getLsbD b = if b = 0 then s.layout else if b = 1 then s.distMode else false := by
  rw [cfgWord, BitVec.getLsbD_or, getLsbD_flagBit _ _ hb, getLsbD_flagBit _ _ hb]
  split_ifs with hlayout hdist
  · simp [hlayout]
  · simp [hdist]
  · simp [hlayout, hdist]

theorem getLsbD_statusWord (hb : b < 32) :
    s.statusWord.getLsbD b = (decide (b = 0) && s.busy || decide (b = 1) && s.cfgOk || decide (b = 2) && s.overrun ||
      decide (8 ≤ b ∧ b < 12) && s.lastOp.getLsbD (b - 8) ||
      decide (16 ≤ b ∧ b < 20) && s.result.code.getLsbD (b - 16)) := by
  simp only [statusWord, BitVec.getLsbD_or, getLsbD_flagBit _ _ hb, getLsbD_fieldAt _ _ hb]

theorem candShown_of_lt {s : State} (h : s.candSel.toNat < s.candCount.toNat) : s.candShown = some s.candSel.toNat :=
  if_pos h

theorem candShown_of_ge {s : State} (h : s.candCount.toNat ≤ s.candSel.toNat) : s.candShown = none :=
  if_neg (Nat.not_lt.2 h)

end State

theorem Code.getLsbD_msg (c : Code) (v : Codeword) (i : Nat) :
    (c.msg v).getLsbD i = (decide (i < c.k) && v.getLsbD (c.msgOffset + i)) := by
  unfold Code.msg Code.msgOffset
  cases c.layout <;> simp

/-! ## The statements on reads -/

/-- Settles O10: the field of `Code.msg` in each layout. -/
theorem messageFieldFollowsTheLayout : Obligations.MessageFieldFollowsTheLayout := by
  intro c v i
  rw [c.getLsbD_msg v i, Code.msgOffset, Code.k]
  cases c.layout <;> simp

/-- Settles O47: STATUS as the OR of its fields, no two of which share a bit. -/
theorem statusWordHasItsFields : Obligations.StatusWordHasItsFields := by
  refine ⟨fun s b hb => (s.getLsbD_statusWord hb).trans ?_, rfl, rfl, rfl, rfl, rfl, rfl, rfl, rfl, rfl, rfl, rfl, rfl, rfl,
    rfl, rfl⟩
  split_ifs with hbusy hcfg hoverrun hop hresult
  · simp [hbusy, State.busy]
  · simp [hcfg]
  · simp [hoverrun]
  · simp [hbusy, hcfg, hoverrun, hop, show ¬ 16 ≤ b by omega]
  · simp [hbusy, hcfg, hoverrun, hresult, show ¬ b < 12 by omega]
  · simp [hbusy, hcfg, hoverrun, hop, hresult]

/-- Settles O45: the windows of the entry CAND_SEL names, or of none. -/
theorem candidateWindowsShowTheSelectedEntry : Obligations.CandidateWindowsShowTheSelectedEntry := by
  intro s l b hl hb
  refine ⟨fun h => ?_, fun h => ?_⟩
  · have hshown := State.candShown_of_lt h
    have hcw : s.candCwShown = s.candCw.getD s.candSel.toNat 0 := by rw [State.candCwShown, hshown]
    have hmsg : s.candMsgShown = s.code.msg (s.candCw.getD s.candSel.toNat 0) := by rw [State.candMsgShown, hshown]
    have hscore : s.candScoreShown = s.candScore.getD s.candSel.toNat 0 := by rw [State.candScoreShown, hshown]
    refine ⟨?_, ?_, hscore⟩
    · rw [s.readWindow_candCw hl, getLsbD_readLimb _ _ _ hb, hcw]
    · rw [s.readWindow_candMsg hl, getLsbD_readLimb _ _ _ hb, hmsg, Code.getLsbD_msg]
      exact Bool.and_self_left _ _
  · have hshown := State.candShown_of_ge h
    have hcw : s.candCwShown = 0 := by rw [State.candCwShown, hshown]
    have hmsg : s.candMsgShown = 0 := by rw [State.candMsgShown, hshown]
    have hscore : s.candScoreShown = 0 := by rw [State.candScoreShown, hshown]
    refine ⟨?_, ?_, hscore⟩
    · rw [s.readWindow_candCw hl, hcw, readLimb_zero]
    · rw [s.readWindow_candMsg hl, hmsg, readLimb_zero]

/-- Settles O41: the map offset by offset, and each register's read bit by bit. -/
theorem registerMapFollowsTheTable : Obligations.RegisterMapFollowsTheTable := by
  refine ⟨⟨rfl, rfl, rfl, rfl, rfl, rfl, rfl, rfl, rfl, rfl, rfl, rfl, rfl, rfl, fun l => regAt_limbs, fun j => regAt_col,
    fun i l => regAt_row, fun off => regAt_reserved⟩, fun s => ?_⟩
  have hshort {w : Nat} (x : BitVec w) (hw : w ≤ 32) : (x.setWidth 32).toNat = x.toNat := BitVec.toNat_setWidth_of_le hw
  refine ⟨rfl, rfl, rfl, hshort _ (by decide), hshort _ (by decide), hshort _ (by decide), hshort _ (by decide),
    hshort _ (by decide), fun b hb => ⟨s.getLsbD_cfgWord hb, getLsbD_lowBits _ _ _, fun l hl => ⟨?_, ?_, ?_, ?_⟩,
      fun j hj => s.getLsbD_readWindow_col hj b, fun i l hi hl => s.getLsbD_readWindow_row hi hl hb⟩⟩
  · rw [s.readWindow_cw hl, getLsbD_readLimb _ _ _ hb]
  · rw [s.readWindow_corrected hl, getLsbD_readLimb _ _ _ hb]
  · rw [s.readWindow_msg hl, getLsbD_readLimb _ _ _ hb]
    rfl
  · exact s.getLsbD_readWindow_siData hl hb

end Sys2Proof.Machine
end

section
/-! SUPPORT. The family 10_state.md: what a host write stores, and what it leaves as it was (spec/10_state.md R31 to R43,
spec/20_memory.md R76, R77, R81, R87, R88). -/

namespace Sys2Proof.Machine

/-! ## A delivered write -/

/-- A delivered aligned write out of reset is performed on the window, and the bus takes it (20_memory.md R81, R87). -/
theorem step_of_write {s : State} {off : Nat} {v : Word} {rest : List BusEvent}
    (h : s.deliversNow (.access ⟨s.build.base + off, 32, 0xF, .write v⟩) rest) (hreset : s.inReset = false)
    (hoff : off < 4096) (haligned : off % 4 = 0) :
    step s = .next (((s.takeEvent rest).writeWindow off v).respond .accepted) := by
  have hwindow : (s.takeEvent rest).inWindow (s.build.base + off) = true := by
    simpa [State.inWindow, Config.windowBytes] using hoff
  rw [step_of_event h, deliver, if_pos hwindow, State.takeEvent_build, Nat.add_sub_cancel_left, State.access,
    State.takeEvent_inReset, hreset, if_neg Bool.false_ne_true, if_pos (by simp [Access.wholeWord, haligned])]
  rfl

namespace State

variable (s : State) {off : Nat}

theorem writeWindow_status (v : Word) : s.writeWindow 0x004 v = s.writeStatus v := rfl

theorem writeWindow_of_busy (v : Word) (hbusy : s.busy = true) (hoff : off ≠ 0x004) :
    s.writeWindow off v = s.setOverrun := by
  rw [writeWindow, if_neg hoff, if_pos hbusy]

/-- While idle a write reaches the register at its offset (20_memory.md R81). -/
theorem writeWindow_of_idle (v : Word) (hidle : s.busy = false) : s.writeWindow off v = s.writeReg v (regAt off) := by
  rcases s.writeWindow_cases off v with ⟨rfl, hwrite⟩ | ⟨-, hbusy, -⟩ | ⟨-, -, hwrite⟩
  · exact hwrite
  · simp [hidle] at hbusy
  · exact hwrite

/-- Only a configuration register's write touches CFG_OK, and it clears it (10_state.md R37). -/
theorem writeReg_cfgOk (v : Word) (r : Reg) : (s.writeReg v r).cfgOk = if r.isConfig then false else s.cfgOk := by
  cases r
  case status => rcases s.writeStatus_cases v with ⟨-, hw⟩ | ⟨-, hw⟩ <;> simp [writeReg, hw, Reg.isConfig]
  case siData l => rcases s.writeSiData_cases l v with ⟨-, hw⟩ | ⟨-, hw⟩ <;> simp [writeReg, hw, Reg.isConfig]
  case col j => rcases s.writeCol_cases j v with ⟨-, hw⟩ | ⟨-, hw⟩ <;> simp [writeReg, hw, Reg.isConfig]
  case row i l => rcases s.writeRow_cases i l v with ⟨-, hw⟩ | ⟨-, hw⟩ <;> simp [writeReg, hw, Reg.isConfig]
  all_goals rfl

/-- Acceptance changes what a host reads from CMD and STATUS only (20_memory.md R88, R91). -/
theorem readReg_accept (v : Word) {r : Reg} (hcmd : r ≠ .cmd) (hstatus : r ≠ .status) :
    (s.accept v).readReg r = s.readReg r := by
  cases r
  case cmd => exact absurd rfl hcmd
  case status => exact absurd rfl hstatus
  all_goals rfl

/-- Acceptance sets BUSY and no other bit of STATUS (20_memory.md R88, R91). -/
theorem statusWord_accept (v : Word) : (s.accept v).statusWord = s.statusWord ||| 1 := by
  refine BitVec.eq_of_getLsbD_eq fun b hb => ?_
  have hone : (1 : Word).getLsbD b = decide (b = 0) := (getLsbD_flagBit 0 true hb).trans (Bool.and_true _)
  rw [BitVec.getLsbD_or, hone, getLsbD_statusWord _ hb, getLsbD_statusWord _ hb]
  by_cases hzero : b = 0
  · simp [hzero]
  · simp [hzero]

end State

/-- Settles O37: the discarded write and the STATUS write, as `writeWindow` performs them. -/
theorem overrunIsSetAndCleared : Obligations.OverrunIsSetAndCleared := by
  intro s off v rest h hreset hoff haligned
  refine ⟨fun hbusy hne => ?_, fun heq => ?_⟩
  · rw [step_of_write h hreset hoff haligned, (s.takeEvent rest).writeWindow_of_busy v hbusy hne]
    rfl
  · subst heq
    rw [step_of_write h hreset hoff haligned, State.writeWindow_status]
    rcases (s.takeEvent rest).writeStatus_cases v with ⟨hbit, hwrite⟩ | ⟨hbit, hwrite⟩ <;> rw [hwrite, hbit]
    · simp [State.clearOverrun, State.respond, State.takeEvent]
    · simp [State.respond, State.takeEvent]

/-- Settles O38: the delivered write of `step_of_write`, and acceptance for CMD. -/
theorem idleCommandWriteIsAccepted : Obligations.IdleCommandWriteIsAccepted := by
  intro s off v rest h hreset hidle hoff haligned
  have hstep := step_of_write h hreset hoff haligned
  refine ⟨hstep, fun heq => ?_⟩
  subst heq
  rw [(s.takeEvent rest).writeWindow_of_idle v hidle] at hstep
  refine ⟨_, hstep, rfl, rfl, fun r hcmd hstatus => ?_, rfl, ?_⟩
  · exact (s.takeEvent rest).readReg_accept v (regAt_ne_cmd hcmd) (regAt_ne_status hstatus)
  · exact (s.takeEvent rest).statusWord_accept v

/-- Settles O40: which registers' writes clear CFG_OK, and where they stand. -/
theorem configurationWritesClearCfgOk : Obligations.ConfigurationWritesClearCfgOk := by
  intro s off v hoff haligned
  refine ⟨fun hbusy => ?_, fun hidle hmem => ?_, fun hidle hmem => ?_⟩
  · by_cases hstatus : off = 0x004
    · rw [hstatus]
      exact s.writeReg_cfgOk v .status
    · rw [s.writeWindow_of_busy v hbusy hstatus]
      rfl
  · rw [s.writeWindow_of_idle v hidle, s.writeReg_cfgOk, isConfig_regAt_of_mem hmem haligned, if_pos rfl]
  · rw [s.writeWindow_of_idle v hidle, s.writeReg_cfgOk, isConfig_regAt_of_not_mem hmem, if_neg Bool.false_ne_true]

/-! ## What a write stores -/

/-- Masking a word to its low `w` bits. -/
theorem setWidth_setWidth_eq_lowBits (v : Word) (w : Nat) : (v.setWidth w).setWidth 32 = lowBits w v := by
  refine BitVec.eq_of_getLsbD_eq fun b hb => ?_
  rw [BitVec.getLsbD_setWidth, BitVec.getLsbD_setWidth, getLsbD_lowBits, decide_eq_true hb, Bool.true_and]

/-- Settles O60: each control register takes the low bits of the word and reads them back. -/
theorem controlRegistersReadBackMasked : Obligations.ControlRegistersReadBackMasked := by
  intro s v hidle
  simp only [s.writeWindow_of_idle v hidle]
  have hbyte : v.extractLsb' 0 8 = v.setWidth 8 := (BitVec.setWidth_eq_extractLsb' (by decide)).symm
  have hhalf : v.extractLsb' 0 16 = v.setWidth 16 := (BitVec.setWidth_eq_extractLsb' (by decide)).symm
  rw [hbyte, hhalf]
  refine ⟨⟨rfl, ?_⟩, ⟨rfl, setWidth_setWidth_eq_lowBits v 8⟩, ⟨rfl, setWidth_setWidth_eq_lowBits v 8⟩,
    ⟨rfl, setWidth_setWidth_eq_lowBits v 16⟩⟩
  refine BitVec.eq_of_getLsbD_eq fun b hb => ?_
  rw [show v &&& 0x3 = lowBits 2 v from rfl, getLsbD_lowBits]
  refine (State.getLsbD_cfgWord _ hb).trans ?_
  split_ifs with hlayout hdist
  · rw [hlayout]
    rfl
  · rw [hdist]
    rfl
  · simp [show ¬ b < 2 by omega]

/-- A limb written and a limb read of one value: the written limb is masked to the width, the others are as before
(20_memory.md R76). -/
theorem getLsbD_readLimb_setLimb (width : Nat) (v : Codeword) (w : Word) {l l' b : Nat} (hl' : l' < 8) (hb : b < 32) :
    (readLimb width l' (setLimb width l w v)).getLsbD b =
      if l' = l then decide (32 * l + b < width) && w.getLsbD b else (readLimb width l' v).getLsbD b := by
  rw [getLsbD_readLimb _ _ _ hb, getLsbD_setLimb _ _ _ _ _ (by omega)]
  split_ifs with hin heq heq
  · rw [heq, Nat.add_sub_cancel_left, Bool.and_self_left]
  · omega
  · omega
  · rw [getLsbD_readLimb _ _ _ hb]

theorem getD_set {α : Type} (list : List α) {i : Nat} (hi : i < list.length) (x d : α) (j : Nat) :
    (list.set i x).getD j d = if j = i then x else list.getD j d := by
  rw [List.getD_eq_getElem?_getD, List.getElem?_set, List.getD_eq_getElem?_getD]
  split_ifs with hij hji hji
  · rfl
  · omega
  · omega
  · rfl

/-- Settles O42: `writeCw` and the limbs of CW. -/
theorem cwLimbsReadBackMasked : Obligations.CwLimbsReadBackMasked := by
  intro s l l' b v hidle hl hl' hb
  obtain ⟨hreg, -⟩ := regAt_limbs hl
  have hwrite : s.writeWindow (0x040 + 4 * l) v = s.writeCw l v := by rw [s.writeWindow_of_idle v hidle, hreg]; rfl
  rw [hwrite]
  refine ⟨rfl, ?_⟩
  rw [State.readWindow_cw _ hl', State.readWindow_cw _ hl']
  exact getLsbD_readLimb_setLimb _ _ _ hl' hb

/-- Settles O43: a stored slot or limb, or a slot the build does not have. -/
theorem tablesReadBackMasked : Obligations.TablesReadBackMasked := by
  intro s v b hwidths hidle hb
  refine ⟨fun j j' hj hj' => ?_, fun i l i' l' hi hl hi' hl' => ?_⟩
  · have hwrite : s.writeWindow (0x100 + 4 * j) v = s.writeCol j v := by
      rw [s.writeWindow_of_idle v hidle, regAt_col hj]
      rfl
    rw [hwrite, State.getLsbD_readWindow_col _ hj', s.getLsbD_readWindow_col hj']
    rcases s.writeCol_cases j v with ⟨hpresent, hcol⟩ | ⟨habsent, hcol⟩ <;> rw [hcol]
    · refine ⟨rfl, ?_⟩
      rw [State.storeCol_col, State.storeCol_build, getD_set _ (hwidths.colSize.symm ▸ hpresent)]
      split
      next heq =>
        rw [heq, getLsbD_lowBits, Bool.and_assoc, Bool.and_self_left, Bool.and_assoc]
      next => rfl
    · refine ⟨rfl, ?_⟩
      split
      next heq => simp [heq, Nat.not_lt.2 habsent]
      next => rfl
  · have hwrite : s.writeWindow (0x500 + 32 * i + 4 * l) v = s.writeRow i l v := by
      rw [s.writeWindow_of_idle v hidle, regAt_row hi hl]
      rfl
    rw [hwrite, State.getLsbD_readWindow_row _ hi' hl' hb, s.getLsbD_readWindow_row hi' hl' hb]
    rcases s.writeRow_cases i l v with ⟨hpresent, hrow⟩ | ⟨habsent, hrow⟩ <;> rw [hrow]
    · refine ⟨rfl, ?_⟩
      rw [State.storeRow_row, State.storeRow_build, getD_set _ (hwidths.rowSize.symm ▸ hpresent)]
      by_cases heq : i' = i
      · rw [heq, if_pos rfl, Bool.and_assoc, ← getLsbD_readLimb _ _ _ hb, getLsbD_readLimb_setLimb _ _ _ hl' hb,
          getLsbD_readLimb _ _ _ hb]
        by_cases hlimb : l' = l
        · simp [hlimb, Bool.and_assoc]
        · simp [hlimb, Bool.and_assoc]
      · rw [if_neg heq, if_neg fun h => heq h.1]
    · refine ⟨rfl, ?_⟩
      split
      next h => simp [h.1, Nat.not_lt.2 habsent]
      next => rfl

/-- Settles O44: the limb of the selected word, or no word at all. -/
theorem siDataReachesTheSelectedWord : Obligations.SiDataReachesTheSelectedWord := by
  intro s l l' b v hwidths hidle hl hl' hb
  obtain ⟨-, -, -, hreg, -⟩ := regAt_limbs hl
  have hwrite : s.writeWindow (0x0A0 + 4 * l) v = s.writeSiData l v := by
    rw [s.writeWindow_of_idle v hidle, hreg]
    rfl
  rw [hwrite]
  rcases s.writeSiData_cases l v with ⟨hsel, hsi⟩ | ⟨hsel, hsi⟩ <;> rw [hsi]
  · refine ⟨fun _ => ⟨rfl, ?_, fun m hm => ?_⟩, fun hge => absurd hsel (Nat.not_lt.2 hge)⟩
    · have hshown : (s.storeSi s.siSel.toNat l v).siShown = setLimb s.build.n l v s.siShown := by
        rw [s.siShown_of_lt hsel, (s.storeSi s.siSel.toNat l v).siShown_of_lt hsel, State.storeSi_si, State.storeSi_siSel,
          getD_set _ (hwidths.siSize.symm ▸ hsel), if_pos rfl]
      rw [State.readWindow_siData _ hl', s.readWindow_siData hl', hshown]
      exact getLsbD_readLimb_setLimb _ _ _ hl' hb
    · rw [State.storeSi_si, getD_set _ (hwidths.siSize.symm ▸ hsel), if_neg hm]
  · refine ⟨fun hlt => absurd hlt (Nat.not_lt.2 hsel), fun _ => ⟨rfl, ?_⟩⟩
    rw [s.readWindow_siData hl, s.siShown_of_ge hsel, readLimb_zero]

end Sys2Proof.Machine
end

section
/-! SUPPORT. The family 20_memory.md: who moves next and what a step answers (spec/20_memory.md R71, R84, R89, R90): the completion of
the pending word, and the one access that stops the machine. -/

namespace Sys2Proof.Machine

/-! ## The engine's turn -/

/-- A command word is completed as the command it decodes to, or as an illegal word (30_encoding.md R105). -/
theorem completeWord_cases (w : Word) (s : State) :
    (∃ i, decodeCmd w = .ok i ∧ completeWord w s = exec i s) ∨
    (∃ e, decodeCmd w = .error e ∧ completeWord w s = .next (s.complete (cmdOp w) .eIllegalOp)) := by
  unfold completeWord
  cases decodeCmd w with
  | ok i => exact .inl ⟨i, rfl, rfl⟩
  | error e => exact .inr ⟨e, rfl, rfl⟩

/-- Every word's completion ends the command (20_memory.md R89). -/
theorem completeWord_ends (w : Word) (s : State) : ∃ t, completeWord w s = .next t ∧ t.busy = false := by
  rcases completeWord_cases w s with ⟨i, -, hcomplete⟩ | ⟨e, -, hcomplete⟩
  · obtain ⟨writes, code, -, -, hexec⟩ := exec_writes i s
    exact ⟨_, hcomplete.trans hexec, rfl⟩
  · exact ⟨_, hcomplete, rfl⟩

/-- A step of the engine completes the pending word (20_memory.md R89). -/
theorem step_of_completesNow {s : State} {w : Word} (h : s.completesNow w) : step s = completeWord w s := by
  obtain ⟨hpending, hreset, hwait⟩ := h
  have hbusy : s.busy = true := by simp [State.busy, hpending]
  rw [step, if_pos (s.engineTurn_iff.2 ⟨hbusy, hreset, hwait⟩), completePending, hpending]

theorem State.completesNow_of_engineTurn {s : State} (h : s.engineTurn = true) : ∃ w, s.completesNow w := by
  obtain ⟨hbusy, hreset, hwait⟩ := s.engineTurn_iff.1 h
  obtain ⟨w, hpending⟩ := Option.isSome_iff_exists.1 hbusy
  exact ⟨w, hpending, hreset, hwait⟩

/-- A step of the engine answers a next state, in which no command is pending (20_memory.md R89). -/
theorem step_of_engineTurn {s : State} (h : s.engineTurn = true) : ∃ t, step s = .next t ∧ t.busy = false := by
  obtain ⟨w, hnow⟩ := State.completesNow_of_engineTurn h
  rw [step_of_completesNow hnow]
  exact completeWord_ends w s

theorem State.withPending_completesNow (s : State) (w : Word) : (s.withPending w).completesNow w := ⟨rfl, rfl, .inl rfl⟩

/-- The 32 bits of a word are the word (log 7). -/
theorem State.withFetchWord_toNat (s : State) (w : Word) : s.withFetchWord 32 w.toNat = s.withPending w := by
  rw [State.withFetchWord, Nat.mod_eq_of_lt w.isLt, BitVec.ofNat_toNat, BitVec.setWidth_eq]

theorem decodeCmd_encode (i : Instr) : i.wellFormed = true → decodeCmd (encode i) = .ok i := by
  cases i with
  | syn => exact Laws.RoundTrip.syn
  | decode => exact Laws.RoundTrip.decode
  | enum maxc => exact Laws.RoundTrip.enum maxc
  | choose => exact Laws.RoundTrip.choose
  | run maxc => exact Laws.RoundTrip.run maxc
  | commit => exact Laws.RoundTrip.commit

/-- Settles O5: the completion of the pending word, whose decoding is given or is that of an encoded command. -/
theorem engineTurnRunsTheDecodedCommand : Obligations.EngineTurnRunsTheDecodedCommand := by
  have hrun (s : State) (w : Word) (i : Instr) (hnow : s.completesNow w) (hdecode : decodeCmd w = .ok i) :
      step s = exec i s := by
    rw [step_of_completesNow hnow, completeWord, hdecode]
  refine ⟨hrun, fun s i hi => ?_⟩
  rw [s.withFetchWord_toNat]
  exact hrun _ _ i (s.withPending_completesNow _) (decodeCmd_encode i hi)

/-! ## The bus's turn -/

/-- The addresses of the window (20_memory.md R71). -/
theorem State.inWindow_iff (s : State) (addr : Nat) :
    s.inWindow addr = true ↔ s.build.base ≤ addr ∧ addr < s.build.base + 4096 := by
  rw [State.inWindow, Bool.and_eq_true, decide_eq_true_eq, decide_eq_true_eq, Config.windowBytes]

/-- An event is delivered, unless it is an access outside the window (20_memory.md R71; log 10). -/
theorem deliver_outcome (e : BusEvent) (s : State) :
    (∃ t, deliver e s = .next t) ∨
    (∃ a, e = .access a ∧ s.inWindow a.addr = false ∧ deliver e s = .fault (.outsideWindow a.addr)) := by
  cases e with
  | access a =>
    by_cases hwindow : s.inWindow a.addr = true
    · exact .inl ⟨_, if_pos hwindow⟩
    · exact .inr ⟨a, rfl, Bool.eq_false_iff.2 hwindow, if_neg hwindow⟩
  | poll | resetAssert | resetRelease => exact .inl ⟨_, rfl⟩

/-- A step answers a next state, unless the bus moves next with an access outside the window (20_memory.md R71; log 10). -/
theorem step_outcome (s : State) :
    (∃ t, step s = .next t) ∨
    (∃ a rest, s.deliversNow (.access a) rest ∧ s.inWindow a.addr = false ∧
      step s = .fault (.outsideWindow a.addr)) := by
  cases hturn : s.engineTurn
  · cases hinbox : s.inbox with
    | nil => exact .inl ⟨s, by simp [step, hturn, hostTurn, hinbox]⟩
    | cons e rest =>
      rw [step_of_event ⟨hturn, hinbox⟩]
      rcases deliver_outcome e (s.takeEvent rest) with hnext | ⟨a, rfl, hwindow, hfault⟩
      · exact .inl hnext
      · exact .inr ⟨a, rest, ⟨hturn, hinbox⟩, hwindow, hfault⟩
  · obtain ⟨t, hstep, -⟩ := step_of_engineTurn hturn
    exact .inl ⟨t, hstep⟩

theorem step_next_of_safeInbox {s : State} (h : s.SafeInbox) : ∃ t, step s = .next t := by
  rcases step_outcome s with hnext | ⟨a, rest, ⟨-, hinbox⟩, hwindow, -⟩
  · exact hnext
  · have hsafe := h a (by simp [hinbox])
    simp [hwindow] at hsafe

/-! ## The waiting events -/

theorem State.writeWindow_inbox (s : State) (off : Nat) (v : Word) : (s.writeWindow off v).inbox = s.inbox := by
  have hreg (r : Reg) : (s.writeReg v r).inbox = s.inbox := by
    obtain ⟨-, -, -, -, -, -, -, -, -, -, -, -, -, hinbox, -⟩ := s.writeReg_frame v r
    exact hinbox
  rcases s.writeWindow_cases off v with ⟨-, hwrite⟩ | ⟨-, -, hwrite⟩ | ⟨-, -, hwrite⟩ <;> rw [hwrite]
  · exact hreg .status
  · rfl
  · exact hreg _

theorem State.access_inbox (s : State) (off : Nat) (a : Access) : (s.access off a).inbox = s.inbox := by
  rcases s.access_cases off a with ⟨-, hacc⟩ | ⟨-, -, hacc⟩ | ⟨-, -, -, hacc⟩ | ⟨-, -, v, -, hacc⟩ <;> rw [hacc]
  · rfl
  · rfl
  · rfl
  · exact s.writeWindow_inbox off v

/-- A delivered event may stay first in line, and no other event joins it (30_encoding.md R111; log 8, log 13). -/
theorem deliver_inbox_subset {e : BusEvent} {s t : State} (hdel : deliver e s = .next t) : t.inbox ⊆ e :: s.inbox := by
  rcases deliver_cases hdel with ⟨a, -, -, rfl⟩ | ⟨rfl, rfl⟩ | ⟨-, rfl⟩ | ⟨-, rfl⟩
  · rw [s.access_inbox]
    exact List.subset_cons_self _ _
  · rcases s.pollOnce_cases with ⟨-, hpoll⟩ | ⟨-, -, hpoll⟩ | ⟨-, -, hpoll⟩ <;> rw [hpoll]
    · exact List.subset_cons_self _ _
    · exact List.Subset.refl _
    · exact List.subset_cons_self _ _
  · exact List.subset_cons_self _ _
  · unfold State.releaseReset
    split <;> exact List.subset_cons_self _ _

/-- No step puts a new event in the inbox (log 8). -/
theorem step_inbox_subset {s t : State} (hstep : step s = .next t) : t.inbox ⊆ s.inbox := by
  rcases step_cases hstep with ⟨-, w, -, ⟨i, -, hexec⟩ | ⟨e, -, rfl⟩⟩ | ⟨-, -, rfl⟩ | ⟨-, e, rest, hinbox, hdel⟩
  · obtain ⟨writes, code, -, -, hwrites⟩ := exec_writes i s
    obtain rfl := Host.Outcome.next.inj (hwrites.symm.trans hexec)
    exact List.Subset.refl _
  · exact List.Subset.refl _
  · exact List.Subset.refl _
  · rw [hinbox]
    exact deliver_inbox_subset hdel

theorem step_keeps_safeInbox {s t : State} (h : s.SafeInbox) (hstep : step s = .next t) : t.SafeInbox := by
  intro a ha
  have hwindow := h a (step_inbox_subset hstep ha)
  rwa [State.inWindow_iff, step_keeps_build hstep, ← State.inWindow_iff]

/-- Settles O52: the two outcomes of a step, and an inbox no event joins. -/
theorem onlyAccessesOutsideTheWindowFault : Obligations.OnlyAccessesOutsideTheWindowFault := by
  refine ⟨fun s r hrefused => ?_, fun s f => ⟨fun hfault => ?_, ?_⟩, fun s hsafe => ?_⟩
  · rcases step_outcome s with ⟨t, hstep⟩ | ⟨a, rest, -, -, hstep⟩ <;> simp [hstep] at hrefused
  · rcases step_outcome s with ⟨t, hstep⟩ | ⟨a, rest, ⟨hturn, hinbox⟩, hwindow, hstep⟩
    · simp [hstep] at hfault
    · refine ⟨hturn, a, rest, hinbox, ?_, Host.Outcome.fault.inj (hfault.symm.trans hstep)⟩
      rw [← s.inWindow_iff, hwindow]
      exact Bool.false_ne_true
  · rintro ⟨hturn, a, rest, hinbox, hout, rfl⟩
    rw [step_of_event ⟨hturn, hinbox⟩, deliver, if_neg fun hwindow => hout (((s.takeEvent rest).inWindow_iff _).1 hwindow)]
  · obtain ⟨t, hstep⟩ := step_next_of_safeInbox hsafe
    exact ⟨t, hstep, step_keeps_safeInbox hsafe hstep⟩

end Sys2Proof.Machine
end

section
/-! SUPPORT. The family 20_memory.md: a pending command waits with its registers frozen, and completes (spec/20_memory.md R86, R87,
R90). -/

namespace Sys2Proof.Machine

/-! ## States that differ in OVERRUN and the bus alone -/

/-- `t` is `s` but for OVERRUN and for the fields of the bus and of the wait (20_memory.md R87; log 5, log 8, log 16). -/
def State.Frozen (s t : State) : Prop :=
  t = { s with overrun := t.overrun, inbox := t.inbox, response := t.response, delay := t.delay }

namespace State.Frozen

variable {s t u : State}

theorem refl (s : State) : s.Frozen s := rfl

theorem trans (hst : s.Frozen t) (htu : t.Frozen u) : s.Frozen u := by
  refine Eq.trans htu ?_
  rw [hst]

theorem build (h : s.Frozen t) : t.build = s.build := by rw [h]
theorem busy (h : s.Frozen t) : t.busy = s.busy := by rw [h]; rfl
theorem inReset (h : s.Frozen t) : t.inReset = s.inReset := by rw [h]

end State.Frozen

/-! ## The bus while a command is pending -/

section Pending

variable {s : State}

/-- A write while a command is pending reaches OVERRUN at most (20_memory.md R87). -/
theorem State.writeWindow_frozen (hbusy : s.busy = true) (off : Nat) (v : Word) :
    s.Frozen (s.writeWindow off v) ∧ (s.writeWindow off v).delay = s.delay := by
  rcases s.writeWindow_cases off v with ⟨-, hwrite⟩ | ⟨-, -, hwrite⟩ | ⟨-, hidle, -⟩
  · rw [hwrite]
    rcases s.writeStatus_cases v with ⟨-, hstatus⟩ | ⟨-, hstatus⟩ <;> rw [hstatus] <;> exact ⟨rfl, rfl⟩
  · rw [hwrite]
    exact ⟨rfl, rfl⟩
  · simp [hbusy] at hidle

theorem State.access_frozen (hbusy : s.busy = true) (off : Nat) (a : Access) :
    s.Frozen (s.access off a) ∧ (s.access off a).delay = s.delay := by
  rcases s.access_cases off a with ⟨-, hacc⟩ | ⟨-, -, hacc⟩ | ⟨-, -, -, hacc⟩ | ⟨-, -, v, -, hacc⟩ <;> rw [hacc]
  · exact ⟨rfl, rfl⟩
  · exact ⟨rfl, rfl⟩
  · exact ⟨rfl, rfl⟩
  · obtain ⟨hfrozen, hdelay⟩ := State.writeWindow_frozen hbusy off v
    exact ⟨hfrozen.trans rfl, hdelay⟩

/-- An event other than the assertion of reset leaves a pending command its registers and its delay (20_memory.md R87). -/
theorem deliver_frozen {t : State} {e : BusEvent} (hbusy : s.busy = true) (hreset : s.inReset = false)
    (he : e ≠ .resetAssert) (hdel : deliver e s = .next t) : s.Frozen t ∧ t.delay = s.delay := by
  rcases deliver_cases hdel with ⟨a, -, -, rfl⟩ | ⟨-, rfl⟩ | ⟨hassert, -⟩ | ⟨-, rfl⟩
  · exact State.access_frozen hbusy _ a
  · rcases s.pollOnce_cases with ⟨-, hpoll⟩ | ⟨-, -, hpoll⟩ | ⟨-, -, hpoll⟩ <;> rw [hpoll] <;> exact ⟨rfl, rfl⟩
  · exact absurd hassert he
  · rw [State.releaseReset, if_neg (by simp [hreset])]
    exact ⟨rfl, rfl⟩

/-- A step of the bus leaves a pending command its registers, and brings its completion one event closer (20_memory.md R87, R90). -/
theorem step_frozen {t : State} (hbusy : s.busy = true) (hreset : s.inReset = false) (hturn : s.engineTurn = false)
    (hassert : ∀ rest, s.inbox ≠ .resetAssert :: rest) (hstep : step s = .next t) :
    s.Frozen t ∧ t.delay = s.delay - 1 := by
  rcases step_cases hstep with ⟨hengine, -⟩ | ⟨-, hinbox, -⟩ | ⟨-, e, rest, hinbox, hdel⟩
  · simp [hturn] at hengine
  · simp [s.engineTurn_iff.2 ⟨hbusy, hreset, .inr hinbox⟩] at hturn
  · have he : e ≠ .resetAssert := fun heq => hassert rest (heq ▸ hinbox)
    obtain ⟨hfrozen, hdelay⟩ := deliver_frozen (s := s.takeEvent rest) hbusy hreset he hdel
    have htake : s.Frozen (s.takeEvent rest) := rfl
    exact ⟨htake.trans hfrozen, hdelay⟩

end Pending

/-- Settles O49: the frame of a step of the bus. -/
theorem pendingCommandFreezesTheRegisters : Obligations.PendingCommandFreezesTheRegisters := by
  intro s t hbusy hreset hturn hassert hstep
  obtain ⟨hfrozen, -⟩ := step_frozen hbusy hreset hturn hassert hstep
  exact hfrozen

/-! ## Completion -/

theorem State.safeInbox_of_plain {s : State} (h : ∀ e ∈ s.inbox, e.plain s.build = true) : s.SafeInbox :=
  fun a ha => h (.access a) ha

/-- One step of the bus with a pending command and plain events: the same situation, one event closer to the completion. -/
theorem step_of_plain {s : State} (hbusy : s.busy = true) (hreset : s.inReset = false) (hturn : s.engineTurn = false)
    (hplain : ∀ e ∈ s.inbox, e.plain s.build = true) :
    ∃ t, step s = .next t ∧ s.Frozen t ∧ t.delay = s.delay - 1 ∧ ∀ e ∈ t.inbox, e.plain t.build = true := by
  obtain ⟨t, hstep⟩ := step_next_of_safeInbox (State.safeInbox_of_plain hplain)
  have hassert (rest : List BusEvent) (hinbox : s.inbox = .resetAssert :: rest) : False := by
    simpa [BusEvent.plain] using hplain .resetAssert (by simp [hinbox])
  obtain ⟨hfrozen, hdelay⟩ := step_frozen hbusy hreset hturn hassert hstep
  refine ⟨t, hstep, hfrozen, hdelay, fun e he => ?_⟩
  rw [hfrozen.build]
  exact hplain e (step_inbox_subset hstep he)

/-- Within `n` steps of the bus the engine's turn comes, with the registers as they are in `s`, and completes the command
(20_memory.md R90). -/
def State.CompletesWithin (s : State) (n : Nat) : Prop :=
  ∃ j t u, j ≤ n ∧ Sys2Proof.core.run j s = .next t ∧ s.Frozen t ∧ t.engineTurn = true ∧ step t = .next u ∧ u.busy = false

theorem State.completesWithin_of_engineTurn {s : State} (hturn : s.engineTurn = true) (n : Nat) : s.CompletesWithin n := by
  obtain ⟨u, hstep, hidle⟩ := step_of_engineTurn hturn
  exact ⟨0, s, u, Nat.zero_le n, rfl, .refl s, hturn, hstep, hidle⟩

theorem State.CompletesWithin.of_step {s t : State} {n : Nat} (h : t.CompletesWithin n) (hstep : step s = .next t)
    (hfrozen : s.Frozen t) : s.CompletesWithin (n + 1) := by
  obtain ⟨j, t', u, hj, hrun, hfrozen', hend⟩ := h
  exact ⟨j + 1, t', u, Nat.succ_le_succ hj, (run_of_step j hstep).trans hrun, hfrozen.trans hfrozen', hend⟩

/-- Settles O50, by induction on the delay: the engine moves, or one more event is delivered. -/
theorem pendingCommandCompletes : Obligations.PendingCommandCompletes := by
  intro s hbusy hreset hplain
  change s.CompletesWithin s.delay
  induction hn : s.delay generalizing s with
  | zero => exact State.completesWithin_of_engineTurn (s.engineTurn_iff.2 ⟨hbusy, hreset, .inl hn⟩) 0
  | succ n ih =>
    cases hturn : s.engineTurn
    · obtain ⟨t, hstep, hfrozen, hdelay, hplain'⟩ := step_of_plain hbusy hreset hturn hplain
      have hrest : t.CompletesWithin n :=
        ih t (hfrozen.busy.trans hbusy) (hfrozen.inReset.trans hreset) hplain' (by omega)
      exact hrest.of_step hstep hfrozen
    · exact State.completesWithin_of_engineTurn hturn (n + 1)

end Sys2Proof.Machine
end

section
/-! SUPPORT. The family 20_memory.md: what one access of the window does (spec/20_memory.md R74 to R80, R91; spec/30_encoding.md
R111). -/

namespace Sys2Proof.Machine

/-! ## A delivered access -/

/-- The shape the block accepts (20_memory.md R74). -/
theorem Access.wholeWord_iff (off : Nat) (a : Access) :
    a.wholeWord off = true ↔ off % 4 = 0 ∧ a.width = 32 ∧ a.lanes = 0xF := by
  simp [Access.wholeWord, and_assoc]

/-- An access of the window reaches the block at its offset (20_memory.md R71, R85). -/
theorem step_of_access {s : State} {a : Access} {rest : List BusEvent} (h : s.deliversNow (.access a) rest)
    (hlow : s.build.base ≤ a.addr) (hhigh : a.addr < s.build.base + 4096) :
    step s = .next ((s.takeEvent rest).access (a.addr - s.build.base) a) := by
  rw [step_of_event h, deliver, if_pos (((s.takeEvent rest).inWindow_iff _).2 ⟨hlow, hhigh⟩), State.takeEvent_build]

namespace State

variable (s : State)

/-- A misshapen access is a BusError and nothing else (20_memory.md R75). -/
theorem access_of_misshapen {off : Nat} {a : Access} (hreset : s.inReset = false)
    (h : off % 4 ≠ 0 ∨ a.width ≠ 32 ∨ a.lanes ≠ 0xF) : s.access off a = s.respond (.busError off) := by
  have hshape : ¬ a.wholeWord off = true := fun hword => by
    obtain ⟨haligned, hwidth, hlanes⟩ := (a.wholeWord_iff off).1 hword
    simp [haligned, hwidth, hlanes] at h
  rw [access, if_neg (by simp [hreset]), if_neg hshape]

/-- A whole aligned read is answered with the register (20_memory.md R80). -/
theorem access_of_read {off : Nat} (addr : Nat) (hreset : s.inReset = false) (haligned : off % 4 = 0) :
    s.access off ⟨addr, 32, 0xF, .read⟩ = s.respond (.data (s.readWindow off)) := by
  rw [access, if_neg (by simp [hreset]), if_pos ((Access.wholeWord_iff _ _).2 ⟨haligned, rfl, rfl⟩), perform]

/-- What the registers read is no matter of the waiting events. -/
@[simp] theorem readWindow_takeEvent (rest : List BusEvent) (off : Nat) :
    (s.takeEvent rest).readWindow off = s.readWindow off := by
  unfold readWindow
  cases regAt off <;> rfl

@[simp] theorem readWindow_status : s.readWindow 0x004 = s.statusWord := rfl

/-- Bit 0 of STATUS is BUSY (10_state.md R43). -/
theorem getLsbD_statusWord_zero : s.statusWord.getLsbD 0 = s.busy := by
  rw [s.getLsbD_statusWord (by decide)]
  simp

end State

/-- Settles O36: `access` on the wrong shape. -/
theorem misshapenAccessIsABusError : Obligations.MisshapenAccessIsABusError := by
  intro s a rest h hreset hlow hhigh hshape
  rw [step_of_access h hlow hhigh, (s.takeEvent rest).access_of_misshapen hreset hshape]
  rfl

/-- Settles O39: `access` on a read, and the two cases of a poll out of reset. -/
theorem readsChangeNothing : Obligations.ReadsChangeNothing := by
  refine ⟨fun s off rest h hreset hoff haligned => ?_, fun s rest h hreset => ?_⟩
  · rw [step_of_access h (Nat.le_add_right _ _) (Nat.add_lt_add_left hoff _), Nat.add_sub_cancel_left,
      (s.takeEvent rest).access_of_read _ hreset haligned, s.readWindow_takeEvent]
    rfl
  · have hbit := s.getLsbD_statusWord_zero
    refine ⟨hbit, ?_⟩
    rw [step_of_event h, s.readWindow_status, hbit, deliver]
    rcases (s.takeEvent rest).pollOnce_cases with ⟨hin, -⟩ | ⟨-, hbusy, hpoll⟩ | ⟨-, hidle, hpoll⟩
    · simp [hreset] at hin
    · rw [hpoll, if_pos (s.takeEvent_busy rest ▸ hbusy)]
      rfl
    · rw [hpoll, if_neg (s.takeEvent_busy rest ▸ Bool.eq_false_iff.1 hidle)]
      rfl

/-! ## Offsets that take no write -/

/-- The registers a host cannot write, and the offsets with no register (20_memory.md R77, R79). -/
def Reg.isReadOnly : Reg → Bool
  | .param0 | .param1 | .syndrome | .decInfo | .candCount | .best | .bestSum | .candScore => true
  | .corrected _ | .msg _ | .candCw _ | .candMsg _ | .reserved => true
  | _ => false

/-- A write to a read-only register is discarded (20_memory.md R79). -/
theorem State.writeReg_of_isReadOnly (s : State) (v : Word) {r : Reg} (h : r.isReadOnly = true) : s.writeReg v r = s := by
  cases r
  case cmd | status | cfg | siCount | siSel | candSel | cw | siData | col | row => exact absurd h Bool.false_ne_true
  all_goals rfl

/-- Where the read-only registers and the reserved offsets stand (10_state.md section 8; 20_memory.md R77). -/
theorem isReadOnly_regAt {off : Nat} (h : off = 0x008 ∨ off = 0x00C ∨ 0x020 ≤ off ∧ off < 0x040 ∨
    0x060 ≤ off ∧ off < 0x0A0 ∨ 0x0C0 ≤ off ∧ off < 0x100 ∨ 0x900 ≤ off) : (regAt off).isReadOnly = true := by
  rcases h with rfl | rfl | hresults | hwords | hcand | hreserved
  · rfl
  · rfl
  · simp (disch := omega) only [regAt, if_neg, if_pos]
    split_ifs <;> rfl
  · simp (disch := omega) only [regAt, if_neg, if_pos]
    split_ifs <;> rfl
  · simp (disch := omega) only [regAt, if_neg, if_pos]
    split_ifs <;> rfl
  · rw [regAt_reserved (.inr hreserved)]
    rfl

/-- Settles O46: a read-only register keeps its value, and no register stands at a reserved offset. -/
theorem readOnlyAndReservedOffsetsIgnoreWrites : Obligations.ReadOnlyAndReservedOffsetsIgnoreWrites := by
  intro s off v hidle hoff haligned
  refine ⟨fun hreadOnly => ?_, fun hreserved => ?_⟩
  · rw [s.writeWindow_of_idle v hidle, s.writeReg_of_isReadOnly v (isReadOnly_regAt hreadOnly)]
  · rw [State.readWindow, regAt_reserved hreserved, State.readReg]

end Sys2Proof.Machine
end

section
/-! SUPPORT. The family 30_encoding.md: the command word as arithmetic on its fields, and the round trips between commands, words
and bytes (spec/30_encoding.md R100 to R105, R110, spec/60_exceptions.md R271). -/

namespace Sys2Proof.Machine

/-! ## The fields of a word (30_encoding.md R100) -/

theorem toNat_cmdOp (w : Word) : (cmdOp w).toNat = w.toNat % 16 := by
  rw [cmdOp, BitVec.extractLsb'_toNat, Nat.shiftRight_zero]

theorem toNat_cmdRsv (w : Word) : (cmdRsv w).toNat = w.toNat / 16 % 4096 := by
  rw [cmdRsv, BitVec.extractLsb'_toNat, Nat.shiftRight_eq_div_pow]

theorem cmdMaxc_eq (w : Word) : cmdMaxc w = w.toNat / 65536 := by
  have hw := w.isLt
  rw [cmdMaxc, BitVec.extractLsb'_toNat, Nat.shiftRight_eq_div_pow]
  omega

theorem cmdOp_eq_iff (w : Word) (op : BitVec 4) : cmdOp w = op ↔ w.toNat % 16 = op.toNat := by
  rw [← BitVec.toNat_inj, toNat_cmdOp]

theorem cmdOp_eq_ofNat (w : Word) : cmdOp w = BitVec.ofNat 4 w.toNat := by
  rw [cmdOp_eq_iff, BitVec.toNat_ofNat]

theorem cmdRsv_eq_zero_iff (w : Word) : cmdRsv w = 0 ↔ w.toNat / 16 % 4096 = 0 := by
  rw [← BitVec.toNat_inj, toNat_cmdRsv]
  rfl

/-- The OP values in use are 1 to 6 (30_encoding.md R101). -/
theorem op_toNat_bounds (i : Instr) : 1 ≤ i.op.toNat ∧ i.op.toNat ≤ 6 := by
  cases i <;> exact ⟨by simp [Instr.op], by simp [Instr.op]⟩

/-! ## The decoder -/

/-- The words of a command: RSV is 0, OP is the command's, and MAXC its operand where it has one (30_encoding.md R105). -/
theorem decodeCmd_eq_ok_iff (w : Word) (i : Instr) :
    decodeCmd w = .ok i ↔
      cmdRsv w = 0 ∧ cmdOp w = i.op ∧ ∀ m, i = .enum m ∨ i = .run m → m = cmdMaxc w := by
  constructor
  · intro h
    unfold decodeCmd at h
    split_ifs at h with hrsv h1 h2 h3 h4 h5 h6 <;> injection h with h <;> subst h
    all_goals exact ⟨not_not.1 hrsv, by assumption, by simp⟩
  · rintro ⟨hrsv, hop, hmaxc⟩
    cases i with
    | enum m => simp [decodeCmd, hrsv, hop, Instr.op, hmaxc m (.inl rfl)]
    | run m => simp [decodeCmd, hrsv, hop, Instr.op, hmaxc m (.inr rfl)]
    | syn | decode | choose | commit => simp [decodeCmd, hrsv, hop, Instr.op]

/-- `decodeCmd_eq_ok_iff` by arithmetic on the word. -/
theorem decodeCmd_eq_ok_iff_toNat (w : Word) (i : Instr) :
    decodeCmd w = .ok i ↔
      w.toNat / 16 % 4096 = 0 ∧ w.toNat % 16 = i.op.toNat ∧ ∀ m, i = .enum m ∨ i = .run m → m = w.toNat / 65536 := by
  rw [decodeCmd_eq_ok_iff, cmdRsv_eq_zero_iff, cmdOp_eq_iff, cmdMaxc_eq]

/-- A word with a reserved bit set or a reserved OP is no command (30_encoding.md R104). -/
theorem decodeCmd_of_illegal {w : Word}
    (h : w.toNat / 16 % 4096 ≠ 0 ∨ w.toNat % 16 = 0 ∨ 7 ≤ w.toNat % 16) : ∃ e, decodeCmd w = .error e := by
  cases hdecode : decodeCmd w with
  | error e => exact ⟨e, rfl⟩
  | ok i =>
    obtain ⟨hrsv, hop, -⟩ := (decodeCmd_eq_ok_iff_toNat w i).1 hdecode
    have hbounds := op_toNat_bounds i
    omega

/-- Settles O2: the words of each command, and the words of none. -/
theorem decoderFollowsTheCommandFormat : Obligations.DecoderFollowsTheCommandFormat := by
  intro w
  refine ⟨fun hrsv => decodeCmd_of_illegal (.inl hrsv), fun hrsv => ?_⟩
  have hok (i : Instr) (hop : w.toNat % 16 = i.op.toNat) (hmaxc : ∀ m, i = .enum m ∨ i = .run m → m = w.toNat / 65536) :
      decodeCmd w = .ok i := (decodeCmd_eq_ok_iff_toNat w i).2 ⟨hrsv, hop, hmaxc⟩
  exact ⟨fun hop => hok .syn hop (by simp), fun hop => hok .decode hop (by simp), fun hop => hok (.enum _) hop (by simp),
    fun hop => hok .choose hop (by simp), fun hop => hok (.run _) hop (by simp), fun hop => hok .commit hop (by simp),
    fun hop => decodeCmd_of_illegal (.inr hop)⟩

/-! ## The encoder -/

theorem maxcField_lt {i : Instr} (h : i.wellFormed = true) : i.maxcField < 65536 := by
  cases i with
  | enum m => exact of_decide_eq_true h
  | run m => exact of_decide_eq_true h
  | syn | decode | choose | commit => decide

/-- The word of a well-formed command is MAXC * 65536 + OP (30_encoding.md R110). -/
theorem toNat_encode {i : Instr} (h : i.wellFormed = true) : (encode i).toNat = i.maxcField * 65536 + i.op.toNat := by
  have hmaxc := maxcField_lt h
  have hop := i.op.isLt
  have hfield : (BitVec.ofNat 32 i.maxcField).toNat = i.maxcField := toNat_ofNat_word (by omega)
  have hlow : (i.op.setWidth 32).toNat = i.op.toNat := by
    rw [BitVec.toNat_setWidth, Nat.mod_eq_of_lt (by omega)]
  rw [encode, BitVec.or_comm, toNat_or_shiftLeft (by omega) (by omega), hfield, hlow]
  omega

/-- The MAXC field has 16 bits, so what the decoder reads is an operand the assembler accepts (30_encoding.md R102, R110). -/
theorem wellFormed_of_decodeCmd {w : Word} {i : Instr} (h : decodeCmd w = .ok i) : i.wellFormed = true := by
  obtain ⟨-, -, hmaxc⟩ := (decodeCmd_eq_ok_iff_toNat w i).1 h
  have hw := w.isLt
  cases i with
  | enum m => exact decide_eq_true (by have := hmaxc m (.inl rfl); omega)
  | run m => exact decide_eq_true (by have := hmaxc m (.inr rfl); omega)
  | syn | decode | choose | commit => rfl

/-- A word that decodes and the word of its command have the same low half (30_encoding.md R100). -/
theorem toNat_encode_of_decodeCmd {w : Word} {i : Instr} (h : decodeCmd w = .ok i) :
    (encode i).toNat = i.maxcField * 65536 + w.toNat % 65536 := by
  obtain ⟨hrsv, hop, -⟩ := (decodeCmd_eq_ok_iff_toNat w i).1 h
  rw [toNat_encode (wellFormed_of_decodeCmd h)]
  omega

/-- Settles O3: the low halves agree, and the high half of the command's word is the MAXC it took, or 0. -/
theorem reencodingGivesTheWordBack : Obligations.ReencodingGivesTheWordBack := by
  intro w i hdecode
  obtain ⟨-, -, hmaxc⟩ := (decodeCmd_eq_ok_iff_toNat w i).1 hdecode
  refine ⟨wellFormed_of_decodeCmd hdecode, ?_, fun hignored => ?_⟩
  · rintro ⟨m, hm⟩
    have hfield : i.maxcField = w.toNat / 65536 := by
      rw [← hmaxc m hm]
      rcases hm with rfl | rfl <;> rfl
    refine BitVec.eq_of_toNat_eq ?_
    rw [toNat_encode_of_decodeCmd hdecode, hfield]
    omega
  · have hfield : i.maxcField = 0 := by
      cases i with
      | enum m => exact absurd rfl (hignored m).1
      | run m => exact absurd rfl (hignored m).2
      | syn | decode | choose | commit => rfl
    have hlow : (w &&& 0xFFFF).toNat = w.toNat % 65536 := Nat.and_two_pow_sub_one_eq_mod w.toNat 16
    refine BitVec.eq_of_toNat_eq ?_
    rw [toNat_encode_of_decodeCmd hdecode, hfield, hlow]
    omega

/-! ## Words on the byte lanes -/

/-- The four lanes of a word, put together again (20_memory.md R73). -/
theorem wordOfLanes_lanes (w : Word) :
    wordOfLanes (w.extractLsb' 0 8) (w.extractLsb' 8 8) (w.extractLsb' 16 8) (w.extractLsb' 24 8) = w := by
  refine BitVec.eq_of_getLsbD_eq fun k hk => ?_
  simp only [wordOfLanes, BitVec.getLsbD_append, BitVec.getLsbD_extractLsb']
  split_ifs
  all_goals
    rw [decide_eq_true (by omega), Bool.true_and]
    congr 1
    omega

theorem decode_lanesOfWord {w : Word} {i : Instr} (h : decodeCmd w = .ok i) (rest : List Byte) :
    decode (lanesOfWord w ++ rest) = .ok (i, rest) := by
  simp only [lanesOfWord, List.cons_append, List.nil_append, decode, wordOfLanes_lanes, h]

/-- A table word of 32 bits is the command word itself (log 25). -/
theorem decodeTableWord_toNat {w : Word} {i : Instr} (h : decodeCmd w = .ok i) : decodeTableWord 32 w.toNat = some i := by
  have hbytes : decode (lanesOfWord w) = .ok (i, []) := by
    simpa using decode_lanesOfWord h []
  rw [decodeTableWord, Nat.mod_eq_of_lt w.isLt, BitVec.ofNat_toNat, BitVec.setWidth_eq, hbytes]

/-- Settles O1: the round trip of the command word, carried over to bytes and table words. -/
theorem encodedCommandDecodesToItself : Obligations.EncodedCommandDecodesToItself := by
  intro i hwf
  have hword := decodeCmd_encode i hwf
  exact ⟨hword, decode_lanesOfWord hword, decodeTableWord_toNat hword⟩

/-- Settles O4: each word is evaluated. -/
theorem writtenCommandWordsDecode : Obligations.WrittenCommandWordsDecode := by
  refine ⟨?_, ?_, ?_, ?_, ?_, ?_, ?_, ?_, ?_, ?_⟩ <;> decide

/-- Settles O6: the engine completes the pending word, which is no command. -/
theorem illegalWordCompletesWithIllegalOp : Obligations.IllegalWordCompletesWithIllegalOp := by
  intro s w hnow hillegal
  obtain ⟨e, hdecode⟩ := decodeCmd_of_illegal hillegal
  rw [step_of_completesNow hnow, ← cmdOp_eq_ofNat]
  rcases completeWord_cases w s with ⟨i, hok, -⟩ | ⟨-, -, hcomplete⟩
  · simp [hdecode] at hok
  · exact hcomplete

end Sys2Proof.Machine
end

section
/-! SUPPORT. The family 30_encoding.md: what an error completion leaves in MSG (spec/30_encoding.md R106, R107). -/

namespace Sys2Proof.Machine

/-- What a completion from `s` to `t` leaves in MSG, by the kind of its result code (30_encoding.md R107). -/
inductive MessageRule (s t : State) : Prop where
  /-- A success code: R107 says nothing. -/
  | success (hcode : t.result.isError = false)
  /-- An error found before any decode. -/
  | kept (hcode : t.result = .eIllegalOp ∨ t.result = .eConfig ∨ t.result = .eMalformed ∨ t.result = .eAmbiguous)
      (hmsg : t.msg = s.msg)
  /-- A DUE word without candidates. -/
  | zero (hcode : t.result = .eCapacity ∨ t.result = .eUnrecoverableDue) (hmsg : t.msg = 0)
  /-- ENUM on a word that decodes. -/
  | decoded (hcode : t.result = .eNotDue) (hdecode : (s.code.decodeWord s.cw).outcome ≠ .due)
      (hmsg : t.msg = s.code.msg (s.code.decodeWord s.cw).cw)

/-- The error codes, 8 to 14 (30_encoding.md R106), by what R107 lets them leave in MSG. -/
theorem ResultCode.isError_iff (c : ResultCode) : c.isError = true ↔
    (c = .eIllegalOp ∨ c = .eConfig ∨ c = .eMalformed ∨ c = .eAmbiguous) ∨
    (c = .eCapacity ∨ c = .eUnrecoverableDue) ∨ c = .eNotDue := by
  cases c <;> decide

theorem DecodeOutcome.code_isError (o : DecodeOutcome) : o.code.isError = false := by cases o <;> decide

section Commands

variable (s : State)

/-- A pre-check's error completion writes no message (60_exceptions.md R272, R273). -/
theorem messageRule_complete (op : BitVec 4) {code : ResultCode}
    (h : code = .eIllegalOp ∨ code = .eConfig ∨ code = .eMalformed ∨ code = .eAmbiguous) :
    MessageRule s (s.complete op code) := .kept h rfl

/-- A DUE decode leaves MSG zero (30_encoding.md R107, R108). -/
theorem messageRule_due (op : BitVec 4) {code : ResultCode} (hdue : (s.code.decodeWord s.cw).outcome = .due)
    (h : code = .eCapacity ∨ code = .eUnrecoverableDue) :
    MessageRule s ((s.writeDecode (s.code.decodeWord s.cw)).clearCandidates.complete op code) :=
  .zero h (by simp [hdue])

theorem execSyn_messageRule : ∃ t, execSyn s = .next t ∧ MessageRule s t := by
  rcases execSyn_cases s with ⟨-, hexec⟩ | ⟨-, hexec⟩
  · exact ⟨_, hexec, messageRule_complete s _ (by decide)⟩
  · exact ⟨_, hexec, .success rfl⟩

theorem execDecode_messageRule : ∃ t, execDecode s = .next t ∧ MessageRule s t := by
  rcases execDecode_cases s with ⟨-, hexec⟩ | ⟨-, hexec⟩
  · exact ⟨_, hexec, messageRule_complete s _ (by decide)⟩
  · exact ⟨_, hexec, .success (DecodeOutcome.code_isError _)⟩

theorem execEnum_messageRule (maxc : Nat) : ∃ t, execEnum maxc s = .next t ∧ MessageRule s t := by
  rcases execEnum_cases maxc s with ⟨-, hexec⟩ | ⟨-, -, hexec⟩ | ⟨-, -, hdecode, hexec⟩ | ⟨-, -, hdue, -, hexec⟩ |
    ⟨-, -, hdue, -, hexec⟩ | ⟨-, -, -, list, -, hexec⟩
  · exact ⟨_, hexec, messageRule_complete s _ (by decide)⟩
  · exact ⟨_, hexec, messageRule_complete s _ (by decide)⟩
  · exact ⟨_, hexec, .decoded rfl hdecode (if_neg hdecode)⟩
  · exact ⟨_, hexec, messageRule_due s _ hdue (by decide)⟩
  · exact ⟨_, hexec, messageRule_due s _ hdue (by decide)⟩
  · exact ⟨_, hexec, .success rfl⟩

theorem execChoose_messageRule : ∃ t, execChoose s = .next t ∧ MessageRule s t := by
  rcases execChoose_cases s with ⟨-, hexec⟩ | ⟨-, -, hexec⟩ | ⟨-, -, -, hexec⟩ | ⟨-, -, -, hexec⟩
  · exact ⟨_, hexec, messageRule_complete s _ (by decide)⟩
  · exact ⟨_, hexec, messageRule_complete s _ (by decide)⟩
  · exact ⟨_, hexec, messageRule_complete s _ (by decide)⟩
  · exact ⟨_, hexec, .success rfl⟩

theorem execRun_messageRule (maxc : Nat) : ∃ t, execRun maxc s = .next t ∧ MessageRule s t := by
  rcases execRun_cases maxc s with ⟨-, hexec⟩ | ⟨-, -, hexec⟩ | ⟨-, -, -, -, hexec⟩ | ⟨-, -, -, hdue, -, hexec⟩ |
    ⟨-, -, -, hdue, -, hexec⟩ | ⟨-, -, -, -, list, -, hexec⟩
  · exact ⟨_, hexec, messageRule_complete s _ (by decide)⟩
  · exact ⟨_, hexec, messageRule_complete s _ (by decide)⟩
  · exact ⟨_, hexec, .success (DecodeOutcome.code_isError _)⟩
  · exact ⟨_, hexec, messageRule_due s _ hdue (by decide)⟩
  · exact ⟨_, hexec, messageRule_due s _ hdue (by decide)⟩
  · exact ⟨_, hexec, .success rfl⟩

theorem execCommit_messageRule : ∃ t, execCommit s = .next t ∧ MessageRule s t := by
  rcases execCommit_cases s with ⟨-, hexec⟩ | ⟨-, hexec⟩
  · exact ⟨_, hexec, .success rfl⟩
  · exact ⟨_, hexec, .kept (.inr (.inl rfl)) rfl⟩

theorem exec_messageRule (i : Instr) : ∃ t, exec i s = .next t ∧ MessageRule s t := by
  cases i with
  | syn => exact execSyn_messageRule s
  | decode => exact execDecode_messageRule s
  | enum maxc => exact execEnum_messageRule s maxc
  | choose => exact execChoose_messageRule s
  | run maxc => exact execRun_messageRule s maxc
  | commit => exact execCommit_messageRule s

theorem completeWord_messageRule (w : Word) : ∃ t, completeWord w s = .next t ∧ MessageRule s t := by
  rcases completeWord_cases w s with ⟨i, -, hcomplete⟩ | ⟨e, -, hcomplete⟩
  · rw [hcomplete]
    exact exec_messageRule s i
  · exact ⟨_, hcomplete, messageRule_complete s _ (by decide)⟩

end Commands

/-- Settles O32: the kinds of result codes exclude each other. -/
theorem errorsLeaveNoComputedMessage : Obligations.ErrorsLeaveNoComputedMessage := by
  intro w s
  obtain ⟨t, hcomplete, hrule⟩ := completeWord_messageRule s w
  refine ⟨t, hcomplete, ?_⟩
  cases hrule with
  | success hcode =>
    have hnot := mt t.result.isError_iff.2 (Bool.eq_false_iff.1 hcode)
    exact ⟨fun h => absurd (.inl h) hnot, fun h => absurd (.inr (.inl h)) hnot, fun h => absurd (.inr (.inr h)) hnot⟩
  | kept hcode hmsg => exact ⟨fun _ => hmsg, by rcases hcode with h | h | h | h <;> simp [h]⟩
  | zero hcode hmsg => rcases hcode with h | h <;> simp [h, hmsg]
  | decoded hcode hdecode hmsg => simp [hcode, hdecode, hmsg]

end Sys2Proof.Machine
end

section
/-! SUPPORT. The family 40_syndrome.md: the syndrome is linear over XOR, and a committed configuration gives it as a sum of columns
(spec/40_syndrome.md R132, R133). -/

namespace Sys2Proof.Machine

/-- Settles O8: the two halves of linearity. -/
theorem syndromeIsLinear : Obligations.SyndromeIsLinear :=
  fun c a b => ⟨c.syn_xor a b, c.syn_zero⟩

/-- Linearity (40_syndrome.md R132) carried over to the XOR of a list of words. -/
theorem Code.syn_foldl_xor (c : Code) (f : Nat → Codeword) (js : List Nat) (v : Codeword) :
    c.syn (js.foldl (fun v j => v ^^^ f j) v) = js.foldl (fun x j => x ^^^ c.syn (f j)) (c.syn v) := by
  induction js generalizing v with
  | nil => rfl
  | cons j js ih => rw [List.foldl_cons, List.foldl_cons, ih, c.syn_xor]

/-- The decoder's sum of the columns of a pattern is the XOR over its set bits (41_decoder.md R150). -/
theorem Code.columnsOf_eq_colSum (c : Code) (k : Nat) (p : Pattern) : c.columnsOf k p = c.colSum k p := by
  have hstep (x : Syndrome) (b : Nat) :
      (if p.getLsbD b = true then x ^^^ c.col.getD (4 * k + b) 0 else x) = x ^^^ c.maskedCol k p b := by
    unfold Code.maskedCol Code.colAt
    split
    · rfl
    · exact BitVec.xor_zero.symm
  have hpositions : List.range 4 = [0, 1, 2, 3] := rfl
  simp only [Code.columnsOf, List.foldl_filter, hstep]
  simp only [hpositions, List.foldl_cons, List.foldl_nil, BitVec.ofNat_eq_ofNat, BitVec.zero_xor, Code.colSum]

/-- Settles O9: the check gives the syndrome of one bit, and linearity that of a set of bits and of a pattern. -/
theorem committedColumnsGiveSyndromes : Obligations.CommittedColumnsGiveSyndromes := by
  intro c hc
  have hbit (j : Nat) (hj : j < c.n) : c.syn (oneBit j) = c.col.getD j 0 := Code.syn_oneBit hc.check hj
  refine ⟨hbit, fun js hjs => ?_, fun k p hk => ?_⟩
  · rw [c.syn_foldl_xor oneBit js 0, c.syn_zero]
    exact List.foldl_ext _ _ _ fun x j hj => by rw [hbit j (hjs j hj)]
  · rw [Code.syn_patternAt hc.check hk, c.columnsOf_eq_colSum]

end Sys2Proof.Machine
end

section
/-! SUPPORT. The family 41_decoder.md: the order of the decoder's search, and the first pattern of it that explains a syndrome
(spec/41_decoder.md R150 to R165). -/

namespace Sys2Proof.Machine

/-! ## The masks of the tiers -/

/-- The tier that tries a nonzero pattern (41_decoder.md R161). -/
def tierOf (p : Pattern) : Nat :=
  if popcount 4 p = 1 then 1 else if p = 0xF then 2 else if popcount 4 p = 3 then 3 else 4

/-- The tiers share the nonzero patterns out among them (41_decoder.md R161). -/
theorem mem_tierMasks_iff (tier : Nat) (p : Pattern) : p ∈ tierMasks tier ↔ p ≠ 0 ∧ tier = tierOf p := by
  have hin : ∀ p : Pattern, p ≠ 0 → p ∈ tierMasks (tierOf p) := by decide
  have honly : ∀ tier, tier < 5 → ∀ p ∈ tierMasks tier, p ≠ 0 ∧ tier = tierOf p := by decide
  constructor
  · intro h
    exact honly tier (Nat.lt_succ_of_le (tier_bounds_of_mem_tierMasks h).2) p h
  · rintro ⟨hp, rfl⟩
    exact hin p hp

theorem mem_tierMasks_one_iff (p : Pattern) : p ∈ tierMasks 1 ↔ ∃ b, b < 4 ∧ p = 1#4 <<< b := by
  revert p
  decide

theorem mem_tierMasks_two_iff (p : Pattern) : p ∈ tierMasks 2 ↔ p = 0xF := List.mem_singleton

/-- A tier lists its masks by their place in it, so each mask once. -/
theorem tierMasks_pairwise_idxOf {tier : Nat} (h : tier ∈ [1, 2, 3, 4]) :
    (tierMasks tier).Pairwise fun p q => (tierMasks tier).idxOf p < (tierMasks tier).idxOf q := by
  revert tier
  decide

/-! ## The order of the search (41_decoder.md R150, R158) -/

theorem triedBefore_asymm {tier k tier' k' : Nat} {p p' : Pattern} (h : triedBefore tier k p tier' k' p') :
    ¬ triedBefore tier' k' p' tier k p := by
  unfold triedBefore at *
  rcases h with h | ⟨rfl, h⟩ <;> omega

/-- The order of the search on trials. -/
abbrev Trial.before (t u : Trial) : Prop := triedBefore t.tier t.sym t.mask u.tier u.sym u.mask

/-- What a tier tries on one symbol. -/
def symbolTrials (tier k : Nat) : List Trial := (tierMasks tier).map fun p => ⟨tier, k, p⟩

/-- Counting to `4 * m` is counting the symbols, with the four bits of each. -/
theorem map_range_four_mul {α : Type} (f : Nat → α) (m : Nat) :
    (List.range (4 * m)).map f = (List.range m).flatMap fun k => [0, 1, 2, 3].map fun b => f (4 * k + b) := by
  induction m with
  | zero => rfl
  | succ m ih => simp [Nat.mul_succ, List.range_succ, ih]

/-- Tier 1 goes through the bits symbol by symbol (41_decoder.md R152). -/
theorem tier1_eq_flatMap (m : Nat) : tier1 (4 * m) = (List.range m).flatMap (symbolTrials 1) := by
  rw [tier1, map_range_four_mul]
  congr 1
  funext k
  have hmasks : symbolTrials 1 k = [0, 1, 2, 3].map fun b => ⟨1, k, 1#4 <<< b⟩ := rfl
  rw [hmasks]
  refine List.map_congr_left fun b hb => ?_
  have hlt : b < 4 := (by decide : ∀ b ∈ [0, 1, 2, 3], b < 4) b hb
  rw [show (4 * k + b) / 4 = k by omega, show (4 * k + b) % 4 = b by omega]

/-- The search is by tier, then by symbol, then by place in the tier. -/
theorem Code.trials_eq_flatMap (c : Code) (hn : c.n % 4 = 0) :
    c.trials = [1, 2, 3, 4].flatMap fun tier => (List.range c.nsym).flatMap (symbolTrials tier) := by
  have htier2 : tier2 c.nsym = (List.range c.nsym).flatMap (symbolTrials 2) := List.map_eq_flatMap
  have htier3 : tierCombinations 3 tier3Positions c.nsym = (List.range c.nsym).flatMap (symbolTrials 3) := rfl
  have htier4 : tierCombinations 4 tier4Positions c.nsym = (List.range c.nsym).flatMap (symbolTrials 4) := rfl
  have hbits : c.n = 4 * c.nsym := by
    rw [Code.nsym]
    omega
  rw [Code.trials, hbits, tier1_eq_flatMap, htier2, htier3, htier4]
  simp

theorem tier_and_sym_of_mem_symbolTrials {tier k : Nat} {t : Trial} (h : t ∈ symbolTrials tier k) :
    t.tier = tier ∧ t.sym = k := by
  obtain ⟨p, -, rfl⟩ := List.mem_map.1 h
  exact ⟨rfl, rfl⟩

/-- The list of trials is in the order of the search. -/
theorem Code.trials_pairwise_before (c : Code) (hn : c.n % 4 = 0) : c.trials.Pairwise Trial.before := by
  rw [c.trials_eq_flatMap hn]
  refine List.pairwise_flatMap.2 ⟨fun tier htier => List.pairwise_flatMap.2 ⟨fun k _ => ?_, ?_⟩, ?_⟩
  · exact List.pairwise_map.2 ((tierMasks_pairwise_idxOf htier).imp fun hidx => .inr ⟨rfl, .inr ⟨rfl, hidx⟩⟩)
  · refine List.pairwise_lt_range.imp fun hlt t ht u hu => ?_
    obtain ⟨httier, htsym⟩ := tier_and_sym_of_mem_symbolTrials ht
    obtain ⟨hutier, husym⟩ := tier_and_sym_of_mem_symbolTrials hu
    exact .inr ⟨httier.trans hutier.symm, .inl (by omega)⟩
  · have htiers : [1, 2, 3, 4].Pairwise (· < ·) := by decide
    refine htiers.imp fun hlt t ht u hu => ?_
    obtain ⟨k, -, ht⟩ := List.mem_flatMap.1 ht
    obtain ⟨k', -, hu⟩ := List.mem_flatMap.1 hu
    have httier := (tier_and_sym_of_mem_symbolTrials ht).1
    have hutier := (tier_and_sym_of_mem_symbolTrials hu).1
    exact .inl (by omega)

theorem Code.trials_nodup (c : Code) (hn : c.n % 4 = 0) : c.trials.Nodup :=
  (c.trials_pairwise_before hn).imp fun {t u} hbefore (heq : t = u) => by
    subst heq
    exact triedBefore_asymm hbefore hbefore

/-- A trial is the one of its symbol and its mask, in the tier of the mask. -/
theorem Code.eq_trial_of_mem (c : Code) (hn : c.n % 4 = 0) {t : Trial} (ht : t ∈ c.trials) :
    t = ⟨tierOf t.mask, t.sym, t.mask⟩ := by
  obtain ⟨-, hmask⟩ := (c.mem_trials hn t).1 ht
  obtain ⟨-, htier⟩ := (mem_tierMasks_iff _ _).1 hmask
  rw [← htier]

/-- Settles O16: the trials of pattern `p` of symbol `k` are the occurrences of one trial in a list without repetitions. -/
theorem everyPatternIsTriedOnce : Obligations.EveryPatternIsTriedOnce := by
  intro c k p hn hk hp
  refine ⟨?_, fun t ht _ hmask => ?_⟩
  · have hmem : ⟨tierOf p, k, p⟩ ∈ c.trials := (c.mem_trials hn _).2 ⟨hk, (mem_tierMasks_iff _ _).2 ⟨hp, rfl⟩⟩
    have hsame : ∀ t ∈ c.trials, (t.sym == k && t.mask == p) = (t == ⟨tierOf p, k, p⟩) := by
      intro t ht
      rw [c.eq_trial_of_mem hn ht, Bool.eq_iff_iff]
      simp only [Bool.and_eq_true, beq_iff_eq, Trial.mk.injEq]
      exact ⟨fun ⟨hsym, hmask⟩ => ⟨congrArg tierOf hmask, hsym, hmask⟩, fun ⟨_, hsym, hmask⟩ => ⟨hsym, hmask⟩⟩
    rw [List.filter_congr hsame, ← List.countP_eq_length_filter]
    exact List.count_eq_one_of_mem (c.trials_nodup hn) hmem
  · rw [c.eq_trial_of_mem hn ht, hmask]
    rfl

/-! ## The first explanation (41_decoder.md R150 to R156) -/

/-- In a list sorted by an asymmetric order, a search finds the first of the elements it looks for. -/
theorem find?_eq_some_iff_of_pairwise {α : Type} {before : α → α → Prop} {list : List α} {found : α → Bool} {a : α}
    (hasymm : ∀ a b, before a b → ¬ before b a) (hsorted : list.Pairwise before) :
    list.find? found = some a ↔ a ∈ list ∧ found a = true ∧ ∀ b ∈ list, found b = true → ¬ before b a := by
  rw [List.find?_eq_some_iff_append]
  constructor
  · rintro ⟨hfound, skipped, rest, rfl, hskipped⟩
    obtain ⟨-, htail, -⟩ := List.pairwise_append.1 hsorted
    obtain ⟨hrest, -⟩ := List.pairwise_cons.1 htail
    refine ⟨by simp, hfound, fun b hb hfoundb hba => ?_⟩
    rcases List.mem_append.1 hb with hb | hb
    · simpa [hfoundb] using hskipped b hb
    · rcases List.mem_cons.1 hb with rfl | hb
      · exact hasymm b b hba hba
      · exact hasymm b a hba (hrest b hb)
  · rintro ⟨ha, hfound, hfirst⟩
    obtain ⟨skipped, rest, rfl⟩ := List.append_of_mem ha
    obtain ⟨-, -, hskipped⟩ := List.pairwise_append.1 hsorted
    refine ⟨hfound, skipped, rest, rfl, fun b hb => ?_⟩
    have hba : before b a := hskipped b hb a List.mem_cons_self
    simpa using fun hfoundb => hfirst b (List.mem_append_left _ hb) hfoundb hba

/-- The pattern explains the syndrome, and no pattern tried before it does. -/
def Code.FirstExplains (c : Code) (x : Syndrome) (tier k : Nat) (p : Pattern) : Prop :=
  c.Explains x tier k p ∧ ∀ tier' k' p', c.Explains x tier' k' p' → ¬ triedBefore tier' k' p' tier k p

/-- The trials the decoder accepts are the explanations of the syndrome. -/
theorem Code.explains_iff (c : Code) (hn : c.n % 4 = 0) (x : Syndrome) (tier k : Nat) (p : Pattern) :
    c.Explains x tier k p ↔ ⟨tier, k, p⟩ ∈ c.trials ∧ (c.colSum k p == x) = true := by
  rw [c.mem_trials hn, beq_iff_eq, and_assoc, ← c.columnsOf_eq_colSum]
  rfl

theorem Code.find?_trials_eq_some_iff (c : Code) (hn : c.n % 4 = 0) (x : Syndrome) (tier k : Nat) (p : Pattern) :
    c.trials.find? (fun t => c.colSum t.sym t.mask == x) = some ⟨tier, k, p⟩ ↔ c.FirstExplains x tier k p := by
  rw [find?_eq_some_iff_of_pairwise (fun _ _ => triedBefore_asymm) (c.trials_pairwise_before hn), Code.FirstExplains,
    ← and_assoc, ← c.explains_iff hn]
  refine and_congr_right fun _ => ⟨fun hfirst tier' k' p' hexp => ?_, fun hfirst t ht hfound => ?_⟩
  · obtain ⟨hmem, hsum⟩ := (c.explains_iff hn _ _ _ _).1 hexp
    exact hfirst _ hmem hsum
  · exact hfirst _ _ _ ((c.explains_iff hn _ _ _ _).2 ⟨ht, hfound⟩)

theorem Code.find?_trials_eq_none_iff (c : Code) (hn : c.n % 4 = 0) (x : Syndrome) :
    c.trials.find? (fun t => c.colSum t.sym t.mask == x) = none ↔ ∀ tier k p, ¬ c.Explains x tier k p := by
  simp only [List.find?_eq_none, c.explains_iff hn, not_and]
  exact ⟨fun h tier k p ht => h ⟨tier, k, p⟩ ht, fun h t ht => h t.tier t.sym t.mask ht⟩

/-- What a decode answers (41_decoder.md R150), as `Code.decode_cases` says it, with the trial it takes as the first
explanation. -/
theorem Code.decode_explanations (c : Code) (hn : c.n % 4 = 0) (v : Codeword) (x : Syndrome) :
    (x = 0 ∧ c.decode v x = ⟨.noError, v, 0, 0, 0⟩) ∨
    (x ≠ 0 ∧ ∃ tier k p, c.FirstExplains x tier k p ∧ c.decode v x = ⟨.corrected, v ^^^ patternAt p k, tier, k, p⟩) ∨
    (x ≠ 0 ∧ (∀ tier k p, ¬ c.Explains x tier k p) ∧ c.decode v x = ⟨.due, v, 0, 0, 0⟩) := by
  rcases c.decode_cases v x with h | ⟨hx, ⟨tier, k, p⟩, hfind, hdec⟩ | ⟨hx, hfind, hdec⟩
  · exact .inl h
  · exact .inr (.inl ⟨hx, tier, k, p, (c.find?_trials_eq_some_iff hn x tier k p).1 hfind, hdec⟩)
  · exact .inr (.inr ⟨hx, (c.find?_trials_eq_none_iff hn x).1 hfind, hdec⟩)

/-- No two patterns are both the first explanation. -/
theorem Code.FirstExplains.unique {c : Code} {x : Syndrome} {tier k tier' k' : Nat} {p p' : Pattern} (hn : c.n % 4 = 0)
    (h : c.FirstExplains x tier k p) (h' : c.FirstExplains x tier' k' p') : tier = tier' ∧ k = k' ∧ p = p' := by
  rw [← c.find?_trials_eq_some_iff hn] at h h'
  simpa using h.symm.trans h'

/-- When a decode corrects, and by which pattern. -/
theorem Code.decode_eq_corrected_iff (c : Code) (hn : c.n % 4 = 0) (v w : Codeword) (x : Syndrome) (tier k : Nat) (p : Pattern) :
    c.decode v x = ⟨.corrected, w, tier, k, p⟩ ↔ x ≠ 0 ∧ c.FirstExplains x tier k p ∧ v ^^^ patternAt p k = w := by
  rcases c.decode_explanations hn v x with ⟨hx, hdec⟩ | ⟨hx, tier', k', p', hfirst, hdec⟩ | ⟨-, hnone, hdec⟩
  · rw [hdec]
    simp [hx]
  · rw [hdec, DecodeResult.mk.injEq]
    constructor
    · rintro ⟨-, rfl, rfl, rfl, rfl⟩
      exact ⟨hx, hfirst, rfl⟩
    · rintro ⟨-, hfirst', rfl⟩
      obtain ⟨rfl, rfl, rfl⟩ := hfirst.unique hn hfirst'
      exact ⟨rfl, rfl, rfl, rfl, rfl⟩
  · simp [hdec, Code.FirstExplains, hnone]

theorem Code.decode_outcome_corrected_iff (c : Code) (hn : c.n % 4 = 0) (v : Codeword) (x : Syndrome) :
    (c.decode v x).outcome = .corrected ↔ x ≠ 0 ∧ ∃ tier k p, c.Explains x tier k p := by
  rcases c.decode_explanations hn v x with ⟨hx, hdec⟩ | ⟨hx, tier, k, p, hfirst, hdec⟩ | ⟨-, hnone, hdec⟩
  · rw [hdec]
    simp [hx]
  · exact iff_of_true (by rw [hdec]) ⟨hx, tier, k, p, hfirst.1⟩
  · simp [hdec, hnone]

theorem Code.decode_outcome_noError_iff (c : Code) (v : Codeword) (x : Syndrome) :
    (c.decode v x).outcome = .noError ↔ x = 0 := by
  rcases c.decode_cases v x with ⟨hx, hdec⟩ | ⟨hx, t, -, hdec⟩ | ⟨hx, -, hdec⟩
  · exact iff_of_true (by rw [hdec]) hx
  · exact iff_of_false (by simp [hdec]) hx
  · exact iff_of_false (by simp [hdec]) hx

/-- DECODE on a committed configuration, by the record of the decode (41_decoder.md R160). -/
theorem exec_decode_of_decode_eq {s : State} {outcome : DecodeOutcome} {w : Codeword} {tier k : Nat} {p : Pattern}
    (hcfg : s.cfgOk = true) (hdec : s.code.decode s.cw (s.code.syn s.cw) = ⟨outcome, w, tier, k, p⟩) :
    exec .decode s = .next { s with
      syndrome := s.code.syn s.cw, decInfo := packDecInfo tier k p, corrected := w
      msg := if outcome = .due then 0 else s.code.msg w
      lastOp := 0x2, result := outcome.code, pending := none, delay := 0 } := by
  rcases execDecode_cases s with ⟨hfalse, -⟩ | ⟨-, hexec⟩
  · simp [hcfg] at hfalse
  · rw [Code.decodeWord, hdec] at hexec
    exact hexec

/-- Settles O11: one outcome of the decode for each clause. -/
theorem decodeTakesTheFirstExplanation : Obligations.DecodeTakesTheFirstExplanation := by
  intro s hcfg hn
  refine ⟨fun hzero => ?_, fun tier k p hx hexp hfirst => ?_, fun hx hnone => ?_⟩
  · have hdec : s.code.decode s.cw (s.code.syn s.cw) = ⟨.noError, s.cw, 0, 0, 0⟩ := if_pos hzero
    rw [exec_decode_of_decode_eq hcfg hdec, hzero]
    rfl
  · exact exec_decode_of_decode_eq hcfg ((s.code.decode_eq_corrected_iff hn _ _ _ _ _ _).2 ⟨hx, ⟨hexp, hfirst⟩, rfl⟩)
  · rcases s.code.decode_explanations hn s.cw (s.code.syn s.cw) with ⟨hzero, -⟩ | ⟨-, tier, k, p, hfirst, -⟩ | ⟨-, -, hdec⟩
    · exact absurd hzero hx
    · exact absurd hfirst.1 (hnone tier k p)
    · exact exec_decode_of_decode_eq hcfg hdec

end Sys2Proof.Machine
end

section
/-! SUPPORT. The family 41_decoder.md: what a decode makes of an error in one symbol under a committed configuration
(spec/41_decoder.md R162 to R165). -/

namespace Sys2Proof.Machine

/-! ## Columns and patterns -/

/-- A single bit of a symbol is explained by its own column. -/
theorem Code.columnsOf_bit (c : Code) (k : Nat) {b : Nat} (hb : b < 4) : c.columnsOf k (1#4 <<< b) = c.col.getD (4 * k + b) 0 := by
  match b, hb with
  | 0, _ | 1, _ | 2, _ | 3, _ => exact BitVec.zero_xor

/-- Bit `j` is bit `j mod 4` of symbol `j div 4`. -/
theorem patternAt_bit (j : Nat) : patternAt (1#4 <<< (j % 4)) (j / 4) = oneBit j := by
  refine BitVec.eq_of_getLsbD_eq fun i hi => ?_
  rw [getLsbD_patternAt, getLsbD_oneBit, Bool.eq_iff_iff]
  simp only [BitVec.getLsbD_shiftLeft, BitVec.getLsbD_one, Nat.ofNat_pos, decide_true, Bool.true_and, Bool.and_eq_true,
    decide_eq_true_eq, Bool.not_eq_eq_eq_not, Bool.not_true, decide_eq_false_iff_not, not_lt]
  omega

theorem patternAt_cancel (u : Codeword) (p : Pattern) (k : Nat) : u ^^^ patternAt p k ^^^ patternAt p k = u := by
  rw [BitVec.xor_assoc, BitVec.xor_self, BitVec.xor_zero]

/-- Tier 1 explains the syndromes that are columns (41_decoder.md R152). -/
theorem Code.explains_tier1_iff (c : Code) (hn : c.n % 4 = 0) (x : Syndrome) (k : Nat) (p : Pattern) :
    c.Explains x 1 k p ↔ ∃ j, j < c.n ∧ k = j / 4 ∧ p = 1#4 <<< (j % 4) ∧ c.col.getD j 0 = x := by
  rw [Code.Explains, mem_tierMasks_one_iff]
  constructor
  · rintro ⟨hk, ⟨b, hb, rfl⟩, hsum⟩
    rw [c.columnsOf_bit k hb] at hsum
    exact ⟨4 * k + b, by omega, by omega, by rw [show (4 * k + b) % 4 = b by omega], hsum⟩
  · rintro ⟨j, hj, rfl, rfl, hcol⟩
    have hb : j % 4 < 4 := Nat.mod_lt j (by decide)
    exact ⟨by omega, ⟨j % 4, hb, rfl⟩, by rw [c.columnsOf_bit _ hb, Nat.div_add_mod, hcol]⟩

/-- Tier 2 explains the syndromes of whole symbols (41_decoder.md R153). -/
theorem Code.explains_tier2_iff (c : Code) (x : Syndrome) (k : Nat) (p : Pattern) :
    c.Explains x 2 k p ↔ k < c.n / 4 ∧ p = 0xF ∧ c.columnsOf k 0xF = x := by
  rw [Code.Explains, mem_tierMasks_two_iff]
  exact and_congr_right fun _ => and_congr_right fun hp => by rw [hp]

theorem Code.Explains.tier_pos {c : Code} {x : Syndrome} {tier k : Nat} {p : Pattern} (h : c.Explains x tier k p) : 1 ≤ tier :=
  (tier_bounds_of_mem_tierMasks h.2.1).1

/-- The patterns of the symbols that explain a syndrome in some tier are all but the zero pattern (41_decoder.md R161). -/
theorem Code.exists_explains_iff (c : Code) (x : Syndrome) :
    (∃ tier k p, c.Explains x tier k p) ↔ ∃ k p, k < c.n / 4 ∧ p ≠ 0 ∧ c.columnsOf k p = x := by
  simp only [Code.Explains, mem_tierMasks_iff]
  constructor
  · rintro ⟨tier, k, p, hk, ⟨hp, -⟩, hsum⟩
    exact ⟨k, p, hk, hp, hsum⟩
  · rintro ⟨k, p, hk, hp, hsum⟩
    exact ⟨tierOf p, k, p, hk, ⟨hp, rfl⟩, hsum⟩

namespace Code.Committed

variable {c : Code}

theorem col_ne_zero (hc : c.Committed) {j : Nat} (hj : j < c.n) : c.col.getD j 0 ≠ 0 := by
  have hcheck := hc.check
  simp only [Code.commitOk, Code.columnOk, Bool.and_eq_true, List.all_eq_true, List.mem_range, decide_eq_true_eq] at hcheck
  obtain ⟨hcolumns, -⟩ := hcheck
  exact (hcolumns j hj).2

/-- The columns are pairwise distinct (44_pipeline_config.md R250). -/
theorem col_injective (hc : c.Committed) {j j' : Nat} (hj : j < c.n) (hj' : j' < c.n)
    (heq : c.col.getD j 0 = c.col.getD j' 0) : j = j' := by
  have hcheck := hc.check
  simp only [Code.commitOk, Code.columnDistinct, Bool.and_eq_true, List.all_eq_true, List.mem_range, decide_eq_true_eq] at hcheck
  obtain ⟨-, hdistinct⟩ := hcheck
  rcases Nat.lt_trichotomy j j' with hlt | hjj | hgt
  · exact absurd heq (hdistinct j hj j' hj' hlt)
  · exact hjj
  · exact absurd heq.symm (hdistinct j' hj' j hj hgt)

theorem syn_pattern (hc : c.Committed) {k : Nat} (p : Pattern) (hk : k < c.n / 4) : c.syn (patternAt p k) = c.columnsOf k p := by
  obtain ⟨-, -, hpattern⟩ := committedColumnsGiveSyndromes c hc
  exact hpattern k p hk

/-- An error in one symbol of a codeword has the syndrome of its pattern (40_syndrome.md R133). -/
theorem syn_codeword_xor_pattern (hc : c.Committed) {u : Codeword} (hu : c.syn u = 0) {k : Nat} (p : Pattern) (hk : k < c.n / 4) :
    c.syn (u ^^^ patternAt p k) = c.columnsOf k p := by
  rw [c.syn_xor, hu, hc.syn_pattern p hk]
  exact BitVec.zero_xor

/-- The decode corrects the words whose syndrome is that of an error in one symbol (41_decoder.md R162). -/
theorem decodeWord_corrected_iff (hc : c.Committed) (v : Codeword) : (c.decodeWord v).outcome = .corrected ↔
    c.syn v ≠ 0 ∧ ∃ k p, k < c.n / 4 ∧ p ≠ 0 ∧ c.syn v = c.syn (patternAt p k) := by
  rw [Code.decodeWord, c.decode_outcome_corrected_iff hc.symbols, c.exists_explains_iff]
  refine and_congr_right fun _ => exists_congr fun k => exists_congr fun p => and_congr_right fun hk => and_congr_right fun _ => ?_
  rw [hc.syn_pattern p hk, eq_comm]

end Code.Committed

/-- A word has the syndrome of an error exactly when it is a codeword with that error (40_syndrome.md R132). -/
theorem Code.syn_eq_syn_iff (c : Code) (v e : Codeword) : c.syn v = c.syn e ↔ ∃ u, c.syn u = 0 ∧ v = u ^^^ e := by
  constructor
  · intro heq
    refine ⟨v ^^^ e, ?_, ?_⟩
    · rw [c.syn_xor, heq]
      exact BitVec.xor_self
    · rw [BitVec.xor_assoc, BitVec.xor_self, BitVec.xor_zero]
  · rintro ⟨u, hu, rfl⟩
    rw [c.syn_xor, hu]
    exact BitVec.zero_xor

/-- Settles O12: the explanations are the errors in one symbol, and linearity turns a syndrome into a codeword. -/
theorem oneSymbolErrorsAreExactlyTheCorrectedOnes : Obligations.OneSymbolErrorsAreExactlyTheCorrectedOnes := by
  intro c v hc
  have hcorrected := hc.decodeWord_corrected_iff v
  refine ⟨hcorrected, hcorrected.trans (and_congr_right fun _ => ?_), c.decode_outcome_noError_iff v _, ?_⟩
  · simp only [c.syn_eq_syn_iff]
    constructor
    · rintro ⟨k, p, hk, hp, u, hu, hv⟩
      exact ⟨u, k, p, hu, hk, hp, hv⟩
    · rintro ⟨u, k, p, hu, hk, hp, hv⟩
      exact ⟨k, p, hk, hp, u, hu, hv⟩
  · cases (c.decodeWord v).outcome <;> decide

/-- Settles O13: the correction flips a pattern with the syndrome of the word. -/
theorem correctedValueIsACodeword : Obligations.CorrectedValueIsACodeword :=
  fun _ _ hc hout => Code.syn_decodeWord_of_corrected hc.check hc.symbols hout

/-- Settles O14: the syndrome is the column of the bit, and no other column is the same. -/
theorem singleBitErrorsAreCorrected : Obligations.SingleBitErrorsAreCorrected := by
  intro c u j hc hu hj
  have hsyn : c.syn (u ^^^ oneBit j) = c.col.getD j 0 := by
    rw [c.syn_xor, hu, Code.syn_oneBit hc.check hj]
    exact BitVec.zero_xor
  rw [hsyn, c.decode_eq_corrected_iff hc.symbols, ← patternAt_bit j]
  refine ⟨hc.col_ne_zero hj, ⟨(c.explains_tier1_iff hc.symbols _ _ _).2 ⟨j, hj, rfl, rfl, rfl⟩, ?_⟩, patternAt_cancel _ _ _⟩
  intro tier k p hexp hbefore
  obtain htier | htier : tier < 1 ∨ tier = 1 := by
    unfold triedBefore at hbefore
    omega
  · exact absurd hexp.tier_pos (Nat.not_le.2 htier)
  · subst htier
    obtain ⟨j', hj', rfl, rfl, hcol⟩ := (c.explains_tier1_iff hc.symbols _ _ _).1 hexp
    obtain rfl := hc.col_injective hj' hj hcol
    exact triedBefore_asymm hbefore hbefore

/-- Only tier 1, and tier 2 on the earlier symbols, are tried before tier 2 on a symbol (41_decoder.md R165). -/
theorem Code.firstExplains_tier2_iff {c : Code} (hn : c.n % 4 = 0) {x : Syndrome} {k : Nat} (hk : k < c.n / 4)
    (hsum : c.columnsOf k 0xF = x) :
    c.FirstExplains x 2 k 0xF ↔ (∀ j, j < c.n → c.col.getD j 0 ≠ x) ∧ ∀ k', k' < k → c.columnsOf k' 0xF ≠ x := by
  constructor
  · rintro ⟨-, hfirst⟩
    refine ⟨fun j hj hcol => ?_, fun k' hk' hsum' => ?_⟩
    · exact hfirst 1 _ _ ((c.explains_tier1_iff hn _ _ _).2 ⟨j, hj, rfl, rfl, hcol⟩) (.inl (by decide))
    · exact hfirst 2 k' 0xF ((c.explains_tier2_iff _ _ _).2 ⟨by omega, rfl, hsum'⟩) (.inr ⟨rfl, .inl hk'⟩)
  · rintro ⟨hcols, hsums⟩
    refine ⟨(c.explains_tier2_iff _ _ _).2 ⟨hk, rfl, hsum⟩, fun tier k' p hexp hbefore => ?_⟩
    rcases hbefore with htier | ⟨rfl, hbefore⟩
    · obtain rfl : tier = 1 := by
        have := hexp.tier_pos
        omega
      obtain ⟨j, hj, -, -, hcol⟩ := (c.explains_tier1_iff hn _ _ _).1 hexp
      exact hcols j hj hcol
    · obtain ⟨-, rfl, hsum'⟩ := (c.explains_tier2_iff _ _ _).1 hexp
      rcases hbefore with hk' | ⟨-, hidx⟩
      · exact hsums k' hk' hsum'
      · exact Nat.lt_irrefl _ hidx

/-- Settles O15: the syndrome is X_k, and tier 2 on symbol k explains it first. -/
theorem wholeSymbolErrorsNeedTheirCondition : Obligations.WholeSymbolErrorsNeedTheirCondition := by
  intro c u k hc hu hk
  rw [Code.decodeWord, hc.syn_codeword_xor_pattern hu 0xF hk, c.decode_eq_corrected_iff hc.symbols,
    Code.firstExplains_tier2_iff hc.symbols hk rfl]
  exact and_congr_right fun _ => and_iff_left (patternAt_cancel u 0xF k)

end Sys2Proof.Machine
end

section
/-! SUPPORT. The family 42_enumerator.md: the sweep over the trials and the candidate list it finds (spec/42_enumerator.md R180 to
R189). -/

namespace Sys2Proof.Machine

/-! ## The trials -/

/-- Trial number `i`: pattern `i mod 16` in symbol `i div 16` (42_enumerator.md R183, R184). -/
def trialString (v : Codeword) (i : Nat) : Codeword := v ^^^ patternAt (BitVec.ofNat 4 (i % 16)) (i / 16)

theorem trialString_of_lt (v : Codeword) (k : Nat) {p : Nat} (hp : p < 16) :
    trialString v (16 * k + p) = v ^^^ patternAt (BitVec.ofNat 4 p) k := by
  rw [trialString, show (16 * k + p) % 16 = p by omega, show (16 * k + p) / 16 = k by omega]

/-- Sixteen patterns of each symbol, numbered through. -/
theorem flatMap_patterns_eq_map_trialString (v : Codeword) (m : Nat) :
    ((List.range m).flatMap fun k => (List.range 16).map fun p => v ^^^ patternAt (BitVec.ofNat 4 p) k) =
      (List.range (16 * m)).map (trialString v) := by
  induction m with
  | zero => rfl
  | succ m ih =>
    rw [List.range_succ (n := m), List.flatMap_append, ih, List.flatMap_singleton, Nat.mul_succ, List.range_add, List.map_append,
      List.map_map]
    exact congrArg _ (List.map_congr_left fun p hp => (trialString_of_lt v m (List.mem_range.1 hp)).symm)

/-- The enumerator tries the trials in the order of their numbers (42_enumerator.md R184). -/
theorem Code.trialStrings_eq_map (c : Code) (v : Codeword) :
    c.trialStrings v = (List.range (16 * c.nsym)).map (trialString v) := flatMap_patterns_eq_map_trialString v c.nsym

theorem Code.candidateOf_eq_some_iff (c : Code) (t x : Codeword) :
    c.candidateOf t = some x ↔ (c.decodeWord t).outcome = .corrected ∧ (c.decodeWord t).cw = x := by
  simp [Code.candidateOf]

/-- A trial yields the candidate of its trial string. -/
theorem Code.yields_iff (c : Code) (v : Codeword) (k p : Nat) (x : Codeword) :
    c.Yields v k p x ↔ k < c.nsym ∧ p < 16 ∧ c.candidateOf (v ^^^ patternAt (BitVec.ofNat 4 p) k) = some x := by
  rw [c.candidateOf_eq_some_iff]
  rfl

theorem Code.exists_yields_iff (c : Code) (v x : Codeword) :
    (∃ k p, c.Yields v k p x) ↔ ∃ t ∈ c.trialStrings v, c.candidateOf t = some x := by
  simp only [c.yields_iff, c.mem_trialStrings]
  constructor
  · rintro ⟨k, p, hk, hp, hx⟩
    exact ⟨_, ⟨k, p, hk, hp, rfl⟩, hx⟩
  · rintro ⟨_, ⟨k, p, hk, hp, rfl⟩, hx⟩
    exact ⟨k, p, hk, hp, hx⟩

/-! ## The sweep -/

/-- What one trial string does to the sweep: nothing new, one candidate too many, or a new entry (42_enumerator.md R186 to
R188). -/
theorem Code.sweep_cons_cases (c : Code) (maxc : Nat) (t : Codeword) (ts list : List Codeword) :
    ((∀ x, c.candidateOf t = some x → x ∈ list) ∧ c.sweep maxc (t :: ts) list = c.sweep maxc ts list) ∨
    (∃ x, c.candidateOf t = some x ∧ x ∉ list ∧ list.length = maxc ∧ c.sweep maxc (t :: ts) list = none) ∨
    (∃ x, c.candidateOf t = some x ∧ x ∉ list ∧ list.length ≠ maxc ∧
      c.sweep maxc (t :: ts) list = c.sweep maxc ts (list ++ [x])) := by
  rw [c.sweep_cons]
  cases hcand : c.candidateOf t with
  | none => exact .inl ⟨by simp, rfl⟩
  | some y =>
    by_cases hy : y ∈ list
    · exact .inl ⟨by simpa using hy, if_pos hy⟩
    · by_cases hfull : list.length = maxc
      · exact .inr (.inl ⟨y, rfl, hy, hfull, by simp [hy, hfull]⟩)
      · exact .inr (.inr ⟨y, rfl, hy, hfull, by simp [hy, hfull]⟩)

/-- A sweep that ends with nothing came upon one candidate more than the bound (42_enumerator.md R188); `found` is any property
of the candidates. -/
theorem Code.sweep_eq_none (c : Code) (maxc : Nat) {found : Codeword → Prop} (ts : List Codeword) :
    ∀ list, c.sweep maxc ts list = none → list.Nodup → list.length ≤ maxc → (∀ x ∈ list, found x) →
      (∀ t ∈ ts, ∀ x, c.candidateOf t = some x → found x) →
      ∃ out : List Codeword, out.Nodup ∧ out.length = maxc + 1 ∧ ∀ x ∈ out, found x := by
  induction ts with
  | nil => simp [Code.sweep]
  | cons t ts ih =>
    intro list hnone hnodup hlen hlist htrials
    obtain ⟨ht, hts⟩ := List.forall_mem_cons.1 htrials
    have hlonger : ∀ y, c.candidateOf t = some y → ∀ x ∈ list ++ [y], found x := fun y hy =>
      List.forall_mem_append.2 ⟨hlist, List.forall_mem_singleton.2 (ht y hy)⟩
    rcases c.sweep_cons_cases maxc t ts list with ⟨-, hsweep⟩ | ⟨y, hy, hnew, hfull, -⟩ | ⟨y, hy, hnew, hroom, hsweep⟩
    · exact ih list (hsweep ▸ hnone) hnodup hlen hlist hts
    · exact ⟨list ++ [y], List.concat_eq_append ▸ hnodup.concat hnew, by simp [hfull], hlonger y hy⟩
    · have hlen' : (list ++ [y]).length ≤ maxc := by
        rw [List.length_append, List.length_singleton]
        omega
      exact ih (list ++ [y]) (hsweep ▸ hnone) (List.concat_eq_append ▸ hnodup.concat hnew) hlen' (hlonger y hy) hts

/-! ## First-found order -/

/-- The first trial string that gives `x` comes before every one that gives `y` (42_enumerator.md R187). -/
def Code.FoundBefore (c : Code) (ts : List Codeword) (x y : Codeword) : Prop :=
  (ts.map c.candidateOf).idxOf (some x) < (ts.map c.candidateOf).idxOf (some y)

theorem Code.foundBefore_cons_of_ne {c : Code} {t : Codeword} {ts : List Codeword} {x y : Codeword}
    (hx : c.candidateOf t ≠ some x) (hy : c.candidateOf t ≠ some y) (h : c.FoundBefore ts x y) : c.FoundBefore (t :: ts) x y := by
  unfold Code.FoundBefore at *
  rw [List.map_cons, List.idxOf_cons_ne _ hx, List.idxOf_cons_ne _ hy]
  omega

theorem Code.foundBefore_cons_self {c : Code} {t : Codeword} (ts : List Codeword) {x y : Codeword}
    (hx : c.candidateOf t = some x) (hne : x ≠ y) : c.FoundBefore (t :: ts) x y := by
  unfold Code.FoundBefore
  rw [List.map_cons, hx, List.idxOf_cons_self, List.idxOf_cons_ne _ (by simpa using hne)]
  omega

/-- The entries a sweep adds are new and in first-found order (42_enumerator.md R187). -/
theorem Code.sweep_ordered (c : Code) (maxc : Nat) (ts : List Codeword) :
    ∀ list out, c.sweep maxc ts list = some out →
      ∃ new, out = list ++ new ∧ (∀ x ∈ new, x ∉ list) ∧ new.Pairwise (c.FoundBefore ts) := by
  induction ts with
  | nil =>
    rintro list out hsome
    obtain rfl : list = out := by simpa [Code.sweep] using hsome
    exact ⟨[], by simp⟩
  | cons t ts ih =>
    intro list out hsome
    rcases c.sweep_cons_cases maxc t ts list with ⟨hold, hsweep⟩ | ⟨-, -, -, -, hsweep⟩ | ⟨y, hy, hnew, -, hsweep⟩
    · obtain ⟨new, rfl, hdisj, hsorted⟩ := ih list out (hsweep ▸ hsome)
      have hother : ∀ x ∈ new, c.candidateOf t ≠ some x := fun x hx hcand => hdisj x hx (hold x hcand)
      exact ⟨new, rfl, hdisj, hsorted.imp_of_mem fun ha hb => Code.foundBefore_cons_of_ne (hother _ ha) (hother _ hb)⟩
    · simp [hsweep] at hsome
    · obtain ⟨new, rfl, hdisj, hsorted⟩ := ih (list ++ [y]) out (hsweep ▸ hsome)
      have hne : ∀ x ∈ new, y ≠ x := fun x hx heq => hdisj x hx (by simp [heq])
      have hother : ∀ x ∈ new, c.candidateOf t ≠ some x := fun x hx hcand => hne x hx (by simpa [hy] using hcand)
      refine ⟨y :: new, by simp, ?_, List.pairwise_cons.2 ⟨fun x hx => Code.foundBefore_cons_self ts hy (hne x hx), ?_⟩⟩
      · rintro x (_ | ⟨_, hx⟩)
        · exact hnew
        · exact fun hmem => hdisj x hx (List.mem_append_left _ hmem)
      · exact hsorted.imp_of_mem fun ha hb => Code.foundBefore_cons_of_ne (hother _ ha) (hother _ hb)

/-- The trial number of a candidate of the trial strings. -/
theorem Code.getElem_candidates_eq_some_iff (c : Code) (v : Codeword) {i : Nat}
    (hi : i < ((c.trialStrings v).map c.candidateOf).length) (x : Codeword) :
    ((c.trialStrings v).map c.candidateOf)[i] = some x ↔ c.Yields v (i / 16) (i % 16) x := by
  have hlt : i < 16 * c.nsym := by simpa [c.trialStrings_eq_map] using hi
  have hget : ((c.trialStrings v).map c.candidateOf)[i] = c.candidateOf (trialString v i) := by simp [c.trialStrings_eq_map]
  rw [hget, c.yields_iff, trialString]
  exact ⟨fun hx => ⟨by omega, by omega, hx⟩, fun ⟨_, _, hx⟩ => hx⟩

/-- First-found order by the numbers of the trials (42_enumerator.md R184). -/
theorem Code.FoundBefore.exists_earlier_trial {c : Code} {v x y : Codeword} (h : c.FoundBefore (c.trialStrings v) x y) :
    ∃ k p, c.Yields v k p x ∧ ∀ k' p', c.Yields v k' p' y → 16 * k + p < 16 * k' + p' := by
  unfold Code.FoundBefore at h
  have hi := Nat.lt_of_lt_of_le h List.idxOf_le_length
  refine ⟨_, _, (c.getElem_candidates_eq_some_iff v hi x).1 (List.getElem_idxOf hi), fun k' p' hy => ?_⟩
  obtain ⟨hk', hp', -⟩ := (c.yields_iff v k' p' y).1 hy
  have hj : 16 * k' + p' < ((c.trialStrings v).map c.candidateOf).length := by
    simp only [c.trialStrings_eq_map, List.length_map, List.length_range]
    omega
  have hget : ((c.trialStrings v).map c.candidateOf)[16 * k' + p'] = some y := by
    rw [c.getElem_candidates_eq_some_iff v hj, show (16 * k' + p') / 16 = k' by omega, show (16 * k' + p') % 16 = p' by omega]
    exact hy
  have hle : ((c.trialStrings v).map c.candidateOf).idxOf (some y) < 16 * k' + p' + 1 := by
    rw [← List.mem_take_iff_idxOf_lt (hget ▸ List.getElem_mem hj), List.mem_take_iff_getElem]
    exact ⟨16 * k' + p', by omega, hget⟩
  omega

/-! ## The answers of an enumeration -/

/-- The candidate list: distinct, within the bound, and just what the trials yield (42_enumerator.md R180). -/
theorem Code.enumerate_list (c : Code) {v : Codeword} {maxc : Nat} {list : List Codeword}
    (h : c.enumerate v maxc = .candidates list) :
    list.Nodup ∧ list.length ≤ maxc ∧ ∀ x, x ∈ list ↔ ∃ k p, c.Yields v k p x := by
  obtain ⟨-, hsweep⟩ := c.enumerate_candidates v maxc list h
  obtain ⟨hnodup, hlen, hmem⟩ := c.sweep_some maxc _ [] list hsweep List.nodup_nil (Nat.zero_le _)
  exact ⟨hnodup, hlen, fun x => by simp [hmem, c.exists_yields_iff]⟩

/-- Settles O19: what the sweep collects, in the order it collects it. -/
theorem candidateListIsCompleteDistinctAndOrdered : Obligations.CandidateListIsCompleteDistinctAndOrdered := by
  intro c v m list henum
  obtain ⟨hnodup, hlen, hmem⟩ := c.enumerate_list henum
  obtain ⟨hne, hsweep⟩ := c.enumerate_candidates v m list henum
  obtain ⟨new, rfl, -, hsorted⟩ := c.sweep_ordered m _ [] list hsweep
  exact ⟨List.length_pos_iff.2 hne, hlen, hnodup, hmem, hsorted.imp Code.FoundBefore.exists_earlier_trial⟩

/-- Distinct codewords that trials yield are at most as many as the list of a sweep that ends with one. -/
theorem Code.length_le_of_sweep_eq_some {c : Code} {v : Codeword} {maxc : Nat} {out list : List Codeword}
    (hsweep : c.sweep maxc (c.trialStrings v) [] = some out) (hnodup : list.Nodup)
    (hyields : ∀ x ∈ list, ∃ k p, c.Yields v k p x) : list.length ≤ maxc := by
  obtain ⟨-, hlen, hmem⟩ := c.sweep_some maxc _ [] out hsweep List.nodup_nil (Nat.zero_le _)
  have hsub : list ⊆ out := fun x hx => (hmem x).2 (.inr ((c.exists_yields_iff v x).1 (hyields x hx)))
  exact (hnodup.subperm hsub).length_le.trans hlen

theorem Code.enumerate_eq_capacity_iff_sweep (c : Code) (v : Codeword) (m : Nat) :
    c.enumerate v m = .capacity ↔ c.sweep m (c.trialStrings v) [] = none := by
  rcases c.enumerate_cases v m with ⟨hsweep, henum⟩ | ⟨hsweep, henum⟩ | ⟨list, -, hsweep, henum⟩ <;> simp [hsweep, henum]

/-- One distinct codeword more than the bound (42_enumerator.md R188). -/
theorem Code.enumerate_eq_capacity_iff (c : Code) (v : Codeword) (m : Nat) :
    c.enumerate v m = .capacity ↔
      ∃ list : List Codeword, list.Nodup ∧ list.length = m + 1 ∧ ∀ x ∈ list, ∃ k p, c.Yields v k p x := by
  rw [c.enumerate_eq_capacity_iff_sweep]
  constructor
  · intro hnone
    exact c.sweep_eq_none m _ [] hnone List.nodup_nil (Nat.zero_le _) (by simp)
      fun t ht x hx => (c.exists_yields_iff v x).2 ⟨t, ht, hx⟩
  · rintro ⟨list, hnodup, hlen, hyields⟩
    cases hsweep : c.sweep m (c.trialStrings v) [] with
    | none => rfl
    | some out =>
      have hle := Code.length_le_of_sweep_eq_some hsweep hnodup hyields
      omega

/-- No candidate at all (42_enumerator.md R189). -/
theorem Code.enumerate_eq_unrecoverable_iff (c : Code) (v : Codeword) (m : Nat) :
    c.enumerate v m = .unrecoverable ↔ ∀ k p x, ¬ c.Yields v k p x := by
  rcases c.enumerate_cases v m with ⟨-, henum⟩ | ⟨hsweep, henum⟩ | ⟨list, hne, -, henum⟩
  · obtain ⟨out, -, hlen, hyields⟩ := (c.enumerate_eq_capacity_iff v m).1 henum
    obtain ⟨x, hx⟩ := List.exists_mem_of_length_pos (l := out) (by omega)
    obtain ⟨k, p, hkp⟩ := hyields x hx
    exact iff_of_false (by simp [henum]) fun hnone => hnone k p x hkp
  · refine iff_of_true henum fun k p x hkp => ?_
    obtain ⟨-, -, hmem⟩ := c.sweep_some m _ [] [] hsweep List.nodup_nil (Nat.zero_le _)
    exact List.not_mem_nil ((hmem x).2 (.inr ((c.exists_yields_iff v x).1 ⟨k, p, hkp⟩)))
  · obtain ⟨x, hx⟩ := List.exists_mem_of_ne_nil list hne
    obtain ⟨-, -, hmem⟩ := c.enumerate_list henum
    obtain ⟨k, p, hkp⟩ := (hmem x).1 hx
    exact iff_of_false (by simp [henum]) fun hnone => hnone k p x hkp

/-- Settles O20: the two errors of an enumeration, for every bound. -/
theorem capacityErrorExactlyWhenTooManyCandidates : Obligations.CapacityErrorExactlyWhenTooManyCandidates :=
  fun c v m => ⟨c.enumerate_eq_capacity_iff v m, c.enumerate_eq_unrecoverable_iff v m⟩

end Sys2Proof.Machine
end

section
/-! SUPPORT. The family 42_enumerator.md: the trials and the candidates of a word under a committed configuration
(spec/42_enumerator.md R191 to R195). -/

namespace Sys2Proof.Machine

theorem patternAt_zero (k : Nat) : patternAt 0 k = 0 := by simp [patternAt]

/-- A correction flips one pattern of one symbol (41_decoder.md R150). -/
theorem Code.cw_of_outcome_corrected {c : Code} (hn : c.n % 4 = 0) {t : Codeword} (hout : (c.decodeWord t).outcome = .corrected) :
    ∃ k p, k < c.n / 4 ∧ (c.decodeWord t).cw = t ^^^ patternAt p k := by
  unfold Code.decodeWord at *
  rcases c.decode_explanations hn t (c.syn t) with ⟨-, hdec⟩ | ⟨-, tier, k, p, ⟨⟨hk, -, -⟩, -⟩, hdec⟩ | ⟨-, -, hdec⟩
  · simp [hdec] at hout
  · exact ⟨k, p, hk, by rw [hdec]⟩
  · simp [hdec] at hout

/-- Settles O21: the trial flips one symbol of the word, and its correction another. -/
theorem candidatesAreCodewordsNearTheWord : Obligations.CandidatesAreCodewordsNearTheWord := by
  intro c v m list hc henum
  obtain ⟨hnodup, hcodewords⟩ := Code.enumerate_distinct_codewords hc.check hc.symbols henum
  obtain ⟨-, -, hmem⟩ := c.enumerate_list henum
  refine ⟨hnodup, fun x hx => ⟨hcodewords x hx, ?_⟩⟩
  obtain ⟨k, p, hk, -, hout, hcw⟩ := (hmem x).1 hx
  obtain ⟨k', p', hk', hflip⟩ := Code.cw_of_outcome_corrected hc.symbols hout
  exact ⟨k, BitVec.ofNat 4 p, k', p', hk, hk', hcw.symm.trans hflip⟩

/-- A word one symbol away from a codeword is no DUE word (42_enumerator.md R191). -/
theorem Code.Committed.syn_trial_ne_zero {c : Code} (hc : c.Committed) {v : Codeword} (hdue : (c.decodeWord v).outcome = .due)
    {k : Nat} (hk : k < c.n / 4) (p : Pattern) : c.syn (v ^^^ patternAt p k) ≠ 0 := by
  intro hzero
  have hv : c.syn v ≠ 0 := by
    intro hv
    have hout : (c.decodeWord v).outcome = .noError := (c.decode_outcome_noError_iff v _).2 hv
    simp [hdue] at hout
  have hsyn : c.syn v = c.syn (patternAt p k) := by
    rw [c.syn_xor] at hzero
    exact BitVec.xor_eq_zero_iff.1 hzero
  have hp : p ≠ 0 := by
    rintro rfl
    rw [patternAt_zero, c.syn_zero] at hsyn
    exact hv hsyn
  have hout := (hc.decodeWord_corrected_iff v).2 ⟨hv, k, p, hk, hp, hsyn⟩
  simp [hdue] at hout

/-- The trial with pattern 0 is the word itself (42_enumerator.md R192). -/
theorem xor_patternAt_zero (v : Codeword) (k : Nat) : v ^^^ patternAt 0 k = v := by
  rw [patternAt_zero]
  exact BitVec.xor_zero

theorem Code.not_yields_zero_of_due {c : Code} {v : Codeword} (hdue : (c.decodeWord v).outcome = .due) (k : Nat) (x : Codeword) :
    ¬ c.Yields v k 0 x := by
  rintro ⟨-, -, hout, -⟩
  have hself : v ^^^ patternAt (BitVec.ofNat 4 0) k = v := xor_patternAt_zero v k
  simp [hself, hdue] at hout

/-- What the decodes of the trials with a nonzero pattern answer: 15 values for each symbol. -/
def Code.nonzeroTrialAnswers (c : Code) (v : Codeword) : List Codeword :=
  (List.range (c.n / 4)).flatMap fun k =>
    (List.range 15).map fun p => (c.decodeWord (v ^^^ patternAt (BitVec.ofNat 4 (p + 1)) k)).cw

theorem Code.length_nonzeroTrialAnswers (c : Code) (v : Codeword) : (c.nonzeroTrialAnswers v).length = c.n / 4 * 15 := by
  simp [Code.nonzeroTrialAnswers]

theorem Code.Yields.mem_nonzeroTrialAnswers {c : Code} {v x : Codeword} {k p : Nat} (h : c.Yields v k p x) (hp : p ≠ 0) :
    x ∈ c.nonzeroTrialAnswers v := by
  obtain ⟨hk, hp16, -, hcw⟩ := h
  refine List.mem_flatMap.2 ⟨k, List.mem_range.2 hk, List.mem_map.2 ⟨p - 1, List.mem_range.2 (by omega), ?_⟩⟩
  rw [show p - 1 + 1 = p by omega]
  exact hcw

/-- The candidates of a DUE word come from nonzero patterns only (42_enumerator.md R195). -/
theorem Code.length_le_of_due {c : Code} {v : Codeword} {m : Nat} {list : List Codeword}
    (hdue : (c.decodeWord v).outcome = .due) (henum : c.enumerate v m = .candidates list) : list.length ≤ c.n / 4 * 15 := by
  obtain ⟨hnodup, -, hmem⟩ := c.enumerate_list henum
  have hsub : list ⊆ c.nonzeroTrialAnswers v := by
    intro x hx
    obtain ⟨k, p, hkp⟩ := (hmem x).1 hx
    refine hkp.mem_nonzeroTrialAnswers ?_
    rintro rfl
    exact Code.not_yields_zero_of_due hdue k x hkp
  exact (hnodup.subperm hsub).length_le.trans_eq (c.length_nonzeroTrialAnswers v)

/-- Settles O22: a trial with a zero syndrome would make the word correctable, and pattern 0 leaves it as it is. -/
theorem trialsOfADueWord : Obligations.TrialsOfADueWord := by
  intro c v hc hdue
  refine ⟨fun k p hk => ?_, fun k => ?_, fun m list henum => Code.length_le_of_due hdue henum⟩
  · have hsyn := hc.syn_trial_ne_zero hdue hk p
    exact ⟨hsyn, fun hout => hsyn ((c.decode_outcome_noError_iff _ _).1 hout)⟩
  · exact ⟨xor_patternAt_zero v k, by rw [xor_patternAt_zero, hdue], fun x => Code.not_yields_zero_of_due hdue k x⟩

end Sys2Proof.Machine
end

section
/-! SUPPORT. The family 42_enumerator.md: what ENUM writes (spec/42_enumerator.md R182, R185, R190). -/

namespace Sys2Proof.Machine

theorem Code.decodeWord_of_due {c : Code} {v : Codeword} (h : (c.decodeWord v).outcome = .due) :
    c.decodeWord v = ⟨.due, v, 0, 0, 0⟩ := by
  unfold Code.decodeWord at *
  rcases c.decode_cases v (c.syn v) with ⟨-, hdec⟩ | ⟨-, t, -, hdec⟩ | ⟨-, -, hdec⟩
  · simp [hdec] at h
  · simp [hdec] at h
  · exact hdec

/-- Group D of a DUE word (30_encoding.md R108). -/
theorem State.writeDecode_of_due {s : State} (h : (s.code.decodeWord s.cw).outcome = .due) :
    s.writeDecode (s.code.decodeWord s.cw) =
      { s with syndrome := s.code.syn s.cw, decInfo := 0, corrected := s.cw, msg := 0 } := by
  have hinfo : packDecInfo 0 0 0 = 0 := by decide
  simp only [State.writeDecode, Code.decodeWord_of_due h, hinfo, if_true]

/-- ENUM past both pre-checks: the word is not DUE, or nothing was listed, or the list is stored (42_enumerator.md R182, R185). -/
theorem execEnum_checked_cases {s : State} {m : Nat} (hcfg : s.cfgOk = true) (hmaxc : m ≤ s.build.candCap) :
    ((s.code.decodeWord s.cw).outcome ≠ .due ∧
      execEnum m s = .next ((s.writeDecode (s.code.decodeWord s.cw)).clearCandidates.complete 0x3 .eNotDue)) ∨
    ((s.code.decodeWord s.cw).outcome = .due ∧ ∃ code,
      (s.code.enumerate s.cw m = .capacity ∧ code = .eCapacity ∨
        s.code.enumerate s.cw m = .unrecoverable ∧ code = .eUnrecoverableDue) ∧
      execEnum m s = .next ((s.writeDecode (s.code.decodeWord s.cw)).clearCandidates.complete 0x3 code)) ∨
    ((s.code.decodeWord s.cw).outcome = .due ∧ ∃ list, s.code.enumerate s.cw m = .candidates list ∧
      execEnum m s = .next (((s.writeDecode (s.code.decodeWord s.cw)).storeCandidates list).complete 0x3 .candidates)) := by
  rcases execEnum_cases m s with ⟨hfalse, -⟩ | ⟨-, hlarge, -⟩ | ⟨-, -, hnot, hexec⟩ | ⟨-, -, hdue, henum, hexec⟩ |
    ⟨-, -, hdue, henum, hexec⟩ | ⟨-, -, hdue, hlist⟩
  · simp [hcfg] at hfalse
  · simp [State.maxcTooLarge, Nat.not_lt.2 hmaxc] at hlarge
  · exact .inl ⟨hnot, hexec⟩
  · exact .inr (.inl ⟨hdue, _, .inl ⟨henum, rfl⟩, hexec⟩)
  · exact .inr (.inl ⟨hdue, _, .inr ⟨henum, rfl⟩, hexec⟩)
  · exact .inr (.inr ⟨hdue, hlist⟩)

/-- The buffer after the list of an enumeration is stored: the list, with scores 0, before the stale entries (42_enumerator.md R190). -/
theorem State.storeCandidates_entries (s : State) (list : List Codeword) :
    (∀ c, c < list.length → (s.storeCandidates list).candScore.getD c 0 = 0) ∧
    (∀ c, list.length ≤ c → (s.storeCandidates list).candCw.getD c 0 = s.candCw.getD c 0 ∧
      (s.storeCandidates list).candScore.getD c 0 = s.candScore.getD c 0) := by
  have hcw : (s.storeCandidates list).candCw = overwrite list s.candCw := rfl
  have hscore : (s.storeCandidates list).candScore = overwrite (List.replicate list.length 0) s.candScore := by simp [overwrite]
  refine ⟨fun c hc => ?_, fun c hc => ⟨?_, ?_⟩⟩
  · rw [hscore, getD_overwrite, List.length_replicate, if_pos hc, List.getD_replicate 0 hc]
  · rw [hcw, getD_overwrite, if_neg (Nat.not_lt.2 hc)]
  · rw [hscore, getD_overwrite, List.length_replicate, if_neg (Nat.not_lt.2 hc)]

/-- Settles O17: the list fits the buffer, so all of it is in use. -/
theorem enumStoresTheCandidateList : Obligations.EnumStoresTheCandidateList := by
  intro s m list hwidths hcfg hmaxc hdue henum
  obtain ⟨-, -, hcap⟩ := Build.limits hwidths.build
  obtain ⟨-, hlen, -⟩ := s.code.enumerate_list henum
  rcases execEnum_checked_cases hcfg hmaxc with ⟨hnot, -⟩ | ⟨-, code, hnone, -⟩ | ⟨-, list', henum', hexec⟩
  · exact absurd hdue hnot
  · simp [henum] at hnone
  · obtain rfl : list = list' := by simpa [henum] using henum'
    rw [State.writeDecode_of_due hdue] at hexec
    obtain ⟨hscores, hstale⟩ := State.storeCandidates_entries
      { s with syndrome := s.code.syn s.cw, decInfo := 0, corrected := s.cw, msg := 0 } list
    exact ⟨_, hexec, rfl, State.storeCandidates_candidates _ list (by omega), hscores, hstale⟩

/-- Settles O18: group D of the word, with group Z after it. -/
theorem enumWithoutCandidatesClearsTheBuffer : Obligations.EnumWithoutCandidatesClearsTheBuffer := by
  intro s m hcfg hmaxc
  refine ⟨fun hnot => ?_, fun code hdue hnone => ?_⟩
  · rcases execEnum_checked_cases hcfg hmaxc with ⟨-, hexec⟩ | ⟨hdue, -⟩ | ⟨hdue, -⟩
    · rw [State.writeDecode, if_neg hnot] at hexec
      exact hexec
    · exact absurd hdue hnot
    · exact absurd hdue hnot
  · rcases execEnum_checked_cases hcfg hmaxc with ⟨hnot, -⟩ | ⟨-, code', hnone', hexec⟩ | ⟨-, list, henum, -⟩
    · exact absurd hdue hnot
    · obtain rfl : code = code' := by
        rcases hnone with ⟨henum, rfl⟩ | ⟨henum, rfl⟩ <;> simpa [henum, eq_comm] using hnone'
      rw [State.writeDecode_of_due hdue] at hexec
      exact hexec
    · simp [henum] at hnone

end Sys2Proof.Machine
end

section
/-! SUPPORT. The family 43_scorer.md: the distance as a number of differing bits, and the score as a sum of distances that fits its
register (spec/43_scorer.md R210, R211). -/

namespace Sys2Proof.Machine

theorem popcount_eq_length_filter {m : Nat} (w : Nat) (v : BitVec m) :
    popcount w v = ((List.range w).filter fun i => v.getLsbD i).length := by
  induction w with
  | zero => rfl
  | succ w ih =>
    rw [popcount, ih, List.range_succ, List.filter_append, List.length_append]
    cases hbit : v.getLsbD w <;> simp [hbit]

/-- The set bits of an XOR are the bits in which its arguments differ (00_scope.md R16). -/
theorem popcount_xor {m : Nat} (w : Nat) (a b : BitVec m) :
    popcount w (a ^^^ b) = ((List.range w).filter fun i => a.getLsbD i != b.getLsbD i).length := by
  simp only [popcount_eq_length_filter, BitVec.getLsbD_xor]

theorem Code.dist_of_codewords {c : Code} (h : c.distMode = true) (x w : Codeword) : c.dist x w = popcount c.n (x ^^^ w) :=
  if_pos h

theorem Code.dist_of_messages {c : Code} (h : c.distMode = false) (x w : Codeword) :
    c.dist x w = popcount c.k (c.msg x ^^^ c.msg w) := by
  simp [Code.dist, h]

/-- Settles O23: below K, a bit of a message is the codeword's bit at the message's place (10_state.md R34). -/
theorem distanceCountsDifferingBits : Obligations.DistanceCountsDifferingBits := by
  intro c x w
  refine ⟨fun hmode => ?_, fun hmode => ?_⟩
  · rw [Code.dist_of_codewords hmode, popcount_xor]
  · rw [Code.dist_of_messages hmode, popcount_xor, Code.k]
    refine congrArg List.length (List.filter_congr fun i hi => ?_)
    have hk : i < c.k := List.mem_range.1 hi
    simp only [c.getLsbD_msg, hk, decide_true, Bool.true_and]

/-- No two words differ in more than N bits (43_scorer.md R210). -/
theorem Code.dist_le (c : Code) (x w : Codeword) : c.dist x w ≤ c.n := by
  cases hmode : c.distMode
  · rw [Code.dist_of_messages hmode]
    exact (popcount_le _ _).trans (Nat.sub_le _ _)
  · rw [Code.dist_of_codewords hmode]
    exact popcount_le _ _

theorem Code.score_le (c : Code) (sis : List Codeword) (x : Codeword) : c.score sis x ≤ sis.length * c.n := by
  have hsum := List.sum_le_card_nsmul (sis.map (c.dist x)) c.n (by simp [c.dist_le])
  simpa [Code.score] using hsum

theorem State.score_siWords (s : State) (x : Codeword) :
    s.code.score s.siWords x = ((List.range s.siCount.toNat).map fun m => s.code.dist x (s.si.getD m 0)).sum := by
  rw [Code.score, State.siWords, List.map_map]
  rfl

/-- Settles O25: each of at most SI_CAP distances is at most N. -/
theorem scoresNeverOverflow : Obligations.ScoresNeverOverflow := by
  intro s x hwidths hsi
  obtain ⟨hn, hcap⟩ : s.build.n ≤ 256 ∧ s.build.siCap ≤ 255 := by
    have hbuild := hwidths.build
    simp only [Build.wellFormed, Bool.and_eq_true, decide_eq_true_eq] at hbuild
    omega
  have hbound : s.code.score s.siWords x ≤ s.build.siCap * 256 := calc
    _ ≤ s.siWords.length * s.build.n := s.code.score_le s.siWords x
    _ ≤ s.build.siCap * 256 := Nat.mul_le_mul (s.length_siWords ▸ hsi) hn
  refine ⟨s.score_siWords x, hbound, by omega, ?_⟩
  rw [BitVec.toNat_ofNat]
  exact Nat.mod_eq_of_lt (by omega)

end Sys2Proof.Machine
end

section
/-! SUPPORT. The family 43_scorer.md: the pre-checks of the commands, and what CHOOSE writes past them (spec/43_scorer.md R213 to
R220, spec/60_exceptions.md R272, R273, R275). -/

namespace Sys2Proof.Machine

/-! ## The pre-checks -/

theorem exec_of_uncommitted {s : State} {i : Instr} (hcfg : s.cfgOk = false) (hi : i ≠ .commit) :
    exec i s = .next (s.complete i.op .eConfig) := by
  cases i with
  | commit => exact absurd rfl hi
  | syn | decode | enum maxc | choose | run maxc => exact withConfig_false hcfg

theorem execEnum_of_maxcTooLarge {s : State} {m : Nat} (hcfg : s.cfgOk = true) (hlarge : s.maxcTooLarge m = true) :
    execEnum m s = .next (s.complete 0x3 .eMalformed) :=
  (withConfig_true hcfg).trans (unlessMalformed_true hlarge)

/-- RUN makes both operand checks before anything else (44_pipeline_config.md R243). -/
theorem execRun_of_malformed {s : State} {m : Nat} (hcfg : s.cfgOk = true)
    (hlarge : s.maxcTooLarge m = true ∨ s.siCountTooLarge = true) :
    execRun m s = .next (s.complete 0x5 .eMalformed) := by
  rw [execRun, withConfig_true hcfg]
  cases hmaxc : s.maxcTooLarge m with
  | true => exact unlessMalformed_true rfl
  | false => exact (unlessMalformed_false rfl).trans (unlessMalformed_true (by simpa [hmaxc] using hlarge))

theorem execChoose_of_siCountTooLarge {s : State} (hcfg : s.cfgOk = true) (hlarge : s.siCountTooLarge = true) :
    execChoose s = .next (s.complete 0x4 .eMalformed) :=
  (withConfig_true hcfg).trans (unlessMalformed_true hlarge)

/-- CHOOSE past both pre-checks: an empty buffer is ambiguous (43_scorer.md R215), else a candidate is chosen. -/
theorem execChoose_checked {s : State} (hcfg : s.cfgOk = true) (hsi : s.siCount.toNat ≤ s.build.siCap) :
    (s.candCount = 0 → execChoose s = .next (s.complete 0x4 .eAmbiguous)) ∧
    (s.candCount ≠ 0 → execChoose s = .next (s.resolveDue.complete 0x4 .chosen)) := by
  have hsmall : s.siCountTooLarge = false := decide_eq_false (Nat.not_lt.2 hsi)
  rw [execChoose, withConfig_true hcfg, unlessMalformed_false hsmall]
  exact ⟨fun hempty => if_pos hempty, fun hne => if_neg hne⟩

/-- Settles O29: an error completion of a pre-check writes LAST_OP and RESULT and ends the command. -/
theorem preChecksWriteNothingElse : Obligations.PreChecksWriteNothingElse := by
  intro s
  refine ⟨fun hcfg i hi => exec_of_uncommitted hcfg hi, fun hcfg => ⟨fun m hm => ?_, fun m hm => ?_, fun hsi => ?_, ?_⟩⟩
  · exact execEnum_of_maxcTooLarge hcfg (decide_eq_true hm)
  · exact execRun_of_malformed hcfg (hm.imp decide_eq_true decide_eq_true)
  · exact execChoose_of_siCountTooLarge hcfg (decide_eq_true hsi)
  · exact fun hsi hempty => (execChoose_checked hcfg hsi).1 hempty

/-! ## The choice -/

/-- BEST is the earliest smallest score, in the shortcut too (43_scorer.md R213, R214). -/
theorem Code.choose_best_minimal (c : Code) {cands : List Codeword} (sis : List Codeword) (h : cands ≠ []) :
    (∀ i, i < cands.length →
      (c.choose cands sis).scores.getD (c.choose cands sis).best 0 ≤ (c.choose cands sis).scores.getD i 0) ∧
    (∀ i, i < (c.choose cands sis).best →
      (c.choose cands sis).scores.getD (c.choose cands sis).best 0 < (c.choose cands sis).scores.getD i 0) := by
  rcases c.choose_cases cands sis with ⟨-, hchoose⟩ | ⟨-, hchoose⟩ <;> rw [hchoose]
  · refine ⟨fun i hi => ?_, fun i hi => absurd hi (Nat.not_lt_zero i)⟩
    rw [List.getD_replicate 0 (List.length_pos_iff.2 h)]
    exact Nat.zero_le _
  · obtain ⟨-, hle, hlt⟩ := bestIndex_spec (cands.map (c.score sis)) (by simpa using h)
    exact ⟨fun i hi => hle i (by simpa using hi), hlt⟩

/-- The scores of the choice are those R211 and R214 give the candidates in use. -/
theorem State.scores_choose (s : State) :
    (s.code.choose s.candidates s.siWords).scores = (List.range s.candCount.toNat).map s.expectedScore := by
  rcases s.code.choose_cases s.candidates s.siWords with ⟨hshort, hchoose⟩ | ⟨hlong, hchoose⟩ <;> rw [hchoose]
  · rw [s.length_candidates, s.length_siWords] at hshort
    have hzero : s.expectedScore = fun _ => 0 := funext fun _ => if_pos hshort
    simp [hzero, s.length_candidates]
  · rw [s.length_candidates, s.length_siWords] at hlong
    simp [State.expectedScore, hlong, State.candidates, s.score_siWords]

theorem State.getD_scores_choose (s : State) {c : Nat} (hc : c < s.candCount.toNat) :
    (s.code.choose s.candidates s.siWords).scores.getD c 0 = s.expectedScore c := by
  simp [s.scores_choose, List.getD_eq_getElem?_getD, hc]

/-- The score registers after the CHOSEN writes: the scores in use before the stale ones (43_scorer.md R217). -/
theorem State.getD_resolveDue_candScore (s : State) (c : Nat) :
    s.resolveDue.candScore.getD c 0 =
      if c < s.candCount.toNat then BitVec.ofNat 32 (s.expectedScore c) else s.candScore.getD c 0 := by
  have hwritten : s.resolveDue.candScore =
      overwrite (((List.range s.candCount.toNat).map s.expectedScore).map (BitVec.ofNat 32)) s.candScore := by
    simp [State.resolveDue_eq_write, State.write, Code.choiceWrites, s.scores_choose]
  rw [hwritten, getD_overwrite]
  simp only [List.length_map, List.length_range]
  split_ifs with hc
  · simp [List.getD_eq_getElem?_getD, hc]
  · rfl

/-- Settles O24: the candidates in use are not empty, so the choice is one of them. -/
theorem chooseTakesTheEarliestMinimum : Obligations.ChooseTakesTheEarliestMinimum := by
  intro s hcfg hsi hne
  have hcands : s.candidates ≠ [] := by
    rw [← List.length_pos_iff, s.length_candidates]
    exact Nat.pos_of_ne_zero fun hzero => hne (BitVec.eq_of_toNat_eq hzero)
  have hbest : (s.code.choose s.candidates s.siWords).best < s.candCount.toNat :=
    s.length_candidates ▸ s.code.best_choose_lt s.siWords hcands
  obtain ⟨hle, hlt⟩ := s.code.choose_best_minimal s.siWords hcands
  rw [s.length_candidates] at hle
  rw [s.getD_scores_choose hbest] at hle hlt
  refine ⟨_, s.resolveDue.complete 0x4 .chosen, hbest, fun c hc => ?_, fun c hc => ?_,
    (execChoose_checked hcfg hsi).2 hne, ?_, fun c hc => ?_, fun c hc => ?_⟩
  · simpa only [s.getD_scores_choose hc] using hle c hc
  · simpa only [s.getD_scores_choose (hc.trans hbest)] using hlt c hc
  · rw [← s.getD_scores_choose hbest]
    rfl
  · rw [State.complete_candScore, s.getD_resolveDue_candScore, if_pos hc]
  · rw [State.complete_candScore, s.getD_resolveDue_candScore, if_neg (Nat.not_lt.2 hc)]

end Sys2Proof.Machine
end

section
/-! SUPPORT. The family 44_pipeline_config.md: RUN against DECODE, ENUM and CHOOSE (spec/44_pipeline_config.md R240,
R244, R245). -/

namespace Sys2Proof.Machine

section Checked

variable {s : State} {m : Nat}

theorem State.maxcTooLarge_eq_false (h : m ≤ s.build.candCap) : s.maxcTooLarge m = false := decide_eq_false (Nat.not_lt.2 h)

theorem State.siCountTooLarge_eq_false (h : s.siCount.toNat ≤ s.build.siCap) : s.siCountTooLarge = false :=
  decide_eq_false (Nat.not_lt.2 h)

/-- RUN past its pre-checks on a word that is not DUE: group D, then Group Z (30_encoding.md R108). -/
theorem execRun_of_not_due (hcfg : s.cfgOk = true) (hmaxc : m ≤ s.build.candCap) (hsi : s.siCount.toNat ≤ s.build.siCap)
    (hnot : (s.code.decodeWord s.cw).outcome ≠ .due) :
    execRun m s = .next ((s.writeDecode (s.code.decodeWord s.cw)).clearCandidates.complete 0x5
      (s.code.decodeWord s.cw).outcome.code) := by
  rw [execRun, withConfig_true hcfg, unlessMalformed_false (State.maxcTooLarge_eq_false hmaxc),
    unlessMalformed_false (State.siCountTooLarge_eq_false hsi)]
  cases hout : (s.code.decodeWord s.cw).outcome with
  | noError => rfl
  | corrected => rfl
  | due => exact absurd hout hnot

/-- ENUM and RUN past their pre-checks on a DUE word: both clear the candidates and report one error, or both store the list,
among which RUN chooses (42_enumerator.md R185, 44_pipeline_config.md R240). -/
theorem execEnum_execRun_of_due (hcfg : s.cfgOk = true) (hmaxc : m ≤ s.build.candCap) (hsi : s.siCount.toNat ≤ s.build.siCap)
    (hdue : (s.code.decodeWord s.cw).outcome = .due) :
    ((∀ list, s.code.enumerate s.cw m ≠ .candidates list) ∧ ∃ code,
      execEnum m s = .next ((s.writeDecode (s.code.decodeWord s.cw)).clearCandidates.complete 0x3 code) ∧
      execRun m s = .next ((s.writeDecode (s.code.decodeWord s.cw)).clearCandidates.complete 0x5 code)) ∨
    (∃ list, s.code.enumerate s.cw m = .candidates list ∧
      execEnum m s = .next (((s.writeDecode (s.code.decodeWord s.cw)).storeCandidates list).complete 0x3 .candidates) ∧
      execRun m s =
        .next (((s.writeDecode (s.code.decodeWord s.cw)).storeCandidates list).resolveDue.complete 0x5 .dueResolved)) := by
  have hsmall := State.maxcTooLarge_eq_false hmaxc
  rw [execEnum, execRun, withConfig_true hcfg, withConfig_true hcfg, unlessMalformed_false hsmall, unlessMalformed_false hsmall,
    unlessMalformed_false (State.siCountTooLarge_eq_false hsi), if_pos hdue, hdue]
  cases s.code.enumerate s.cw m with
  | capacity => exact .inl ⟨by simp, .eCapacity, rfl, rfl⟩
  | unrecoverable => exact .inl ⟨by simp, .eUnrecoverableDue, rfl, rfl⟩
  | candidates list => exact .inr ⟨list, rfl, rfl, rfl⟩

/-- Past its pre-checks ENUM writes everything a DECODE of CW wrote before it. -/
theorem execEnum_after_decode (hcfg : s.cfgOk = true) (hmaxc : m ≤ s.build.candCap) (code : ResultCode) :
    execEnum m ((s.writeDecode (s.code.decodeWord s.cw)).complete 0x2 code) = execEnum m s := by
  have hcfgAfter : ((s.writeDecode (s.code.decodeWord s.cw)).complete 0x2 code).cfgOk = true := hcfg
  have hmaxcAfter : m ≤ ((s.writeDecode (s.code.decodeWord s.cw)).complete 0x2 code).build.candCap := hmaxc
  rw [execEnum, execEnum, withConfig_true hcfg, withConfig_true hcfgAfter,
    unlessMalformed_false (State.maxcTooLarge_eq_false hmaxc), unlessMalformed_false (State.maxcTooLarge_eq_false hmaxcAfter)]
  rfl

/-- CAND_COUNT counts the whole list of an enumeration, so it is not 0 (42_enumerator.md R180, R185). -/
theorem State.storeCandidates_candCount_ne_zero (hwidths : s.Widths) (hmaxc : m ≤ s.build.candCap) {list : List Codeword}
    (henum : s.code.enumerate s.cw m = .candidates list) (u : State) : (u.storeCandidates list).candCount ≠ 0 := by
  obtain ⟨-, -, hcap⟩ := Build.limits hwidths.build
  obtain ⟨hpos, hlen, -⟩ := candidateListIsCompleteDistinctAndOrdered _ _ _ _ henum
  have hcount : (u.storeCandidates list).candCount.toNat = list.length :=
    (BitVec.toNat_ofNat _ _).trans (Nat.mod_eq_of_lt (by omega))
  exact fun hzero => hpos.ne' (hcount.symm.trans (congrArg BitVec.toNat hzero))

end Checked

/-- Settles O26: what RUN writes is what the last of the split commands leaves. -/
theorem runEqualsTheSplitCommands : Obligations.RunEqualsTheSplitCommands := by
  intro s m hwidths hcfg hmaxc hsi
  have hdecode : exec .decode s = .next ((s.writeDecode (s.code.decodeWord s.cw)).complete 0x2
      (s.code.decodeWord s.cw).outcome.code) := withConfig_true hcfg
  by_cases hdue : (s.code.decodeWord s.cw).outcome = .due
  · rcases execEnum_execRun_of_due hcfg hmaxc hsi hdue with ⟨hnone, code, henum, hrun⟩ | ⟨list, hlist, henum, hrun⟩
    · exact ⟨_, _, hrun, hdecode, absurd hdue, fun _ => ⟨_, (execEnum_after_decode hcfg hmaxc _).trans henum, fun _ => rfl,
        fun list hlist => absurd hlist (hnone list)⟩⟩
    · have hchoose := (execChoose_checked
        (s := ((s.writeDecode (s.code.decodeWord s.cw)).storeCandidates list).complete 0x3 .candidates) hcfg hsi).2
        (State.storeCandidates_candCount_ne_zero hwidths hmaxc hlist (s.writeDecode (s.code.decodeWord s.cw)))
      exact ⟨_, _, hrun, hdecode, absurd hdue, fun _ => ⟨_, (execEnum_after_decode hcfg hmaxc _).trans henum,
        fun hnone => absurd hlist (hnone list), fun _ _ => ⟨_, hchoose, rfl⟩⟩⟩
  · exact ⟨_, _, execRun_of_not_due hcfg hmaxc hsi hdue, hdecode, fun _ => rfl, fun h => absurd h hdue⟩

/-- RUN takes the result and the message from the decode of a word that is not DUE (44_pipeline_config.md R240). -/
theorem exec_run_of_decodeWord_eq {s : State} {m : Nat} (hcfg : s.cfgOk = true) (hmaxc : m ≤ s.build.candCap)
    (hsi : s.siCount.toNat ≤ s.build.siCap) {dec : DecodeResult} (hdec : s.code.decodeWord s.cw = dec)
    (hnot : dec.outcome ≠ .due) :
    ∃ t, exec (.run m) s = .next t ∧ t.result = dec.outcome.code ∧ t.corrected = dec.cw ∧ t.msg = s.code.msg dec.cw := by
  subst hdec
  exact ⟨_, execRun_of_not_due hcfg hmaxc hsi hnot, rfl, rfl, if_neg hnot⟩

/-- Settles O28: the decode of a codeword answers the codeword, and so does that of a codeword with a flipped bit (R164). -/
theorem runRecoversCodewordsAndOneBitErrors : Obligations.RunRecoversCodewordsAndOneBitErrors := by
  intro s m hc hcfg hmaxc hsi
  refine ⟨fun hzero => ?_, fun u j hu hj hcw => ?_⟩
  · have hdec : s.code.decodeWord s.cw = ⟨.noError, s.cw, 0, 0, 0⟩ := if_pos hzero
    exact exec_run_of_decodeWord_eq hcfg hmaxc hsi hdec nofun
  · have hdec : s.code.decodeWord s.cw = ⟨.corrected, u, 1, j / 4, 1#4 <<< (j % 4)⟩ :=
      hcw ▸ singleBitErrorsAreCorrected s.code u j hc hu hj
    exact exec_run_of_decodeWord_eq hcfg hmaxc hsi hdec nofun

end Sys2Proof.Machine
end

section
/-! SUPPORT. The family 44_pipeline_config.md: the result codes a command can report (spec/44_pipeline_config.md R242). -/

namespace Sys2Proof.Machine

/-- The codes a command's completion can record: R135, R160, R185, R220, R240 and R252, without the E_ILLEGAL_OP of a word that
is no command. -/
def resultCodesOf : Instr → List ResultCode
  | .syn => [.eConfig, .ok]
  | .decode => [.eConfig, .noError, .corrected, .due]
  | .enum _ => [.eConfig, .eMalformed, .eNotDue, .eCapacity, .eUnrecoverableDue, .candidates]
  | .choose => [.eConfig, .eMalformed, .eAmbiguous, .chosen]
  | .run _ => [.eConfig, .eMalformed, .noError, .corrected, .eCapacity, .eUnrecoverableDue, .dueResolved]
  | .commit => [.eConfig, .ok]

/-- A completion that records one of the command's codes. -/
def ReportsOneOf (codes : List ResultCode) (out : Host.Outcome State Fault Refusal) : Prop :=
  ∃ t, out = .next t ∧ t.result ∈ codes

section Codes

variable (s : State)

theorem reportsOneOf_of_next {codes : List ResultCode} {out : Host.Outcome State Fault Refusal} {t : State}
    {op : BitVec 4} {code : ResultCode} (hexec : out = .next (t.complete op code)) (hcode : code ∈ codes) :
    ReportsOneOf codes out := ⟨_, hexec, hcode⟩

theorem execSyn_codes : ReportsOneOf (resultCodesOf .syn) (execSyn s) := by
  rcases execSyn_cases s with ⟨-, hexec⟩ | ⟨-, hexec⟩ <;>
  exact reportsOneOf_of_next hexec (by decide)

theorem execDecode_codes : ReportsOneOf (resultCodesOf .decode) (execDecode s) := by
  have houtcome (o : DecodeOutcome) : o.code ∈ resultCodesOf .decode := by cases o <;> decide
  rcases execDecode_cases s with ⟨-, hexec⟩ | ⟨-, hexec⟩
  · exact reportsOneOf_of_next hexec (by decide)
  · exact reportsOneOf_of_next hexec (houtcome _)

theorem execEnum_codes (m : Nat) : ReportsOneOf (resultCodesOf (.enum m)) (execEnum m s) := by
  rcases execEnum_cases m s with ⟨-, hexec⟩ | ⟨-, -, hexec⟩ | ⟨-, -, -, hexec⟩ | ⟨-, -, -, -, hexec⟩ |
    ⟨-, -, -, -, hexec⟩ | ⟨-, -, -, list, -, hexec⟩ <;>
  exact reportsOneOf_of_next hexec (by simp [resultCodesOf])

theorem execChoose_codes : ReportsOneOf (resultCodesOf .choose) (execChoose s) := by
  rcases execChoose_cases s with ⟨-, hexec⟩ | ⟨-, -, hexec⟩ | ⟨-, -, -, hexec⟩ | ⟨-, -, -, hexec⟩ <;>
  exact reportsOneOf_of_next hexec (by decide)

/-- A word that is not DUE gives RUN the code of its decode, so RUN does not report DUE. -/
theorem execRun_codes (m : Nat) : ReportsOneOf (resultCodesOf (.run m)) (execRun m s) := by
  have houtcome (o : DecodeOutcome) (hnot : o ≠ .due) : o.code ∈ resultCodesOf (.run m) := by
    cases o with
    | noError | corrected => simp [DecodeOutcome.code, resultCodesOf]
    | due => exact absurd rfl hnot
  rcases execRun_cases m s with ⟨-, hexec⟩ | ⟨-, -, hexec⟩ | ⟨-, -, -, hnot, hexec⟩ | ⟨-, -, -, -, -, hexec⟩ |
    ⟨-, -, -, -, -, hexec⟩ | ⟨-, -, -, -, list, -, hexec⟩
  · exact reportsOneOf_of_next hexec (by simp [resultCodesOf])
  · exact reportsOneOf_of_next hexec (by simp [resultCodesOf])
  · exact reportsOneOf_of_next hexec (houtcome _ hnot)
  · exact reportsOneOf_of_next hexec (by simp [resultCodesOf])
  · exact reportsOneOf_of_next hexec (by simp [resultCodesOf])
  · exact reportsOneOf_of_next hexec (by simp [resultCodesOf])

theorem execCommit_codes : ReportsOneOf (resultCodesOf .commit) (execCommit s) := by
  rcases execCommit_cases s with ⟨-, hexec⟩ | ⟨-, hexec⟩ <;>
  exact reportsOneOf_of_next hexec (by decide)

theorem exec_codes (i : Instr) : ReportsOneOf (resultCodesOf i) (exec i s) := by
  cases i with
  | syn => exact execSyn_codes s
  | decode => exact execDecode_codes s
  | enum m => exact execEnum_codes s m
  | choose => exact execChoose_codes s
  | run m => exact execRun_codes s m
  | commit => exact execCommit_codes s

end Codes

theorem eq_choose_of_eAmbiguous_mem {i : Instr} (h : .eAmbiguous ∈ resultCodesOf i) : i = .choose := by
  cases i with
  | choose => rfl
  | syn | decode | enum m | run m | commit => simp [resultCodesOf] at h

/-- Settles O27: DUE, E_NOT_DUE and E_AMBIGUOUS are no codes of RUN, and E_AMBIGUOUS is a code of CHOOSE alone. -/
theorem runNeverReportsAmbiguous : Obligations.RunNeverReportsAmbiguous := by
  intro s
  refine ⟨fun m => ?_, fun i t hexec hambiguous => ?_⟩
  · obtain ⟨t, hexec, hcode⟩ := exec_codes s (.run m)
    have hnot : ∀ code ∈ resultCodesOf (.run m), code ≠ .due ∧ code ≠ .eNotDue ∧ code ≠ .eAmbiguous := by
      simp [resultCodesOf]
    exact ⟨t, hexec, hnot _ hcode⟩
  · obtain ⟨t', hexec', hcode⟩ := exec_codes s i
    obtain rfl := Host.Outcome.next.inj (hexec'.symm.trans hexec)
    exact eq_choose_of_eAmbiguous_mem (hambiguous ▸ hcode)

end Sys2Proof.Machine
end

section
/-! SUPPORT. The family 44_pipeline_config.md: the check COMMIT makes of the columns (spec/44_pipeline_config.md R250 to R254). -/

namespace Sys2Proof.Machine

theorem Code.commitOk_iff (c : Code) : c.commitOk = true ↔
    (∀ j, j < c.n → c.colAt j = c.syn (oneBit j) ∧ c.colAt j ≠ 0) ∧
    ∀ j j', j < j' → j' < c.n → c.colAt j ≠ c.colAt j' := by
  simp only [Code.commitOk, Code.columnOk, Code.columnDistinct, Bool.and_eq_true, List.all_eq_true, List.mem_range,
    decide_eq_true_eq]
  exact and_congr_right fun _ =>
    ⟨fun h j j' hlt hj' => h j (hlt.trans hj') j' hj' hlt, fun h j _ j' hj' hlt => h j j' hlt hj'⟩

/-- Row i gives bit R-1-i of the syndrome of bit j (44_pipeline_config.md R250). -/
theorem Code.getLsbD_syn_oneBit (c : Code) {i j : Nat} (hn : c.n ≤ 256) (hr : c.r ≤ 32) (hi : i < c.r) (hj : j < c.n) :
    (c.syn (oneBit j)).getLsbD (c.r - 1 - i) = (c.rowAt i).getLsbD j := by
  have hrow : c.r - 1 - (c.r - 1 - i) = i := by omega
  have hbit : c.r - 1 - i < c.r := by omega
  rw [c.syn_getLsbD _ _ (by omega), hrow, parity_and_oneBit _ _ _ hn, decide_eq_true hbit, decide_eq_true hj,
    Bool.true_and, Bool.true_and]

/-- A value is the syndrome of bit j when it has R bits and they are bit j of the rows. -/
theorem Code.eq_syn_oneBit_iff (c : Code) {j : Nat} (hn : c.n ≤ 256) (hr : c.r ≤ 32) (hj : j < c.n) (x : Syndrome) :
    x = c.syn (oneBit j) ↔
      fits c.r x ∧ ∀ i, i < c.r → x.getLsbD (c.r - 1 - i) = (c.rowAt i).getLsbD j := by
  constructor
  · rintro rfl
    exact ⟨c.fits_syn _, fun i hi => c.getLsbD_syn_oneBit hn hr hi hj⟩
  · rintro ⟨hfits, hrows⟩
    refine BitVec.eq_of_getLsbD_eq fun k _ => ?_
    rcases Nat.lt_or_ge k c.r with hk | hk
    · obtain ⟨i, hi, rfl⟩ : ∃ i, i < c.r ∧ k = c.r - 1 - i := ⟨c.r - 1 - k, by omega, by omega⟩
      rw [hrows i hi, c.getLsbD_syn_oneBit hn hr hi hj]
    · rw [(fits_iff _ _).1 hfits k hk, (fits_iff _ _).1 (c.fits_syn _) k hk]

/-- Settles O30: CFG_OK takes the verdict of the check, whose comparison of columns is bit by bit. -/
theorem commitChecksEveryColumn : Obligations.CommitChecksEveryColumn := by
  intro s hn hr
  refine ⟨s.code.commitOk, ?_, ?_⟩
  · rcases execCommit_cases s with ⟨hcheck, hexec⟩ | ⟨hcheck, hexec⟩ <;> rw [hcheck] <;> exact hexec
  · rw [Code.commitOk_iff]
    refine and_congr_left fun _ => forall₂_congr fun j hj => ?_
    rw [Code.eq_syn_oneBit_iff s.code hn hr hj, and_comm]
    rfl

end Sys2Proof.Machine
end

section
/-! SUPPORT. The family 60_exceptions.md: the table of R276, its column of commands and its column of registers, and the idle block
(spec/60_exceptions.md R271 to R276, R291). -/

namespace Sys2Proof.Machine

/-! ## The commands of an error -/

theorem eIllegalOp_notMem_resultCodesOf (i : Instr) : .eIllegalOp ∉ resultCodesOf i := by
  cases i with
  | syn | decode | enum m | choose | run m | commit => simp [resultCodesOf]

theorem command_of_eMalformed_mem {i : Instr} (h : .eMalformed ∈ resultCodesOf i) :
    i = .choose ∨ ∃ m, i = .enum m ∨ i = .run m := by
  cases i with
  | choose => exact .inl rfl
  | enum m => exact .inr ⟨m, .inl rfl⟩
  | run m => exact .inr ⟨m, .inr rfl⟩
  | syn | decode | commit => simp [resultCodesOf] at h

theorem command_of_dueError_mem {i : Instr} {code : ResultCode} (hcode : code = .eCapacity ∨ code = .eUnrecoverableDue)
    (h : code ∈ resultCodesOf i) : ∃ m, i = .enum m ∨ i = .run m := by
  cases i with
  | enum m => exact ⟨m, .inl rfl⟩
  | run m => exact ⟨m, .inr rfl⟩
  | syn | decode | choose | commit => rcases hcode with rfl | rfl <;> simp [resultCodesOf] at h

theorem eq_enum_of_eNotDue_mem {i : Instr} (h : .eNotDue ∈ resultCodesOf i) : ∃ m, i = .enum m := by
  cases i with
  | enum m => exact ⟨m, rfl⟩
  | syn | decode | choose | run m | commit => simp [resultCodesOf] at h

/-! ## The registers an error writes -/

/-- The state with what the error `code` of command `i` writes besides LAST_OP and RESULT (60_exceptions.md R276); the
errors without an arm of their own write nothing. -/
def State.errorState (s : State) (i : Instr) : ResultCode → State
  | .eConfig => if i = .commit then s.clearCandidates.setCfgOk false else s
  | .eCapacity | .eUnrecoverableDue =>
    { s with
      syndrome := s.code.syn s.cw, decInfo := 0, corrected := s.cw, msg := 0
      candCount := 0, best := 0, bestSum := 0 }
  | .eNotDue =>
    { s with
      syndrome := s.code.syn s.cw
      decInfo := packDecInfo (s.code.decodeWord s.cw).tier (s.code.decodeWord s.cw).sym (s.code.decodeWord s.cw).mask
      corrected := (s.code.decodeWord s.cw).cw, msg := s.code.msg (s.code.decodeWord s.cw).cw
      candCount := 0, best := 0, bestSum := 0 }
  | _ => s

/-- If the completion of `i` that leaves `t` records an error, `t` is the state of the error's row (60_exceptions.md R276). -/
def ErrorRow (i : Instr) (s t : State) : Prop :=
  t.result.isError = true → t = (s.errorState i t.result).complete i.op t.result

section Commands

variable {s u : State} {i : Instr}

theorem errorRow_of_success {op : BitVec 4} {code : ResultCode} (h : code.isError = false) : ErrorRow i s (u.complete op code) :=
  fun herror => absurd herror (Bool.eq_false_iff.1 h)

theorem errorRow_of_eq {code : ResultCode} (h : u = s.errorState i code) : ErrorRow i s (u.complete i.op code) :=
  fun _ => congrArg (State.complete i.op code) h

/-- Groups D and Z of a DUE word, where nothing was listed (42_enumerator.md R185, 44_pipeline_config.md R240). -/
theorem errorState_of_due (hdue : (s.code.decodeWord s.cw).outcome = .due) {code : ResultCode}
    (hcode : code = .eCapacity ∨ code = .eUnrecoverableDue) :
    (s.writeDecode (s.code.decodeWord s.cw)).clearCandidates = s.errorState i code := by
  rw [State.writeDecode_of_due hdue]
  rcases hcode with rfl | rfl <;> rfl

/-- Groups D and Z of a word that is not DUE (42_enumerator.md R182). -/
theorem errorState_of_not_due (hnot : (s.code.decodeWord s.cw).outcome ≠ .due) :
    (s.writeDecode (s.code.decodeWord s.cw)).clearCandidates = s.errorState i .eNotDue := by
  rw [State.writeDecode, if_neg hnot]
  rfl

variable (s)

theorem execSyn_errorRow : ∃ t, execSyn s = .next t ∧ ErrorRow .syn s t := by
  rcases execSyn_cases s with ⟨-, hexec⟩ | ⟨-, hexec⟩
  · exact ⟨_, hexec, errorRow_of_eq rfl⟩
  · exact ⟨_, hexec, errorRow_of_success rfl⟩

theorem execDecode_errorRow : ∃ t, execDecode s = .next t ∧ ErrorRow .decode s t := by
  rcases execDecode_cases s with ⟨-, hexec⟩ | ⟨-, hexec⟩
  · exact ⟨_, hexec, errorRow_of_eq rfl⟩
  · exact ⟨_, hexec, errorRow_of_success (DecodeOutcome.code_isError _)⟩

theorem execEnum_errorRow (m : Nat) : ∃ t, execEnum m s = .next t ∧ ErrorRow (.enum m) s t := by
  rcases execEnum_cases m s with ⟨-, hexec⟩ | ⟨-, -, hexec⟩ | ⟨-, -, hnot, hexec⟩ | ⟨-, -, hdue, -, hexec⟩ |
    ⟨-, -, hdue, -, hexec⟩ | ⟨-, -, -, list, -, hexec⟩
  · exact ⟨_, hexec, errorRow_of_eq rfl⟩
  · exact ⟨_, hexec, errorRow_of_eq rfl⟩
  · exact ⟨_, hexec, errorRow_of_eq (errorState_of_not_due hnot)⟩
  · exact ⟨_, hexec, errorRow_of_eq (errorState_of_due hdue (by decide))⟩
  · exact ⟨_, hexec, errorRow_of_eq (errorState_of_due hdue (by decide))⟩
  · exact ⟨_, hexec, errorRow_of_success rfl⟩

theorem execChoose_errorRow : ∃ t, execChoose s = .next t ∧ ErrorRow .choose s t := by
  rcases execChoose_cases s with ⟨-, hexec⟩ | ⟨-, -, hexec⟩ | ⟨-, -, -, hexec⟩ | ⟨-, -, -, hexec⟩
  · exact ⟨_, hexec, errorRow_of_eq rfl⟩
  · exact ⟨_, hexec, errorRow_of_eq rfl⟩
  · exact ⟨_, hexec, errorRow_of_eq rfl⟩
  · exact ⟨_, hexec, errorRow_of_success rfl⟩

theorem execRun_errorRow (m : Nat) : ∃ t, execRun m s = .next t ∧ ErrorRow (.run m) s t := by
  rcases execRun_cases m s with ⟨-, hexec⟩ | ⟨-, -, hexec⟩ | ⟨-, -, -, -, hexec⟩ | ⟨-, -, -, hdue, -, hexec⟩ |
    ⟨-, -, -, hdue, -, hexec⟩ | ⟨-, -, -, -, list, -, hexec⟩
  · exact ⟨_, hexec, errorRow_of_eq rfl⟩
  · exact ⟨_, hexec, errorRow_of_eq rfl⟩
  · exact ⟨_, hexec, errorRow_of_success (DecodeOutcome.code_isError _)⟩
  · exact ⟨_, hexec, errorRow_of_eq (errorState_of_due hdue (by decide))⟩
  · exact ⟨_, hexec, errorRow_of_eq (errorState_of_due hdue (by decide))⟩
  · exact ⟨_, hexec, errorRow_of_success rfl⟩

theorem execCommit_errorRow : ∃ t, execCommit s = .next t ∧ ErrorRow .commit s t := by
  rcases execCommit_cases s with ⟨-, hexec⟩ | ⟨-, hexec⟩
  · exact ⟨_, hexec, errorRow_of_success rfl⟩
  · exact ⟨_, hexec, errorRow_of_eq rfl⟩

theorem exec_errorRow (i : Instr) : ∃ t, exec i s = .next t ∧ ErrorRow i s t := by
  cases i with
  | syn => exact execSyn_errorRow s
  | decode => exact execDecode_errorRow s
  | enum m => exact execEnum_errorRow s m
  | choose => exact execChoose_errorRow s
  | run m => exact execRun_errorRow s m
  | commit => exact execCommit_errorRow s

end Commands

/-- The row of the error `code` in the words of the table: its state under STATUS, but for the delay counter (log 5). -/
theorem ErrorRow.agrees {i : Instr} {s t : State} (h : ErrorRow i s t) {code : ResultCode} (hcode : t.result = code)
    (herror : code.isError = true) : t.agrees ((s.errorState i code).onlyResult i.op code) := by
  have ht : t = (s.errorState i code).complete i.op code := hcode ▸ h (hcode ▸ herror)
  subst ht
  rfl

/-- Settles O33: the codes of a command give the table's column of commands, and the rows of its errors the column of registers. -/
theorem errorsLeaveTheStateOfTheTable : Obligations.ErrorsLeaveTheStateOfTheTable := by
  intro w s
  rcases completeWord_cases w s with ⟨i, hdecode, hcomplete⟩ | ⟨e, hdecode, hcomplete⟩
  · obtain ⟨t, hexec, hcode⟩ := exec_codes s i
    obtain ⟨t', hexec', hrow⟩ := exec_errorRow s i
    obtain rfl := Host.Outcome.next.inj (hexec.symm.trans hexec')
    obtain ⟨-, hop, -⟩ := (decodeCmd_eq_ok_iff w i).1 hdecode
    rw [← cmdOp, hop, hdecode]
    refine ⟨t, hcomplete.trans hexec, ?_, nofun, ?_, fun h hi => ?_, fun h hi => ?_, ?_, fun h => ?_⟩
    · rintro _ ⟨rfl⟩
      exact ⟨fun h => eIllegalOp_notMem_resultCodesOf i (h ▸ hcode), fun h => command_of_eMalformed_mem (h ▸ hcode),
        fun h => command_of_dueError_mem h hcode,
        fun h => eq_choose_of_eAmbiguous_mem (h ▸ hcode), fun h => eq_enum_of_eNotDue_mem (h ▸ hcode)⟩
    · rintro (h | h | h) <;> rw [h] <;> exact hrow.agrees h rfl
    · have hne : i ≠ .commit := fun heq => hi (congrArg Except.ok heq)
      simpa only [State.errorState, if_neg hne] using hrow.agrees h rfl
    · obtain rfl := Except.ok.inj hi
      exact hrow.agrees h rfl
    · rintro (h | h) <;> rw [h] <;> exact hrow.agrees h rfl
    · obtain ⟨m, rfl⟩ := eq_enum_of_eNotDue_mem (h ▸ hcode)
      exact hrow.agrees h rfl
  · rw [hdecode]
    refine ⟨_, hcomplete, nofun, fun _ _ => rfl, fun _ => rfl, nofun, nofun, ?_, nofun⟩
    rintro (h | h) <;> nomatch h

/-! ## The idle block -/

/-- Settles O51: the engine has no command to complete, and the bus no event to deliver. -/
theorem idleBlockDoesNothing : Obligations.IdleBlockDoesNothing := by
  intro s hidle hinbox
  have hturn : s.engineTurn = false := by simp [State.engineTurn, hidle]
  simp [step, hturn, hostTurn, hinbox]

end Sys2Proof.Machine
end

section
/-! SUPPORT. The family 70_reset_and_hazards.md: the assertion of reset, the events that come while it lasts, its release, and the
invariants of a block fresh out of it (spec/70_reset_and_hazards.md R300 to R304). -/

namespace Sys2Proof.Machine

/-! ## The state that reset leaves -/

section AfterReset

variable (s : State)

@[simp] theorem State.afterReset_build : s.afterReset.build = s.build := rfl
@[simp] theorem State.afterReset_cmd : s.afterReset.cmd = 0 := rfl
@[simp] theorem State.afterReset_pending : s.afterReset.pending = none := rfl
@[simp] theorem State.afterReset_busy : s.afterReset.busy = false := rfl
@[simp] theorem State.afterReset_cfgOk : s.afterReset.cfgOk = false := rfl
@[simp] theorem State.afterReset_overrun : s.afterReset.overrun = false := rfl
@[simp] theorem State.afterReset_lastOp : s.afterReset.lastOp = 0 := rfl
@[simp] theorem State.afterReset_result : s.afterReset.result = .none := rfl
@[simp] theorem State.afterReset_layout : s.afterReset.layout = false := rfl
@[simp] theorem State.afterReset_distMode : s.afterReset.distMode = false := rfl
@[simp] theorem State.afterReset_siCount : s.afterReset.siCount = 0 := rfl
@[simp] theorem State.afterReset_siSel : s.afterReset.siSel = 0 := rfl
@[simp] theorem State.afterReset_candSel : s.afterReset.candSel = 0 := rfl
@[simp] theorem State.afterReset_cw : s.afterReset.cw = 0 := rfl
@[simp] theorem State.afterReset_syndrome : s.afterReset.syndrome = 0 := rfl
@[simp] theorem State.afterReset_decInfo : s.afterReset.decInfo = 0 := rfl
@[simp] theorem State.afterReset_corrected : s.afterReset.corrected = 0 := rfl
@[simp] theorem State.afterReset_msg : s.afterReset.msg = 0 := rfl
@[simp] theorem State.afterReset_candCount : s.afterReset.candCount = 0 := rfl
@[simp] theorem State.afterReset_best : s.afterReset.best = 0 := rfl
@[simp] theorem State.afterReset_bestSum : s.afterReset.bestSum = 0 := rfl
@[simp] theorem State.afterReset_inReset : s.afterReset.inReset = false := rfl
@[simp] theorem State.afterReset_inbox : s.afterReset.inbox = s.inbox := rfl

/-- Every field of STATUS is 0 (10_state.md R43). -/
@[simp] theorem State.afterReset_statusWord : s.afterReset.statusWord = 0 := by
  simp [State.statusWord, flagBit, ResultCode.code]

/-- The arrays whose reset value is unspecified have the build's sizes, and their entries its widths (70_reset_and_hazards.md R302). -/
theorem State.afterReset_arrays :
    s.afterReset.row.length = s.build.r ∧ (∀ x ∈ s.afterReset.row, fits s.build.n x) ∧
    s.afterReset.col.length = s.build.n ∧ (∀ x ∈ s.afterReset.col, fits s.build.r x) ∧
    s.afterReset.si.length = s.build.siCap ∧ (∀ x ∈ s.afterReset.si, fits s.build.n x) ∧
    s.afterReset.candCw.length = s.build.candCap ∧ (∀ x ∈ s.afterReset.candCw, fits s.build.n x) ∧
    s.afterReset.candScore.length = s.build.candCap := by
  refine ⟨?_, fits_of_mem_map_lowBits, ?_, fits_of_mem_map_lowBits, ?_, fits_of_mem_map_lowBits, ?_,
    fits_of_mem_map_lowBits, ?_⟩ <;> simp [State.afterReset, State.fresh]

end AfterReset

/-! ## One event in reset -/

section Delivery

variable {s : State} {rest : List BusEvent}

theorem State.engineTurn_of_inReset (hreset : s.inReset = true) : s.engineTurn = false := by
  simp [State.engineTurn, hreset]

theorem State.access_of_inReset (hreset : s.inReset = true) (off : Nat) (a : Access) :
    s.access off a = s.respond .ignored := by
  rw [State.access, if_pos hreset]

theorem State.pollOnce_of_inReset (hreset : s.inReset = true) : s.pollOnce = s.respond .ignored := by
  rw [State.pollOnce, if_pos hreset]

/-- In reset an access of the window, or a poll, leaves the inbox and does nothing (70_reset_and_hazards.md R300; log 12, log 13). -/
theorem step_of_plain_inReset {e : BusEvent} (h : s.deliversNow e rest) (hreset : s.inReset = true)
    (hplain : e.plain s.build = true) : step s = .next ((s.takeEvent rest).respond .ignored) := by
  cases e with
  | access a =>
    obtain ⟨hlow, hhigh⟩ := (s.inWindow_iff a.addr).1 hplain
    rw [step_of_access h hlow hhigh, State.access_of_inReset (s := s.takeEvent rest) hreset]
  | poll => rw [step_of_event h, deliver, State.pollOnce_of_inReset (s := s.takeEvent rest) hreset]
  | resetAssert => exact absurd hplain Bool.false_ne_true
  | resetRelease => exact absurd hplain Bool.false_ne_true

/-- The assertion of reset, whatever the block is doing (70_reset_and_hazards.md R300, R304). -/
theorem step_of_resetAssert (h : s.deliversNow .resetAssert rest) : step s = .next (s.takeEvent rest).assertReset :=
  step_of_event h

/-- The release of an asserted reset (70_reset_and_hazards.md R300, R301). -/
theorem step_of_resetRelease (h : s.deliversNow .resetRelease rest) (hreset : s.inReset = true) :
    step s = .next (s.takeEvent rest).afterReset := by
  rw [step_of_event h, deliver, State.releaseReset, if_pos ((s.takeEvent_inReset rest).trans hreset)]

end Delivery

/-- Settles O55: the answer `ignored` is all a plain event gets. -/
theorem accessesDuringResetAreIgnored : Obligations.AccessesDuringResetAreIgnored :=
  fun _ _ _ => step_of_plain_inReset

/-- Settles O53: the release leaves `State.afterReset`, whose fields are known. -/
theorem releaseOfResetGivesTheResetValues : Obligations.ReleaseOfResetGivesTheResetValues := by
  intro s rest h hreset
  refine ⟨_, step_of_resetRelease h hreset, ?_⟩
  simpa using (s.takeEvent rest).afterReset_arrays

/-! ## From the assertion to the release -/

/-- A block in reset drops every event up to the release, one a step, and then takes the reset values (70_reset_and_hazards.md R300,
R301; log 8). -/
theorem run_to_resetRelease {es rest : List BusEvent} {s : State} (hreset : s.inReset = true)
    (hinbox : s.inbox = es ++ .resetRelease :: rest) (hplain : ∀ e ∈ es, e.plain s.build = true) :
    ∃ u : State, Sys2Proof.core.run (es.length + 1) s = .next u.afterReset ∧ u.build = s.build ∧ u.inbox = rest := by
  have hturn := State.engineTurn_of_inReset hreset
  induction es generalizing s with
  | nil => exact ⟨s.takeEvent rest, run_of_step 0 (step_of_resetRelease ⟨hturn, hinbox⟩ hreset), rfl, rfl⟩
  | cons e es ih =>
    obtain ⟨he, hes⟩ := List.forall_mem_cons.1 hplain
    have hstep := step_of_plain_inReset ⟨hturn, hinbox⟩ hreset he
    obtain ⟨u, hrun, hbuild, hrest⟩ :=
      ih (s := (s.takeEvent (es ++ .resetRelease :: rest)).respond .ignored) hreset rfl hes (State.engineTurn_of_inReset hreset)
    exact ⟨u, (run_of_step _ hstep).trans hrun, hbuild, hrest⟩

/-- Settles O54: the assertion puts the block in reset, whatever it was doing, and from there the run reaches the release. -/
theorem resetAbandonsThePendingCommand : Obligations.ResetAbandonsThePendingCommand := by
  refine ⟨fun s rest h => step_of_resetAssert h, fun s es rest h hplain => ?_⟩
  obtain ⟨u, hrun, hbuild, hrest⟩ := run_to_resetRelease (s := (s.takeEvent _).assertReset) rfl rfl hplain
  refine ⟨u.afterReset, (run_of_step _ (step_of_resetAssert h)).trans hrun, ?_⟩
  simp [hbuild, hrest]

/-! ## The invariants of the reset states -/

section Fresh

variable {b : Build} {row : List Codeword} {col : List Syndrome} {si candCw : List Codeword} {candScore : List Word}

/-- Right after reset the arrays are the only registers that are not 0, nothing is pending and CFG_OK = 0
(70_reset_and_hazards.md R301, R302). -/
theorem State.fresh_invariants (hbuild : b.wellFormed = true) (hrow : row.length = b.r) (hrowFits : ∀ x ∈ row, fits b.n x)
    (hcol : col.length = b.n) (hcolFits : ∀ x ∈ col, fits b.r x) (hsi : si.length = b.siCap) (hsiFits : ∀ x ∈ si, fits b.n x)
    (hcandCw : candCw.length = b.candCap) (hcandCwFits : ∀ x ∈ candCw, fits b.n x) (hcandScore : candScore.length = b.candCap) :
    (State.fresh b row col si candCw candScore).Widths ∧ (State.fresh b row col si candCw candScore).ResultsLegal ∧
    (State.fresh b row col si candCw candScore).Protocol ∧ (State.fresh b row col si candCw candScore).CommittedState := by
  have hwidths : (State.fresh b row col si candCw candScore).Widths :=
    ⟨hbuild, hrow, hrowFits, hcol, hcolFits, fits_zero _, hsi, hsiFits, fits_zero _, fits_zero _, fits_zero _, hcandCw,
      hcandCwFits, hcandScore⟩
  have hresults := (State.legal_afterReset hwidths).results
  exact ⟨hwidths, { hresults with }, State.protocol_of_idle rfl rfl, State.committedState_of_cfgOk_false rfl⟩

end Fresh

theorem fits_of_mem_replicate_zero {m w size : Nat} : ∀ x ∈ List.replicate size (0 : BitVec m), fits w x := by
  intro x hx
  rw [List.eq_of_mem_replicate hx]
  exact fits_zero w

/-- Settles O59: the reset state is a fresh state of the default build, its arrays all zeros. -/
theorem invariantsHoldAfterReset : Obligations.InvariantsHoldAfterReset :=
  ⟨State.fresh_invariants (by decide) List.length_replicate fits_of_mem_replicate_zero List.length_replicate
    fits_of_mem_replicate_zero List.length_replicate fits_of_mem_replicate_zero List.length_replicate
    fits_of_mem_replicate_zero List.length_replicate,
   fun _ _ _ _ _ _ => State.fresh_invariants⟩

end Sys2Proof.Machine
end
